-- ==== Sys2Proof/Word.lean ====
section
/-! DEFINITION. The words and register widths of the block.

A register whose width is a parameter of 00_scope.md R4 is held at the largest width that the parameter's constraint
admits; that its value fits the width in force is `Block.Fits` of Safety.lean, which every step keeps (00_scope.md R6:
no rule stores a value wider than its register; log entry 13). -/

namespace Sys2Proof

/-- A command word or a response word, 64 bits (30_encoding.md R80). -/
abbrev Word := BitVec 64

/-- One byte of a serialised word (20_memory.md R62). -/
abbrev Byte := BitVec 8

/-- The 32-bit `value` part of a response word (30_encoding.md R90). -/
abbrev Value := BitVec 32

/-- A duty register or a timer counter, `DUTY_BITS = RES_MAX <= 20` bits (00_scope.md R4). -/
abbrev Duty := BitVec 20

/-- A divider register `div_fx`, `DIV_BITS = DIV_INT_BITS + FRAC_BITS <= 32` bits (00_scope.md R4,
40_clock_divider.md R105). -/
abbrev DivFx := BitVec 32

/-- A fade parameter or fade counter, `FADE_BITS = 10` bits (10_state.md R26). -/
abbrev FadeCount := BitVec 10

/-- A counter resolution in bits, a 5-bit register (10_state.md R21). -/
abbrev Resolution := BitVec 5

/-- The opaque output pin identity, `PIN_BITS = 8` bits (10_state.md R24). -/
abbrev PinId := BitVec 8

/-- The interrupt status register, `NUM_CHANNELS <= 16` bits, bit `c` for channel `c` (00_scope.md R4,
10_state.md R28). -/
abbrev IntBits := BitVec 16

/-- The 16-bit mask operand of INT_CLEAR (30_encoding.md R82). -/
abbrev Mask := BitVec 16

end Sys2Proof
end

