-- ==== Sys2Proof/Config.lean ====
section
/-! DEFINITION. What an implementation and its environment fix: the parameters of 00_scope.md R4, the closed list of
moves that anything outside can make (70_reset_and_hazards.md R227), and the free values. -/

namespace Sys2Proof.Config

/-! ### Parameters (00_scope.md R4)

The parameters that R4 lets vary are the fields of `Params`; State carries them, so every meaning takes them as
arguments and a statement over every State is one over every choice of them. `FADE_BITS` and `PIN_BITS` are "fixed by
the encoding" (R4) and are the two constants. -/

/-- The largest `NUM_TIMERS` that R4 admits: the number of timer slots that can exist, and of values of a 4-bit index. -/
abbrev maxTimers : Nat := 16

/-- The largest `NUM_CHANNELS` that R4 admits. -/
abbrev maxChannels : Nat := 16

/-- The largest `RES_MAX` that R4 admits. -/
abbrev resMaxLimit : Nat := 20

/-- The largest `DIV_BITS` that R4 admits. -/
abbrev divBitsLimit : Nat := 32

/-- `FADE_BITS`, the width of `step_count`, `ticks_per_step` and `duty_scale`, fixed by the F_ARM encoding. -/
abbrev fadeBits : Nat := 10

/-- `PIN_BITS`, fixed by the C_CONFIG encoding. -/
abbrev pinBits : Nat := 8

/-- Every channel slot that can exist, in ascending order, the order of the loops of R118 and R176. A slot at or above
`NUM_CHANNELS` is never configured and never pending, so the loops do nothing there (log entry 16). -/
def channelIds : List (Fin maxChannels) := [0, 1, 2, 3, 4, 5, 6, 7, 8, 9, 10, 11, 12, 13, 14, 15]

/-- The parameters of R4. -/
structure Params where
  /-- `NUM_TIMERS`. -/
  numTimers : Nat
  /-- `NUM_CHANNELS`. -/
  numChannels : Nat
  /-- `RES_MIN`, the smallest counter resolution. -/
  resMin : Nat
  /-- `RES_MAX`, the largest counter resolution. -/
  resMax : Nat
  /-- `FRAC_BITS`, the fractional bits of a divider. -/
  fracBits : Nat
  /-- `DIV_INT_BITS`, the integer bits of a divider. -/
  divIntBits : Nat
  /-- `DUTY_ERR`, the sentinel of C_GETDUTY. -/
  dutyErr : Value
  /-- `F_REF_TICK` in Hz, OPEN (92_eei_decisions.md D6). -/
  refTick : BitVec 32
  /-- `F_BUS_CLK` in Hz, OPEN (D6). -/
  busClk : BitVec 32
deriving DecidableEq, Repr

/-- `DIV_BITS = DIV_INT_BITS + FRAC_BITS`. -/
abbrev Params.divBits (p : Params) : Nat := p.divIntBits + p.fracBits

/-- `DUTY_BITS = RES_MAX`, the width of every duty register and of every timer counter. -/
abbrev Params.dutyBits (p : Params) : Nat := p.resMax

/-- The "constraint" column of R4. -/
abbrev Params.Valid (p : Params) : Prop :=
  (1 ≤ p.numTimers ∧ p.numTimers ≤ maxTimers) ∧ (1 ≤ p.numChannels ∧ p.numChannels ≤ maxChannels) ∧
  (1 ≤ p.resMin ∧ p.resMin ≤ p.resMax ∧ p.resMax ≤ resMaxLimit) ∧
  (1 ≤ p.fracBits ∧ 1 ≤ p.divIntBits ∧ p.divBits ≤ divBitsLimit) ∧
  2 ^ p.resMax - 1 < p.dutyErr.toNat ∧ p.refTick ≠ 0 ∧ p.busClk ≠ 0

/-- The "value" column of R4, used in every test vector of the spec. -/
def defaultParams : Params :=
  { numTimers := 4, numChannels := 8, resMin := 10, resMax := 15, fracBits := 8, divIntBits := 10,
    dutyErr := 0xFFFFFFFF, refTick := 1000000, busClk := 80000000 }

/-! ### The moves of the environment (70_reset_and_hazards.md R227) -/

/-- The two contexts of the host that share the command port (20_memory.md R72). -/
inductive HostContext
  /-- `Host.Main`, the normal program flow. -/
  | main
  /-- `Host.Isr`, the interrupt handler. -/
  | isr
deriving DecidableEq, Repr, Inhabited

/-- One move of the closed list of R227, or one of the host alone, which changes no state of the block: `register`
(R177), and the end of the program of `Host.Main` (R229). -/
inductive Move
  /-- A transaction: the host presents the command word `w`. -/
  | command (ctx : HostContext) (w : Word)
  /-- The environment advances the counter of timer `t` by one, `Tick(t)` (41_timer.md R117). -/
  | tick (t : Fin maxTimers)
  /-- The platform asserts the reset input (R210, R211). -/
  | reset
  /-- The host attaches a handler to an interrupt line (45_interrupt_dispatcher.md R177). -/
  | register (line : Nat) (handler : Option Nat) (context : Nat)
  /-- The interrupt controller starts `Host.Isr` (60_exceptions.md R198). -/
  | enterIsr
  /-- `Host.Isr` returns in the host's own way (60_exceptions.md R199). -/
  | leaveIsr
  /-- `Host.Main` has issued its last command and received its response (70_reset_and_hazards.md R229 a). -/
  | endMain
deriving DecidableEq, Repr, Inhabited

/-! ### Free values: nothing constrains them -/

/-- The move the environment makes at step `k` when no move has been queued: every interleaving of commands, ticks
and resets is admissible (93_implementation_defined.md U11). Log entry 3. -/
opaque freeMove : Nat → Move

/-- The level of `out[c]`, sampled after step `k`, while the latched duty is out of range
(42_channel.md R137, 93_implementation_defined.md U2). Log entry 5. -/
opaque freeOut : Nat → Fin maxChannels → Bool

/-- Whether the platform has an interrupt line of this number: the platform's own fact
(45_interrupt_dispatcher.md R177, 92_eei_decisions.md D37). Log entry 8. -/
opaque platformHasLine : Nat → Bool

end Sys2Proof.Config
end

