-- ==== Sys2Proof/Syntax.lean ====
section
/-! DEFINITION. The 18 commands of spec/opcode_table.json, one constructor of `Instr` each, and the names of their
operands.

An operand is the unsigned integer its field holds (00_scope.md R6, 30_encoding.md R89), so it is a `Nat`; whether it
fits its field is `WellFormed.lean`. The pin (opaque bits, R86) and the mask (one bit per channel, R82) are bit
vectors, and each one-bit operand has a type of its own. -/

namespace Sys2Proof

/-- The clock-source enumeration (30_encoding.md R83, 92_eei_decisions.md D6). -/
inductive ClockSource
  /-- `REF_TICK`, encoded 0: the fixed reference tick. -/
  | refTick
  /-- `BUS_CLK`, encoded 1: the peripheral bus clock. -/
  | busClk
deriving DecidableEq, Repr

/-- The direction of a fade (30_encoding.md R87). -/
inductive Direction
  /-- Encoded 0. -/
  | decrease
  /-- Encoded 1. -/
  | increase
deriving DecidableEq, Repr

/-- The commands (30_encoding.md R91, 00_scope.md R10). -/
inductive Instr
  /-- DIVCALC, opcode 0x01 (40_clock_divider.md R107). -/
  | divcalc (res : Nat) (src : ClockSource) (freq : Nat)
  /-- T_CONFIG, opcode 0x10 (41_timer.md R110). -/
  | tConfig (tid res : Nat) (src : ClockSource) (freq : Nat)
  /-- T_SETFREQ, opcode 0x11 (41_timer.md R111). -/
  | tSetfreq (tid freq : Nat)
  /-- T_GETFREQ, opcode 0x12 (41_timer.md R112). -/
  | tGetfreq (tid : Nat)
  /-- T_RESET, opcode 0x13 (41_timer.md R113). -/
  | tReset (tid : Nat)
  /-- T_PAUSE, opcode 0x14 (41_timer.md R114). -/
  | tPause (tid : Nat)
  /-- T_RESUME, opcode 0x15 (41_timer.md R115). -/
  | tResume (tid : Nat)
  /-- T_SETRAW, opcode 0x16 (41_timer.md R116). -/
  | tSetraw (tid res : Nat) (src : ClockSource) (div : Nat)
  /-- C_CONFIG, opcode 0x20 (42_channel.md R130). -/
  | cConfig (cid tid : Nat) (pin : PinId) (idle inten : Bool) (duty : Nat)
  /-- C_SETDUTY, opcode 0x21 (42_channel.md R131). -/
  | cSetduty (cid duty : Nat)
  /-- C_GETDUTY, opcode 0x22 (42_channel.md R132). -/
  | cGetduty (cid : Nat)
  /-- C_STOP, opcode 0x23 (42_channel.md R133). -/
  | cStop (cid : Nat) (idle : Bool)
  /-- C_BIND, opcode 0x24 (42_channel.md R134). -/
  | cBind (cid tid : Nat)
  /-- COMMIT, opcode 0x30 (43_update_protocol.md R145). -/
  | commit (cid : Nat)
  /-- F_ARM, opcode 0x40 (44_fade_engine.md R156). -/
  | fArm (cid : Nat) (dir : Direction) (steps ticks scale start : Nat)
  /-- F_CANCEL, opcode 0x41 (44_fade_engine.md R161). -/
  | fCancel (cid : Nat)
  /-- INT_STATUS, opcode 0x50 (45_interrupt_dispatcher.md R175). -/
  | intStatus
  /-- INT_CLEAR, opcode 0x51 (45_interrupt_dispatcher.md R176). -/
  | intClear (mask : Mask)
deriving DecidableEq, Repr

/-- The 18 defined opcodes, the rows of the opcode map (30_encoding.md R91). -/
inductive Opcode
  | divcalc | tConfig | tSetfreq | tGetfreq | tReset | tPause | tResume | tSetraw
  | cConfig | cSetduty | cGetduty | cStop | cBind
  | commit | fArm | fCancel | intStatus | intClear
deriving DecidableEq, Repr

/-- Why the decoder rejects what it is given. A 64-bit word that is rejected is answered `InvalidArgument` and writes
no state (30_encoding.md R92, R93). -/
inductive DecodeError
  /-- The opcode byte is none of the 18 (R92). -/
  | reservedOpcode (op : Nat)
  /-- A must-be-zero bit of the opcode's format is 1 (R93). -/
  | mustBeZero (op : Opcode)
  /-- The bytes are not exactly one 64-bit word: a word is presented whole or not at all (20_memory.md R62). -/
  | notOneWord (bytes : Nat)
deriving DecidableEq, Repr

/-- The opcode of a command. -/
def Instr.opcode : Instr → Opcode
  | .divcalc _ _ _ => .divcalc
  | .tConfig _ _ _ _ => .tConfig
  | .tSetfreq _ _ => .tSetfreq
  | .tGetfreq _ => .tGetfreq
  | .tReset _ => .tReset
  | .tPause _ => .tPause
  | .tResume _ => .tResume
  | .tSetraw _ _ _ _ => .tSetraw
  | .cConfig _ _ _ _ _ _ => .cConfig
  | .cSetduty _ _ => .cSetduty
  | .cGetduty _ => .cGetduty
  | .cStop _ _ => .cStop
  | .cBind _ _ => .cBind
  | .commit _ => .commit
  | .fArm _ _ _ _ _ _ => .fArm
  | .fCancel _ => .fCancel
  | .intStatus => .intStatus
  | .intClear _ => .intClear

end Sys2Proof
end

