-- ==== Sys2Proof/WellFormed.lean ====
section
/-! DEFINITION. Which terms of `Instr` a command word can carry: every operand fits the field that its format gives it
(30_encoding.md R81 to R88). A value that fits its field but is out of range for the command (R88) is well formed: the
command itself rejects it. -/

namespace Sys2Proof

/-- `n` fits an unsigned field of `w` bits (30_encoding.md R89). -/
def fits (w n : Nat) : Bool := decide (n < 2 ^ w)

/-- A timer or channel index field, 4 bits (R83, R84). -/
def indexFits (n : Nat) : Bool := fits 4 n

/-- The `res` field, 5 bits (R83). -/
def resFits (n : Nat) : Bool := fits 5 n

/-- The `imm32` field (R83, R84, R86). -/
def imm32Fits (n : Nat) : Bool := fits 32 n

/-- The `steps`, `ticks` and `scale` fields, `FADE_BITS` bits each (R87). -/
def fadeFits (n : Nat) : Bool := fits Config.fadeBits n

/-- The `start` field, 20 bits (R87). -/
def startFits (n : Nat) : Bool := fits 20 n

/-- Every operand fits its field. -/
def Instr.wf : Instr → Bool
  | .divcalc res _ freq => resFits res && imm32Fits freq
  | .tConfig tid res _ freq => indexFits tid && resFits res && imm32Fits freq
  | .tSetfreq tid freq => indexFits tid && imm32Fits freq
  | .tGetfreq tid => indexFits tid
  | .tReset tid => indexFits tid
  | .tPause tid => indexFits tid
  | .tResume tid => indexFits tid
  | .tSetraw tid res _ div => indexFits tid && resFits res && imm32Fits div
  | .cConfig cid tid _ _ _ duty => indexFits cid && indexFits tid && imm32Fits duty
  | .cSetduty cid duty => indexFits cid && imm32Fits duty
  | .cGetduty cid => indexFits cid
  | .cStop cid _ => indexFits cid
  | .cBind cid tid => indexFits cid && indexFits tid
  | .commit cid => indexFits cid
  | .fArm cid _ steps ticks scale start =>
      indexFits cid && fadeFits steps && fadeFits ticks && fadeFits scale && startFits start
  | .fCancel cid => indexFits cid
  | .intStatus => true
  | .intClear _ => true

end Sys2Proof
end

