-- ==== Sys2Proof/Decode.lean ====
section
/-! DEFINITION. The decoder, total on every word and on every list of bytes, and after it the encoder
(30_encoding.md R80 to R95). -/

namespace Sys2Proof

/-! ### Fields -/

/-- `W[hi:lo]` read as an unsigned integer of `hi - lo + 1` bits (00_scope.md R5). -/
def field (w : Word) (hi lo : Nat) : Nat := w.toNat / 2 ^ lo % 2 ^ (hi - lo + 1)

/-- `W[i]` (00_scope.md R5). -/
def fieldBit (w : Word) (i : Nat) : Bool := field w i i == 1

/-- Clock source by its code (R83). -/
def clockSourceOf (b : Bool) : ClockSource := if b then .busClk else .refTick

/-- Fade direction by its code (R87). -/
def directionOf (b : Bool) : Direction := if b then .increase else .decrease

/-! ### The opcode map (R91) -/

/-- The numeric opcode `W[63:56]`. -/
def Opcode.code : Opcode → Nat
  | .divcalc => 0x01
  | .tConfig => 0x10
  | .tSetfreq => 0x11
  | .tGetfreq => 0x12
  | .tReset => 0x13
  | .tPause => 0x14
  | .tResume => 0x15
  | .tSetraw => 0x16
  | .cConfig => 0x20
  | .cSetduty => 0x21
  | .cGetduty => 0x22
  | .cStop => 0x23
  | .cBind => 0x24
  | .commit => 0x30
  | .fArm => 0x40
  | .fCancel => 0x41
  | .intStatus => 0x50
  | .intClear => 0x51

/-- The rows of the opcode map in its order. -/
def Opcode.all : List Opcode :=
  [.divcalc, .tConfig, .tSetfreq, .tGetfreq, .tReset, .tPause, .tResume, .tSetraw,
   .cConfig, .cSetduty, .cGetduty, .cStop, .cBind, .commit, .fArm, .fCancel, .intStatus, .intClear]

/-- The row of a numeric opcode; none where the opcode is reserved (R92). -/
def Opcode.ofCode (n : Nat) : Option Opcode := Opcode.all.find? fun op => op.code == n

/-- The must-be-zero fields `W[hi:lo]` of the opcode's format (R81 to R87; `tid` of DIVCALC, R83). -/
def Opcode.zeroFields : Opcode → List (Nat × Nat)
  | .divcalc => [(55, 52), (45, 32)]
  | .tConfig => [(45, 32)]
  | .tSetfreq => [(51, 32)]
  | .tGetfreq => [(51, 0)]
  | .tReset => [(51, 0)]
  | .tPause => [(51, 0)]
  | .tResume => [(51, 0)]
  | .tSetraw => [(45, 32)]
  | .cConfig => [(37, 32)]
  | .cSetduty => [(51, 32)]
  | .cGetduty => [(51, 0)]
  | .cStop => [(51, 40), (38, 0)]
  | .cBind => [(47, 0)]
  | .commit => [(51, 0)]
  | .fArm => [(50, 50)]
  | .fCancel => [(51, 0)]
  | .intStatus => [(55, 0)]
  | .intClear => [(55, 16)]

/-- Every must-be-zero bit of the opcode's format is 0 in `w` (R93). -/
def Opcode.zerosHold (op : Opcode) (w : Word) : Bool := op.zeroFields.all fun f => field w f.1 f.2 == 0

/-- The command an opcode makes of a word's operand fields (R82 to R89). -/
def Opcode.operands (op : Opcode) (w : Word) : Instr :=
  match op with
  | .divcalc => .divcalc (field w 51 47) (clockSourceOf (fieldBit w 46)) (field w 31 0)
  | .tConfig => .tConfig (field w 55 52) (field w 51 47) (clockSourceOf (fieldBit w 46)) (field w 31 0)
  | .tSetfreq => .tSetfreq (field w 55 52) (field w 31 0)
  | .tGetfreq => .tGetfreq (field w 55 52)
  | .tReset => .tReset (field w 55 52)
  | .tPause => .tPause (field w 55 52)
  | .tResume => .tResume (field w 55 52)
  | .tSetraw => .tSetraw (field w 55 52) (field w 51 47) (clockSourceOf (fieldBit w 46)) (field w 31 0)
  | .cConfig => .cConfig (field w 55 52) (field w 51 48) (BitVec.ofNat 8 (field w 47 40)) (fieldBit w 39)
      (fieldBit w 38) (field w 31 0)
  | .cSetduty => .cSetduty (field w 55 52) (field w 31 0)
  | .cGetduty => .cGetduty (field w 55 52)
  | .cStop => .cStop (field w 55 52) (fieldBit w 39)
  | .cBind => .cBind (field w 55 52) (field w 51 48)
  | .commit => .commit (field w 55 52)
  | .fArm => .fArm (field w 55 52) (directionOf (fieldBit w 51)) (field w 49 40) (field w 39 30) (field w 29 20)
      (field w 19 0)
  | .fCancel => .fCancel (field w 55 52)
  | .intStatus => .intStatus
  | .intClear => .intClear (BitVec.ofNat 16 (field w 15 0))

/-! ### The decoder -/

/-- Decode a command word. The opcode alone selects the format (R80); a reserved opcode is rejected first, then a 1 in
a must-be-zero bit (60_exceptions.md R190). -/
def decode (w : Word) : Except DecodeError Instr :=
  match Opcode.ofCode (field w 63 56) with
  | none => .error (.reservedOpcode (field w 63 56))
  | some op => if op.zerosHold w then .ok (op.operands w) else .error (.mustBeZero op)

/-- The word that little-endian bytes spell: byte `i` holds `W[8i+7 : 8i]` (20_memory.md R62). -/
def natOfBytes : List Byte → Nat
  | [] => 0
  | b :: bs => b.toNat + 256 * natOfBytes bs

/-- Decode serialised bytes, which must be exactly one word (20_memory.md R62). -/
def decodeBytes (bs : List Byte) : Except DecodeError Instr :=
  if bs.length = 8 then decode (BitVec.ofNat 64 (natOfBytes bs)) else .error (.notOneWord bs.length)

/-! ### The encoder -/

/-- The operand value `v` placed with its lowest bit at bit `lo`. -/
def place (v lo : Nat) : Nat := v * 2 ^ lo

/-- The code of a clock source (R83). -/
def ClockSource.code : ClockSource → Nat
  | .refTick => 0
  | .busClk => 1

/-- The code of a fade direction (R87). -/
def Direction.code : Direction → Nat
  | .decrease => 0
  | .increase => 1

/-- The operand bits of a command, each field at its place (R82 to R87). -/
def Instr.operandBits : Instr → Nat
  | .divcalc res src freq => place res 47 + place src.code 46 + freq
  | .tConfig tid res src freq => place tid 52 + place res 47 + place src.code 46 + freq
  | .tSetfreq tid freq => place tid 52 + freq
  | .tGetfreq tid => place tid 52
  | .tReset tid => place tid 52
  | .tPause tid => place tid 52
  | .tResume tid => place tid 52
  | .tSetraw tid res src div => place tid 52 + place res 47 + place src.code 46 + div
  | .cConfig cid tid pin idle inten duty =>
      place cid 52 + place tid 48 + place pin.toNat 40 + place idle.toNat 39 + place inten.toNat 38 + duty
  | .cSetduty cid duty => place cid 52 + duty
  | .cGetduty cid => place cid 52
  | .cStop cid idle => place cid 52 + place idle.toNat 39
  | .cBind cid tid => place cid 52 + place tid 48
  | .commit cid => place cid 52
  | .fArm cid dir steps ticks scale start =>
      place cid 52 + place dir.code 51 + place steps 40 + place ticks 30 + place scale 20 + start
  | .fCancel cid => place cid 52
  | .intStatus => 0
  | .intClear mask => mask.toNat

/-- The command word of a command. -/
def encode (i : Instr) : Word := BitVec.ofNat 64 (place i.opcode.code 56 + i.operandBits)

/-- The eight bytes of a word, lowest address first (20_memory.md R62). -/
def bytesOfWord (w : Word) : List Byte :=
  [BitVec.ofNat 8 (field w 7 0), BitVec.ofNat 8 (field w 15 8), BitVec.ofNat 8 (field w 23 16),
   BitVec.ofNat 8 (field w 31 24), BitVec.ofNat 8 (field w 39 32), BitVec.ofNat 8 (field w 47 40),
   BitVec.ofNat 8 (field w 55 48), BitVec.ofNat 8 (field w 63 56)]

/-! ### The machine-readable table (spec/opcode_table.json)

The decoder above does not use these two columns; that both descriptions of the encoding agree is a statement. -/

/-- The `match` column of the opcode table. -/
def Opcode.matchWord : Opcode → Word
  | .divcalc => 0x0100000000000000
  | .tConfig => 0x1000000000000000
  | .tSetfreq => 0x1100000000000000
  | .tGetfreq => 0x1200000000000000
  | .tReset => 0x1300000000000000
  | .tPause => 0x1400000000000000
  | .tResume => 0x1500000000000000
  | .tSetraw => 0x1600000000000000
  | .cConfig => 0x2000000000000000
  | .cSetduty => 0x2100000000000000
  | .cGetduty => 0x2200000000000000
  | .cStop => 0x2300000000000000
  | .cBind => 0x2400000000000000
  | .commit => 0x3000000000000000
  | .fArm => 0x4000000000000000
  | .fCancel => 0x4100000000000000
  | .intStatus => 0x5000000000000000
  | .intClear => 0x5100000000000000

/-- The `mask` column of the opcode table: a 1 at every opcode bit and every must-be-zero bit. -/
def Opcode.maskWord : Opcode → Word
  | .divcalc => 0xFFF03FFF00000000
  | .tConfig => 0xFF003FFF00000000
  | .tSetfreq => 0xFF0FFFFF00000000
  | .tGetfreq => 0xFF0FFFFFFFFFFFFF
  | .tReset => 0xFF0FFFFFFFFFFFFF
  | .tPause => 0xFF0FFFFFFFFFFFFF
  | .tResume => 0xFF0FFFFFFFFFFFFF
  | .tSetraw => 0xFF003FFF00000000
  | .cConfig => 0xFF00003F00000000
  | .cSetduty => 0xFF0FFFFF00000000
  | .cGetduty => 0xFF0FFFFFFFFFFFFF
  | .cStop => 0xFF0FFF7FFFFFFFFF
  | .cBind => 0xFF00FFFFFFFFFFFF
  | .commit => 0xFF0FFFFFFFFFFFFF
  | .fArm => 0xFF04000000000000
  | .fCancel => 0xFF0FFFFFFFFFFFFF
  | .intStatus => 0xFFFFFFFFFFFFFFFF
  | .intClear => 0xFFFFFFFFFFFF0000

/-! ### The host's view -/

/-- The command word whose low `nbits` bits are those of `w` and whose other bits are 0. -/
def wordOfTable (nbits w : Nat) : Word := BitVec.ofNat 64 (w % 2 ^ nbits)

/-- What the decoder reads from an instruction whose bits, numbered as spec/opcode_table.json numbers them, are `w`.
Every command is one word of 64 bits (R80). -/
def decodeTableWord (nbits w : Nat) : Option Instr := (decodeBytes (bytesOfWord (wordOfTable nbits w))).toOption

end Sys2Proof
end

