-- ==== Sys2Proof/Machine/State.lean ====
section
/-! DEFINITION. The state of the block and of what stands around it, as plain data, and the state after reset
(10_state.md).

`Block` is everything the spec calls state of the hardware (R20), with a place for every slot that the parameters of
00_scope.md R4 admit: a slot at or above `NUM_TIMERS` or `NUM_CHANNELS` does not exist, no command reaches it, and its
place holds the reset value (`Block.Fits` of Safety.lean). `State` adds what a run needs: the response word of the
transaction just made, the host agent, the queue of moves, the step counter, and the parameters. -/

namespace Sys2Proof.Machine

/-- The run state of a timer (10_state.md R22). The unused code 3 is never stored (93_implementation_defined.md U12). -/
inductive RunState
  /-- Code 0: never configured since the last hardware reset. -/
  | reset
  /-- Code 1: the counter counts. -/
  | running
  /-- Code 2: counting is stopped, the configuration kept. -/
  | paused
deriving DecidableEq, Repr

/-- The state of a channel's fade machine (44_fade_engine.md R155). -/
inductive FadeState
  /-- Code 0. -/
  | idle
  /-- Code 1: parameters staged, not yet active. -/
  | armed
  /-- Code 2: the ramp advances at every wrap of the bound timer. -/
  | running
  /-- Code 3: the ramp has finished and is not yet acknowledged. -/
  | completed
deriving DecidableEq, Repr

/-- The status of a response (30_encoding.md R90). -/
inductive Status
  /-- Code 0x00. -/
  | ok
  /-- Code 0x01. -/
  | invalidArgument
  /-- Code 0x02. -/
  | noValidDivider
deriving DecidableEq, Repr

/-- A timer slot `T[t]` (10_state.md R21). -/
structure Timer where
  /-- Run state. -/
  run : RunState
  /-- Counter resolution in bits. -/
  res : Resolution
  /-- Clock source selection. -/
  src : ClockSource
  /-- The stored divider, the software-visible one. -/
  div : DivFx
  /-- The divider the prescaler uses in the current period; hidden (R31). -/
  divRun : DivFx
  /-- The hardware counter; hidden (R31). -/
  cnt : Duty
deriving DecidableEq, Repr

/-- The FadeState record of a channel (10_state.md R26): the machine's state, the staged set `fs_*` that F_ARM writes,
and the active set that the running ramp uses. -/
structure Fade where
  /-- `fstate`. -/
  fstate : FadeState
  /-- `fs_start`, staged start duty. -/
  fsStart : Duty
  /-- `fs_dir`, staged direction. -/
  fsDir : Direction
  /-- `fs_steps`, staged step count. -/
  fsSteps : FadeCount
  /-- `fs_ticks`, staged ticks per step. -/
  fsTicks : FadeCount
  /-- `fs_scale`, staged per-step duty delta. -/
  fsScale : FadeCount
  /-- `fa_dir`, active direction; hidden. -/
  faDir : Direction
  /-- `fa_ticks`, active ticks per step; hidden. -/
  faTicks : FadeCount
  /-- `fa_scale`, active per-step delta; hidden. -/
  faScale : FadeCount
  /-- `steps_rem`, step count remaining; hidden. -/
  stepsRem : FadeCount
  /-- `tick_cnt`, fade ticks counted inside the current step; hidden. -/
  tickCnt : FadeCount
deriving DecidableEq, Repr

/-- A channel slot `C[c]` (10_state.md R24, R26). -/
structure Channel where
  /-- 1 once C_CONFIG has succeeded on this slot. -/
  cfg : Bool
  /-- Output enable. -/
  en : Bool
  /-- Bound timer identity, 4 bits. -/
  tsel : Fin Config.maxTimers
  /-- Opaque output pin identity. -/
  pin : PinId
  /-- Idle output level. -/
  idle : Bool
  /-- Interrupt-enable flag. -/
  inten : Bool
  /-- Pending shadow duty. -/
  dutyShadow : Duty
  /-- Current active duty. -/
  dutyActive : Duty
  /-- The compare latch the waveform uses; hidden (R31). -/
  dutyWave : Duty
  /-- The fade state of the channel. -/
  fade : Fade
deriving DecidableEq, Repr

/-- The state of the hardware block (10_state.md R20): two fixed arrays of slots and the interrupt status register. -/
structure Block where
  /-- `T[0 .. NUM_TIMERS-1]`, and places that no slot stands in. -/
  timers : Vector Timer Config.maxTimers
  /-- `C[0 .. NUM_CHANNELS-1]`, and places that no slot stands in. -/
  channels : Vector Channel Config.maxChannels
  /-- `INT_STATUS`, bit `c` for channel `c` (R28). -/
  intStatus : IntBits
deriving DecidableEq, Repr

/-- What `register` sets in the host agent: `host.line`, `host.handler`, `host.context`
(45_interrupt_dispatcher.md R177). -/
structure Registration where
  /-- `host.line`. -/
  line : Nat
  /-- `host.handler`, an opaque identity. -/
  handler : Nat
  /-- `host.context`, the opaque context pointer. -/
  context : Nat
deriving DecidableEq, Repr

/-- The host agent (20_memory.md R72, 45_interrupt_dispatcher.md R177): outside the block, read by no command. -/
structure HostAgent where
  /-- The attached handler; none until `register` has succeeded. -/
  registration : Option Registration
  /-- What the last `register` answered; none where there has been none. -/
  registerResult : Option Status
  /-- `Host.Isr` is running and `Host.Main` is preempted. -/
  isrRunning : Bool
  /-- `Host.Main` has issued its last command and received its response (70_reset_and_hazards.md R229 a). -/
  mainEnded : Bool
deriving DecidableEq, Repr

/-- Why a run stops. No command and no word of the command port raises one: a transaction always completes
(20_memory.md R61). -/
inductive Fault
  /-- Raised by a queued move `tick t` while timer `t` is not Running: `Tick(t)` is not enabled (41_timer.md R117), so
  the move does not exist (70_reset_and_hazards.md R227). Safe: the model stops where the spec has no step. -/
  | tickNotEnabled (t : Fin Config.maxTimers)
deriving DecidableEq, Repr

/-- Why a queued move is refused. All but the first are about the host, never about the block: the host makes a move
that 70_reset_and_hazards.md R227 assumes never to happen. Safe: the model stops where the spec admits no move. -/
inductive Refusal
  /-- Raised by an arm of `exec` whose command has no meaning yet; no arm is left that raises it. Safe. -/
  | notModelled (mnemonic : String)
  /-- Raised by a transaction or the end of `Host.Main` while `Host.Isr` runs (20_memory.md R72, R227). Safe. -/
  | mainWhileIsrRuns
  /-- Raised by a transaction or a return of `Host.Isr` while it does not run (R72, R227). Safe. -/
  | isrNotRunning
  /-- Raised by an entry of `Host.Isr` while it already runs (60_exceptions.md R199, R227). Safe. -/
  | isrNested
  /-- Raised by an entry of `Host.Isr` while `irq = 0` (R72, R227). Safe. -/
  | isrWithoutRequest
  /-- Raised by a transaction or a second end of `Host.Main` after its last command (70_reset_and_hazards.md R229).
  Safe. -/
  | mainHasEnded
  /-- Raised by an entry of `Host.Isr` with no handler registered (R177, 93_implementation_defined.md U16). Safe. -/
  | isrWithoutHandler
deriving DecidableEq, Repr

/-- The machine. -/
structure State where
  /-- The hardware block: all the state the spec gives it. -/
  block : Block
  /-- The response word of the transaction that made this state; none after any other step (20_memory.md R61). -/
  response : Option Word
  /-- The host agent. -/
  host : HostAgent
  /-- The moves queued for the steps to come, the next one first; the model's own field (log entry 2). -/
  pending : List Config.Move
  /-- How many steps have been taken; the model's own field, which the free values are applied to (log entry 3). -/
  steps : Nat
  /-- The parameters of 00_scope.md R4, which no step writes (10_state.md R33, log entry 1). -/
  params : Config.Params
deriving DecidableEq, Repr

/-- A timer slot after reset (10_state.md R32). -/
def Timer.reset : Timer :=
  { run := .reset, res := 0, src := .refTick, div := 0, divRun := 0, cnt := 0 }

/-- An Idle FadeState with every parameter field 0: its value after reset (10_state.md R32) and after `FadeClear`
(44_fade_engine.md R162). -/
def Fade.cleared : Fade :=
  { fstate := .idle, fsStart := 0, fsDir := .decrease, fsSteps := 0, fsTicks := 0, fsScale := 0,
    faDir := .decrease, faTicks := 0, faScale := 0, stepsRem := 0, tickCnt := 0 }

/-- A channel slot after reset (10_state.md R32). -/
def Channel.reset : Channel :=
  { cfg := false, en := false, tsel := 0, pin := 0, idle := false, inten := false,
    dutyShadow := 0, dutyActive := 0, dutyWave := 0, fade := Fade.cleared }

/-- The block after the `Reset` step (70_reset_and_hazards.md R210, 10_state.md R32). -/
def Block.reset : Block :=
  { timers := Vector.replicate Config.maxTimers Timer.reset
    channels := Vector.replicate Config.maxChannels Channel.reset
    intStatus := 0 }

/-- The machine right after reset: the block as R32 states it; around it no transaction made, no handler registered,
no move queued, no step taken, and the parameter values of R4 (log entries 1, 2, 3, 8, 10, 21). -/
def State.reset : State :=
  { block := Block.reset
    response := none
    host := { registration := none, registerResult := none, isrRunning := false, mainEnded := false }
    pending := []
    steps := 0
    params := Config.defaultParams }

end Sys2Proof.Machine
end

