-- ==== Sys2Proof/Machine/Flags.lean ====
section
/-! DEFINITION. Flags and status: the status codes and the response word, when a slot counts as configured, and the
interrupt request line. -/

namespace Sys2Proof.Machine

/-- The status byte of a response (30_encoding.md R90). -/
def Status.code : Status → BitVec 8
  | .ok => 0x00
  | .invalidArgument => 0x01
  | .noValidDivider => 0x02

/-- The response word: `R[63:56] = status`, `R[55:32] = 0`, `R[31:0] = value` (30_encoding.md R90). -/
def responseWord (st : Status) (value : Value) : Word := st.code ++ (0 : BitVec 24) ++ value

/-- A timer is configured exactly when `run != Reset` (10_state.md R22). -/
def Timer.configured (T : Timer) : Bool := T.run != .reset

/-- The run state T_PAUSE leaves (41_timer.md R114). -/
def RunState.afterPause : RunState → RunState
  | .running => .paused
  | .paused => .paused
  | .reset => .reset

/-- The run state T_RESUME leaves (41_timer.md R115). -/
def RunState.afterResume : RunState → RunState
  | .paused => .running
  | .running => .running
  | .reset => .reset

/-- Source `c` is pending exactly when `INT_STATUS[c] = 1` (60_exceptions.md R192). -/
def Block.pendingBit (b : Block) (c : Fin Config.maxChannels) : Bool := b.intStatus.getLsbD c.val

/-- Source `c` is enabled exactly when `C[c].inten = 1` (60_exceptions.md R193). -/
def Block.enabledBit (b : Block) (c : Fin Config.maxChannels) : Bool := b.channels[c].inten

/-- The interrupt request line, a level (60_exceptions.md R194). -/
def Block.irq (b : Block) : Bool := Config.channelIds.any fun c => b.pendingBit c && b.enabledBit c

end Sys2Proof.Machine
end

