-- ==== Sys2Proof/Machine/Ops.lean ====
section
/-! DEFINITION. The shared operations: reading and writing slots, completing a command, clearing a FadeState, raising
and clearing a fade completion, and the host's entry into and return from the interrupt. -/

namespace Sys2Proof.Machine

/-! ### Slots (00_scope.md R7) -/

/-- `T[t]`. -/
def Block.timer (b : Block) (t : Fin Config.maxTimers) : Timer := b.timers[t]

/-- `T[t] <- T`. -/
def Block.setTimer (b : Block) (t : Fin Config.maxTimers) (T : Timer) : Block :=
  { b with timers := b.timers.set t.val T t.isLt }

/-- `C[c]`. -/
def Block.channel (b : Block) (c : Fin Config.maxChannels) : Channel := b.channels[c]

/-- `C[c] <- C`. -/
def Block.setChannel (b : Block) (c : Fin Config.maxChannels) (C : Channel) : Block :=
  { b with channels := b.channels.set c.val C c.isLt }

/-- The timer a channel is bound to, `T[C[c].tsel]`. -/
def Block.boundTimer (b : Block) (c : Fin Config.maxChannels) : Timer := b.timer (b.channel c).tsel

/-- Channel `c` is bound to timer `t` (00_scope.md R12). -/
def Block.bound (b : Block) (c : Fin Config.maxChannels) (t : Fin Config.maxTimers) : Bool :=
  (b.channel c).cfg && (b.channel c).tsel == t

/-- The number of ticks in a PWM period of a timer, `2^res` (00_scope.md R12). -/
def Timer.period (T : Timer) : Nat := 2 ^ T.res.toNat

/-- `maxduty(c)`, the largest in-range duty of channel `c` now (42_channel.md, header). -/
def Block.maxDuty (b : Block) (c : Fin Config.maxChannels) : Nat := (b.boundTimer c).period - 1

/-! ### Completing a command (00_scope.md R7, R8) -/

/-- The machine with another block. -/
def State.setBlock (s : State) (b : Block) : State := { s with block := b }

/-- `respond(status, value)`: the command ends, its writes being those of block `b`. -/
def respond (st : Status) (value : Value) (b : Block) (s : State) : Host.Outcome State Fault Refusal :=
  .next { s.setBlock b with response := some (responseWord st value) }

/-- `raise error`: the command ends with value 0 and no state of the block written. -/
def raiseError (st : Status) (s : State) : Host.Outcome State Fault Refusal := respond st 0 s.block s

/-! ### The FadeState and the interrupt status (44_fade_engine.md R160, R162; 45_interrupt_dispatcher.md R176) -/

/-- `FadeClear(c)`: the destruction of the FadeState. No duty register, `en` or status bit is written. -/
def Block.fadeClear (b : Block) (c : Fin Config.maxChannels) : Block :=
  b.setChannel c { b.channel c with fade := Fade.cleared }

/-- `INT_STATUS[c] <- 1`: the fade-completion interrupt becomes pending (60_exceptions.md R192). -/
def Block.raisePending (b : Block) (c : Fin Config.maxChannels) : Block :=
  { b with intStatus := b.intStatus ||| BitVec.twoPow 16 c.val }

/-- `INT_STATUS[c] <- 0`. -/
def Block.clearPending (b : Block) (c : Fin Config.maxChannels) : Block :=
  { b with intStatus := b.intStatus &&& ~~~ (BitVec.twoPow 16 c.val) }

/-- The acknowledgment of channel `c`: the pending bit is cleared and a Completed fade is destroyed; nothing where the
bit is not pending (45_interrupt_dispatcher.md R176). -/
def Block.acknowledge (b : Block) (c : Fin Config.maxChannels) : Block :=
  if b.pendingBit c then
    if (b.channel c).fade.fstate = .completed then (b.clearPending c).fadeClear c else b.clearPending c
  else b

/-! ### Taking the interrupt and returning from it (60_exceptions.md R198, R199)

The block saves no state and changes no mode when `irq` rises: the host's interrupt controller starts `Host.Isr`. -/

/-- Entry: `Host.Isr` starts between two transactions, while `irq = 1`, with a handler registered, and not inside
itself (20_memory.md R72, 45_interrupt_dispatcher.md R177, R179). The block is untouched. -/
def enterInterrupt (s : State) : Host.Outcome State Fault Refusal :=
  if s.host.isrRunning then .refused .isrNested
  else if s.host.registration = none then .refused .isrWithoutHandler
  else if s.block.irq then .next { s with host := { s.host with isrRunning := true } }
  else .refused .isrWithoutRequest

/-- Return: the handler returns in the host's own way and `Host.Main` goes on (60_exceptions.md R199). -/
def leaveInterrupt (s : State) : Host.Outcome State Fault Refusal :=
  if s.host.isrRunning then .next { s with host := { s.host with isrRunning := false } }
  else .refused .isrNotRunning

end Sys2Proof.Machine
end

