-- ==== Sys2Proof/Machine/Operands.lean ====
section
/-! DEFINITION. Operand forms: slot indices, clock sources and the range checks the commands share
(60_exceptions.md R186). -/

namespace Sys2Proof.Machine

/-- The timer slot an index operand names; none where `tid >= NUM_TIMERS` (20_memory.md R63, R66). -/
def timerIndex (p : Config.Params) (tid : Nat) : Option (Fin Config.maxTimers) :=
  if h : tid < Config.maxTimers ∧ tid < p.numTimers then some ⟨tid, h.1⟩ else none

/-- The channel slot an index operand names; none where `cid >= NUM_CHANNELS` (20_memory.md R63, R66). -/
def channelIndex (p : Config.Params) (cid : Nat) : Option (Fin Config.maxChannels) :=
  if h : cid < Config.maxChannels ∧ cid < p.numChannels then some ⟨cid, h.1⟩ else none

/-- `src_freq(src)`, in Hz (00_scope.md R4). -/
def srcFreq (p : Config.Params) : ClockSource → Nat
  | .refTick => p.refTick.toNat
  | .busClk => p.busClk.toNat

/-- The resolution is in `RES_MIN .. RES_MAX` (41_timer.md R110, R116). -/
def resolutionInRange (p : Config.Params) (res : Nat) : Bool := decide (p.resMin ≤ res ∧ res ≤ p.resMax)

/-- The raw divider is in `2^FRAC_BITS .. 2^DIV_BITS - 1` (41_timer.md R116). -/
def dividerInRange (p : Config.Params) (div : Nat) : Bool := decide (2 ^ p.fracBits ≤ div ∧ div < 2 ^ p.divBits)

/-- The end point of a ramp stays inside `0 .. maxDuty`; the product is exact (44_fade_engine.md R156). -/
def rampInRange (maxDuty : Nat) (dir : Direction) (steps scale start : Nat) : Bool :=
  match dir with
  | .increase => decide (start + steps * scale ≤ maxDuty)
  | .decrease => decide (steps * scale ≤ start)

end Sys2Proof.Machine
end

