-- ==== Sys2Proof/Machine/FadeEngine.lean ====
section
/-! DEFINITION. FadeEngine: F_ARM, F_CANCEL and the step generator (44_fade_engine.md). -/

namespace Sys2Proof.Machine

/-- F_ARM (44_fade_engine.md R156): accepted in Idle and in Armed; the parameters are staged, nothing else is written. -/
def execFArm (cid : Nat) (dir : Direction) (steps ticks scale start : Nat) (s : State) :
    Host.Outcome State Fault Refusal :=
  match channelIndex s.params cid with
  | none => raiseError .invalidArgument s
  | some c =>
    let C := s.block.channel c
    if !C.cfg then raiseError .invalidArgument s
    else if C.fade.fstate = .running ∨ C.fade.fstate = .completed then raiseError .invalidArgument s
    else if s.block.maxDuty c < start then raiseError .invalidArgument s
    else if steps = 0 ∨ ticks = 0 then raiseError .invalidArgument s
    else if !rampInRange (s.block.maxDuty c) dir steps scale start then raiseError .invalidArgument s
    else
      let f := { C.fade with
        fstate := .armed, fsStart := BitVec.ofNat 20 start, fsDir := dir, fsSteps := BitVec.ofNat 10 steps,
        fsTicks := BitVec.ofNat 10 ticks, fsScale := BitVec.ofNat 10 scale }
      respond .ok 0 (s.block.setChannel c { C with fade := f }) s

/-- F_CANCEL (44_fade_engine.md R161): Armed and Running go to Idle, the duty frozen; Idle and Completed stay. -/
def execFCancel (cid : Nat) (s : State) : Host.Outcome State Fault Refusal :=
  match channelIndex s.params cid with
  | none => raiseError .invalidArgument s
  | some c =>
    match (s.block.channel c).fade.fstate with
    | .armed => respond .ok 0 (s.block.fadeClear c) s
    | .running => respond .ok 0 (s.block.fadeClear c) s
    | .idle => respond .ok 0 s.block s
    | .completed => respond .ok 0 s.block s

/-- The active duty after one step of a ramp: the sum is exact and saturates at `maxDuty`, the difference saturates at
0 (44_fade_engine.md R158, R159). -/
def rampStep (dir : Direction) (duty scale maxDuty : Nat) : Nat :=
  match dir with
  | .increase => min (duty + scale) maxDuty
  | .decrease => duty - min scale duty

/-- `FadeStep(c)`, one fade tick; its caller has found the fade Running (44_fade_engine.md R158, R160). -/
def Block.fadeStep (b : Block) (c : Fin Config.maxChannels) : Block :=
  let C := b.channel c
  let f := C.fade
  if f.tickCnt.toNat + 1 = f.faTicks.toNat then
    let duty : Duty := BitVec.ofNat 20 (rampStep f.faDir C.dutyActive.toNat f.faScale.toNat (b.maxDuty c))
    let left := f.stepsRem.toNat - 1
    if left = 0 then
      (b.setChannel c
        { C with dutyActive := duty, fade := { f with fstate := .completed, tickCnt := 0, stepsRem := 0 } }).raisePending c
    else
      b.setChannel c { C with dutyActive := duty, fade := { f with tickCnt := 0, stepsRem := BitVec.ofNat 10 left } }
  else
    b.setChannel c { C with fade := { f with tickCnt := BitVec.ofNat 10 (f.tickCnt.toNat + 1) } }

end Sys2Proof.Machine
end

