-- ==== Sys2Proof/Machine/UpdateProtocol.lean ====
section
/-! DEFINITION. UpdateProtocol: COMMIT and the wave load (43_update_protocol.md). -/

namespace Sys2Proof.Machine

/-- What COMMIT makes of a configured channel, by the state of its fade (43_update_protocol.md R145). -/
def Channel.committed (C : Channel) : Channel :=
  match C.fade.fstate with
  | .idle => { C with dutyActive := C.dutyShadow }
  | .completed => { C with dutyActive := C.dutyShadow }
  | .armed =>
    { C with
      dutyActive := C.fade.fsStart
      fade := { C.fade with
        fstate := .running, faDir := C.fade.fsDir, faTicks := C.fade.fsTicks, faScale := C.fade.fsScale,
        stepsRem := C.fade.fsSteps, tickCnt := 0 } }
  | .running => C

/-- COMMIT (43_update_protocol.md R145). -/
def execCommit (cid : Nat) (s : State) : Host.Outcome State Fault Refusal :=
  match channelIndex s.params cid with
  | none => raiseError .invalidArgument s
  | some c =>
    let C := s.block.channel c
    if !C.cfg then raiseError .invalidArgument s
    else respond .ok 0 (s.block.setChannel c C.committed) s

/-- `WaveLoad(c)`, unconditional (43_update_protocol.md R146). -/
def Block.waveLoad (b : Block) (c : Fin Config.maxChannels) : Block :=
  b.setChannel c { b.channel c with dutyWave := (b.channel c).dutyActive }

end Sys2Proof.Machine
end

