-- ==== Sys2Proof/Machine/Counter.lean ====
section
/-! DEFINITION. The counter: `Tick(t)` and `Wrap(t)` (41_timer.md, section 2). -/

namespace Sys2Proof.Machine

/-- What `Wrap(t)` does for one channel: the fade step of a Running fade, then the wave load; nothing for a channel
that is not bound to `t` (41_timer.md R118). -/
def Block.wrapChannel (t : Fin Config.maxTimers) (b : Block) (c : Fin Config.maxChannels) : Block :=
  if b.bound c t then
    (if (b.channel c).fade.fstate = .running then b.fadeStep c else b).waveLoad c
  else b

/-- `T[t].div_run <- T[t].div`: a pending T_SETFREQ takes effect (41_timer.md R118). -/
def Block.loadDivider (t : Fin Config.maxTimers) (b : Block) : Block :=
  b.setTimer t { b.timer t with divRun := (b.timer t).div }

/-- `Wrap(t)` (41_timer.md R118): the divider load, then the channels in ascending order. -/
def Block.wrap (t : Fin Config.maxTimers) (b : Block) : Block :=
  Config.channelIds.foldl (Block.wrapChannel t) (b.loadDivider t)

/-- `Tick(t)` is enabled exactly when `T[t].run = Running` (41_timer.md R117). -/
def Block.tickEnabled (t : Fin Config.maxTimers) (b : Block) : Bool := (b.timer t).run == .running

/-- The tick at which the counter wraps: it stands at `2^res - 1` (41_timer.md R117). -/
def Block.atWrap (t : Fin Config.maxTimers) (b : Block) : Bool :=
  (b.timer t).cnt.toNat == (b.timer t).period - 1

/-- `Tick(t)` (41_timer.md R117), for a timer whose tick is enabled. -/
def Block.tick (t : Fin Config.maxTimers) (b : Block) : Block :=
  if b.atWrap t then (b.setTimer t { b.timer t with cnt := 0 }).wrap t
  else b.setTimer t { b.timer t with cnt := BitVec.ofNat 20 ((b.timer t).cnt.toNat + 1) }

end Sys2Proof.Machine
end

