-- ==== Sys2Proof/Machine/Channel.lean ====
section
/-! DEFINITION. The five channel commands (42_channel.md, section 1). -/

namespace Sys2Proof.Machine

/-- C_CONFIG (42_channel.md R130): all three duty registers take the initial duty at once, the output is enabled and
the FadeState is cleared; `INT_STATUS` is not touched. -/
def execCConfig (cid tid : Nat) (pin : PinId) (idle inten : Bool) (duty : Nat) (s : State) :
    Host.Outcome State Fault Refusal :=
  match channelIndex s.params cid with
  | none => raiseError .invalidArgument s
  | some c =>
    match timerIndex s.params tid with
    | none => raiseError .invalidArgument s
    | some t =>
      let T := s.block.timer t
      if !T.configured then raiseError .invalidArgument s
      else if T.period - 1 < duty then raiseError .invalidArgument s
      else
        let d : Duty := BitVec.ofNat 20 duty
        let b := s.block.setChannel c
          { s.block.channel c with
            cfg := true, en := true, tsel := t, pin := pin, idle := idle, inten := inten,
            dutyShadow := d, dutyActive := d, dutyWave := d }
        respond .ok 0 (b.fadeClear c) s

/-- C_SETDUTY (42_channel.md R131): only the shadow register is written. -/
def execCSetduty (cid duty : Nat) (s : State) : Host.Outcome State Fault Refusal :=
  match channelIndex s.params cid with
  | none => raiseError .invalidArgument s
  | some c =>
    let C := s.block.channel c
    if !C.cfg then raiseError .invalidArgument s
    else if s.block.maxDuty c < duty then raiseError .invalidArgument s
    else respond .ok 0 (s.block.setChannel c { C with dutyShadow := BitVec.ofNat 20 duty }) s

/-- C_GETDUTY (42_channel.md R132): the sentinel `DUTY_ERR` for an index out of range or an unconfigured channel. -/
def execCGetduty (cid : Nat) (s : State) : Host.Outcome State Fault Refusal :=
  match channelIndex s.params cid with
  | none => respond .ok s.params.dutyErr s.block s
  | some c =>
    let C := s.block.channel c
    if C.cfg then respond .ok (C.dutyActive.setWidth 32) s.block s
    else respond .ok s.params.dutyErr s.block s

/-- C_STOP (42_channel.md R133): accepted on an unconfigured channel too. -/
def execCStop (cid : Nat) (idle : Bool) (s : State) : Host.Outcome State Fault Refusal :=
  match channelIndex s.params cid with
  | none => raiseError .invalidArgument s
  | some c =>
    let b := s.block.setChannel c { s.block.channel c with en := false, idle := idle }
    respond .ok 0 (b.fadeClear c) s

/-- C_BIND (42_channel.md R134): no duty register and no fade field is altered. -/
def execCBind (cid tid : Nat) (s : State) : Host.Outcome State Fault Refusal :=
  match channelIndex s.params cid with
  | none => raiseError .invalidArgument s
  | some c =>
    let C := s.block.channel c
    if !C.cfg then raiseError .invalidArgument s
    else
      match timerIndex s.params tid with
      | none => raiseError .invalidArgument s
      | some t =>
        if !(s.block.timer t).configured then raiseError .invalidArgument s
        else respond .ok 0 (s.block.setChannel c { C with tsel := t }) s

end Sys2Proof.Machine
end

