-- ==== Sys2Proof/Machine/InterruptDispatcher.lean ====
section
/-! DEFINITION. InterruptDispatcher: INT_STATUS, INT_CLEAR, and the host side's `register`
(45_interrupt_dispatcher.md). -/

namespace Sys2Proof.Machine

/-- INT_STATUS (45_interrupt_dispatcher.md R175): the raw status bits; reading clears nothing. -/
def execIntStatus (s : State) : Host.Outcome State Fault Refusal :=
  respond .ok (s.block.intStatus.setWidth 32) s.block s

/-- One round of INT_CLEAR's loop: channel `c` is acknowledged if its mask bit is set
(45_interrupt_dispatcher.md R176). -/
def Block.clearRound (mask : Mask) (b : Block) (c : Fin Config.maxChannels) : Block :=
  if mask.getLsbD c.val then b.acknowledge c else b

/-- INT_CLEAR (45_interrupt_dispatcher.md R176): the loop over the channels in ascending order. -/
def execIntClear (mask : Mask) (s : State) : Host.Outcome State Fault Refusal :=
  respond .ok 0 (Config.channelIds.foldl (Block.clearRound mask) s.block) s

/-- `register(line, handler, context)` (45_interrupt_dispatcher.md R177): no command and no state of the block. It
answers `InvalidArgument` for a line the platform does not have or an absent handler, and then sets nothing. -/
def registerHandler (line : Nat) (handler : Option Nat) (context : Nat) (s : State) :
    Host.Outcome State Fault Refusal :=
  match handler with
  | none => .next { s with host := { s.host with registerResult := some .invalidArgument } }
  | some h =>
    if Config.platformHasLine line then
      .next { s with host := { s.host with
        registration := some { line := line, handler := h, context := context }, registerResult := some .ok } }
    else .next { s with host := { s.host with registerResult := some .invalidArgument } }

end Sys2Proof.Machine
end

