-- ==== Sys2Proof/Machine/ClockDivider.lean ====
section
/-! DEFINITION. ClockDivider: `compute_divider`, `reconstruct_freq` and DIVCALC (40_clock_divider.md). -/

namespace Sys2Proof.Machine

/-- `num/den` rounded to the nearest integer, a tie rounding up (40_clock_divider.md R101). -/
def roundHalfUp (num den : Nat) : Nat := (2 * num + den) / (2 * den)

/-- `compute_divider`; none is `NoValidDivider` (40_clock_divider.md R100, R102, R104). Exact integers throughout
(00_scope.md R6). -/
def computeDivider (p : Config.Params) (sourceFreq res targetFreq : Nat) : Option Nat :=
  if targetFreq = 0 then none
  else
    let d := roundHalfUp (sourceFreq * 2 ^ p.fracBits) (targetFreq * 2 ^ res)
    if d < 2 ^ p.fracBits then none
    else if 2 ^ p.divBits ≤ d then none
    else some d

/-- `reconstruct_freq`: the output frequency in Hz that a stored divider produces (40_clock_divider.md R106). -/
def reconstructFreq (p : Config.Params) (sourceFreq res divFx : Nat) : Nat :=
  roundHalfUp (sourceFreq * 2 ^ p.fracBits) (divFx * 2 ^ res)

/-- DIVCALC (40_clock_divider.md R107). The resolution is not range-checked. -/
def execDivcalc (res : Nat) (src : ClockSource) (freq : Nat) (s : State) : Host.Outcome State Fault Refusal :=
  match computeDivider s.params (srcFreq s.params src) res freq with
  | none => raiseError .noValidDivider s
  | some d => respond .ok (BitVec.ofNat 32 d) s.block s

end Sys2Proof.Machine
end

