-- ==== Sys2Proof/Machine/Timer.lean ====
section
/-! DEFINITION. The seven timer commands (41_timer.md, section 1). -/

namespace Sys2Proof.Machine

/-- The writes that T_CONFIG and T_SETRAW share (41_timer.md R110, R116): the counter starts a new period at once, and
this is no wrap. -/
def Block.configureTimer (b : Block) (t : Fin Config.maxTimers) (res : Nat) (src : ClockSource) (div : Nat) : Block :=
  b.setTimer t
    { run := .running, res := BitVec.ofNat 5 res, src := src, div := BitVec.ofNat 32 div,
      divRun := BitVec.ofNat 32 div, cnt := 0 }

/-- T_CONFIG (41_timer.md R110). -/
def execTConfig (tid res : Nat) (src : ClockSource) (freq : Nat) (s : State) : Host.Outcome State Fault Refusal :=
  match timerIndex s.params tid with
  | none => raiseError .invalidArgument s
  | some t =>
    if !resolutionInRange s.params res then raiseError .invalidArgument s
    else if freq = 0 then raiseError .invalidArgument s
    else
      match computeDivider s.params (srcFreq s.params src) res freq with
      | none => raiseError .noValidDivider s
      | some d => respond .ok 0 (s.block.configureTimer t res src d) s

/-- T_SETFREQ (41_timer.md R111): only `div` is written; `div_run` follows at the next wrap. -/
def execTSetfreq (tid freq : Nat) (s : State) : Host.Outcome State Fault Refusal :=
  match timerIndex s.params tid with
  | none => raiseError .invalidArgument s
  | some t =>
    let T := s.block.timer t
    if !T.configured then raiseError .invalidArgument s
    else if freq = 0 then raiseError .invalidArgument s
    else
      match computeDivider s.params (srcFreq s.params T.src) T.res.toNat freq with
      | none => raiseError .noValidDivider s
      | some d => respond .ok 0 (s.block.setTimer t { T with div := BitVec.ofNat 32 d }) s

/-- T_GETFREQ (41_timer.md R112): the sentinel 0 for an index out of range or a timer never configured. -/
def execTGetfreq (tid : Nat) (s : State) : Host.Outcome State Fault Refusal :=
  match timerIndex s.params tid with
  | none => respond .ok 0 s.block s
  | some t =>
    let T := s.block.timer t
    if T.configured then
      respond .ok (BitVec.ofNat 32 (reconstructFreq s.params (srcFreq s.params T.src) T.res.toNat T.div.toNat)) s.block s
    else respond .ok 0 s.block s

/-- T_RESET (41_timer.md R113): the counter is forced to 0 and the run state kept; this is no wrap. -/
def execTReset (tid : Nat) (s : State) : Host.Outcome State Fault Refusal :=
  match timerIndex s.params tid with
  | none => raiseError .invalidArgument s
  | some t => respond .ok 0 (s.block.setTimer t { s.block.timer t with cnt := 0 }) s

/-- T_PAUSE (41_timer.md R114). -/
def execTPause (tid : Nat) (s : State) : Host.Outcome State Fault Refusal :=
  match timerIndex s.params tid with
  | none => raiseError .invalidArgument s
  | some t =>
    respond .ok 0 (s.block.setTimer t { s.block.timer t with run := (s.block.timer t).run.afterPause }) s

/-- T_RESUME (41_timer.md R115). -/
def execTResume (tid : Nat) (s : State) : Host.Outcome State Fault Refusal :=
  match timerIndex s.params tid with
  | none => raiseError .invalidArgument s
  | some t =>
    respond .ok 0 (s.block.setTimer t { s.block.timer t with run := (s.block.timer t).run.afterResume }) s

/-- T_SETRAW (41_timer.md R116): a raw divider in place of a frequency. -/
def execTSetraw (tid res : Nat) (src : ClockSource) (div : Nat) (s : State) : Host.Outcome State Fault Refusal :=
  match timerIndex s.params tid with
  | none => raiseError .invalidArgument s
  | some t =>
    if !resolutionInRange s.params res then raiseError .invalidArgument s
    else if !dividerInRange s.params div then raiseError .invalidArgument s
    else respond .ok 0 (s.block.configureTimer t res src div) s

end Sys2Proof.Machine
end

