-- ==== Sys2Proof/Machine/Dispatch.lean ====
section
/-! DEFINITION. The meaning of each command, one arm per constructor of `Instr`. -/

namespace Sys2Proof.Machine

/-- The checks and writes of a command (00_scope.md R8), with its response in the next state. -/
def exec (i : Instr) (s : State) : Host.Outcome State Fault Refusal :=
  match i with
  | .divcalc res src freq => Sys2Proof.Machine.execDivcalc res src freq s
  | .tConfig tid res src freq => Sys2Proof.Machine.execTConfig tid res src freq s
  | .tSetfreq tid freq => Sys2Proof.Machine.execTSetfreq tid freq s
  | .tGetfreq tid => Sys2Proof.Machine.execTGetfreq tid s
  | .tReset tid => Sys2Proof.Machine.execTReset tid s
  | .tPause tid => Sys2Proof.Machine.execTPause tid s
  | .tResume tid => Sys2Proof.Machine.execTResume tid s
  | .tSetraw tid res src div => Sys2Proof.Machine.execTSetraw tid res src div s
  | .cConfig cid tid pin idle inten duty => Sys2Proof.Machine.execCConfig cid tid pin idle inten duty s
  | .cSetduty cid duty => Sys2Proof.Machine.execCSetduty cid duty s
  | .cGetduty cid => Sys2Proof.Machine.execCGetduty cid s
  | .cStop cid idle => Sys2Proof.Machine.execCStop cid idle s
  | .cBind cid tid => Sys2Proof.Machine.execCBind cid tid s
  | .commit cid => Sys2Proof.Machine.execCommit cid s
  | .fArm cid dir steps ticks scale start => Sys2Proof.Machine.execFArm cid dir steps ticks scale start s
  | .fCancel cid => Sys2Proof.Machine.execFCancel cid s
  | .intStatus => Sys2Proof.Machine.execIntStatus s
  | .intClear mask => Sys2Proof.Machine.execIntClear mask s

end Sys2Proof.Machine
end

