-- ==== Sys2Proof/Machine/Moves.lean ====
section
/-! DEFINITION. The moves of 70_reset_and_hazards.md R227, each one atomic step (20_memory.md R64, R67): a transaction
of either host context, a tick, a reset, `register`, the host's entry into and return from the handler, and the end of
the program of `Host.Main` (R229). -/

namespace Sys2Proof.Machine

/-- A transaction (20_memory.md R61): decode the word, run the command, give the response. A word that is no command
is answered `InvalidArgument` with value 0 and writes no state (30_encoding.md R92, R93). -/
def transact (w : Word) (s : State) : Host.Outcome State Fault Refusal :=
  match decode w with
  | .ok i => exec i s
  | .error _ => raiseError .invalidArgument s

/-- A transaction by one of the two contexts of the host: `Host.Main` issues nothing while `Host.Isr` runs, and
`Host.Isr` only while it runs (20_memory.md R72). The block does not know who issues a command (60_exceptions.md
R201). -/
def hostTransact (ctx : Config.HostContext) (w : Word) (s : State) : Host.Outcome State Fault Refusal :=
  match ctx with
  | .main =>
    if s.host.isrRunning then .refused .mainWhileIsrRuns
    else if s.host.mainEnded then .refused .mainHasEnded
    else transact w s
  | .isr => if s.host.isrRunning then transact w s else .refused .isrNotRunning

/-- The step `Tick(t)`, where it is enabled (41_timer.md R117). -/
def tickMove (t : Fin Config.maxTimers) (s : State) : Host.Outcome State Fault Refusal :=
  if s.block.tickEnabled t then .next (s.setBlock (s.block.tick t)) else .fault (.tickNotEnabled t)

/-- `Host.Main` has issued its last command and received its response (70_reset_and_hazards.md R229 a): the end of the
host's program, which the block does not see. -/
def endMain (s : State) : Host.Outcome State Fault Refusal :=
  if s.host.isrRunning then .refused .mainWhileIsrRuns
  else if s.host.mainEnded then .refused .mainHasEnded
  else .next { s with host := { s.host with mainEnded := true } }

/-- The `Reset` step: every field of the block at its reset value (70_reset_and_hazards.md R210). -/
def resetMove (s : State) : Host.Outcome State Fault Refusal := .next (s.setBlock Block.reset)

/-- One move of the environment. -/
def takeMove (m : Config.Move) (s : State) : Host.Outcome State Fault Refusal :=
  match m with
  | .command ctx w => hostTransact ctx w s
  | .tick t => tickMove t s
  | .reset => resetMove s
  | .register line handler context => registerHandler line handler context s
  | .enterIsr => enterInterrupt s
  | .leaveIsr => leaveInterrupt s
  | .endMain => endMain s

/-- The state in which a step makes its move: the queue is one shorter, the step counted, no response given yet. -/
def State.advance (s : State) : State :=
  { s with pending := s.pending.tail, steps := s.steps + 1, response := none }

/-- One step on the next queued move. With an empty queue the environment is free (93_implementation_defined.md U11,
log entry 3): it makes the drawn move if that is one the machine admits, and else nothing happens. -/
def takeNextMove (s : State) : Host.Outcome State Fault Refusal :=
  match s.pending with
  | m :: _ => takeMove m s.advance
  | [] =>
    match takeMove (Config.freeMove s.steps) s.advance with
    | .next t => .next t
    | .fault _ => .next s.advance
    | .refused _ => .next s.advance

/-- The context that may issue a transaction now (20_memory.md R72). -/
def State.issuer (s : State) : Config.HostContext := if s.host.isrRunning then .isr else .main

/-- The machine with the word `w` queued as the very next transaction; where that is one of `Host.Main`, its program
has not ended yet. -/
def State.queueWord (w : Word) (s : State) : State :=
  { s with
    pending := .command s.issuer w :: s.pending
    host := { s.host with mainEnded := s.host.mainEnded && s.host.isrRunning } }

end Sys2Proof.Machine
end

