-- ==== Sys2Proof/Machine/Step.lean ====
section
/-! DEFINITION. One step of the machine, and where the host places the word that the next step runs. -/

namespace Sys2Proof.Machine

/-- One atomic step (20_memory.md R67). -/
def step (s : State) : Host.Outcome State Fault Refusal := takeNextMove s

/-- `s` with the command word of these bits queued as the next transaction, so that the next step runs it. The block
has no program: commands run in the order the host presents them (10_state.md R30). -/
def State.withFetchWord (s : State) (nbits w : Nat) : State := s.queueWord (wordOfTable nbits w)

end Sys2Proof.Machine
end

