-- ==== Sys2Proof/Machine/Output.lean ====
section
/-! DEFINITION. The outputs, which are functions of the state (10_state.md R29): the level `out[c]` of each channel
(42_channel.md R135, R137); and the one timing relation of the spec (70_reset_and_hazards.md R225). The line `irq` is
in Flags.lean. -/

namespace Sys2Proof.Machine

/-- The latched duty of channel `c` is in the range of its bound timer (42_channel.md R137). -/
def Block.waveInRange (b : Block) (c : Fin Config.maxChannels) : Bool :=
  decide ((b.channel c).dutyWave.toNat ≤ b.maxDuty c)

/-- `out[c]` by the formula of 42_channel.md R135, applied as written in every state. -/
def Block.outAsWritten (b : Block) (c : Fin Config.maxChannels) : Bool :=
  if (b.channel c).en then decide ((b.boundTimer c).cnt.toNat < (b.channel c).dutyWave.toNat)
  else (b.channel c).idle

/-- `out[c]`: the formula of R135 wherever the latched duty is in range; for an enabled channel whose latched duty is
out of range a free value, the treatment `any value` of 93_implementation_defined.md U2, which R137 offers (log
entry 5). -/
def State.out (s : State) (c : Fin Config.maxChannels) : Bool :=
  if (s.block.channel c).en && !s.block.waveInRange c then Config.freeOut s.steps c else s.block.outAsWritten c

/-- The length of the current PWM period of a timer in units of `1 / 2^FRAC_BITS` cycles of its clock source:
`2^res * div_run` (70_reset_and_hazards.md R225). Timing information only: no step reads it. -/
def Timer.periodCycles (T : Timer) : Nat := T.period * T.divRun.toNat

/-- The output frequency in effect is the exact ratio `src_freq * 2^FRAC_BITS / (div_run * 2^res)` Hz, given here as
numerator and denominator (70_reset_and_hazards.md R225). -/
def Timer.runningFreq (p : Config.Params) (T : Timer) : Nat × Nat :=
  (srcFreq p T.src * 2 ^ p.fracBits, T.periodCycles)

end Sys2Proof.Machine
end

