-- ==== Sys2Proof/Safety.lean ====
section
/-! DEFINITION. What claims are stated in terms of: the invariants of 10_state.md R23, R25 and R27, the software-visible
part of the state (R31), the launch premises, the settled state, the end of a run and its end state
(70_reset_and_hazards.md R228, R229), the handler contract (45_interrupt_dispatcher.md R178), and what a transaction
leaves unchanged. -/

namespace Sys2Proof.Machine

/-! ### The shape of a block with given parameters (00_scope.md R4, R6) -/

/-- Every register of the timer slot fits the width that the parameters give it (10_state.md R21). -/
abbrev Timer.Fits (p : Config.Params) (T : Timer) : Prop :=
  T.div.toNat < 2 ^ p.divBits ∧ T.divRun.toNat < 2 ^ p.divBits ∧ T.cnt.toNat < 2 ^ p.dutyBits

/-- Every register of the channel slot fits the width that the parameters give it, and the bound timer of a configured
channel exists (10_state.md R24, R26); `tsel` of an unconfigured one is any 4-bit value. -/
abbrev Channel.Fits (p : Config.Params) (C : Channel) : Prop :=
  (C.cfg = true → C.tsel.val < p.numTimers) ∧ C.dutyShadow.toNat < 2 ^ p.dutyBits ∧ C.dutyActive.toNat < 2 ^ p.dutyBits ∧
  C.dutyWave.toNat < 2 ^ p.dutyBits ∧ C.fade.fsStart.toNat < 2 ^ p.dutyBits

/-- The block is one of the machine with these parameters: every value fits its register, and where no slot stands
there is the reset value and no status bit (10_state.md R20, R28). -/
abbrev Block.Fits (p : Config.Params) (b : Block) : Prop :=
  (∀ t, (b.timer t).Fits p ∧ (p.numTimers ≤ t.val → b.timer t = Timer.reset)) ∧
  (∀ c, (b.channel c).Fits p ∧
    (p.numChannels ≤ c.val → b.channel c = Channel.reset ∧ b.pendingBit c = false))

/-! ### Invariants -/

/-- The invariant of a timer slot (10_state.md R23): ranges while configured, reset values otherwise. -/
abbrev Timer.Ok (p : Config.Params) (T : Timer) : Prop :=
  (T.run ≠ .reset →
    p.resMin ≤ T.res.toNat ∧ T.res.toNat ≤ p.resMax ∧
    2 ^ p.fracBits ≤ T.div.toNat ∧ T.div.toNat < 2 ^ p.divBits ∧
    2 ^ p.fracBits ≤ T.divRun.toNat ∧ T.divRun.toNat < 2 ^ p.divBits ∧ T.cnt.toNat < T.period) ∧
  (T.run = .reset → T = Timer.reset)

/-- The invariant of a channel's fade (10_state.md R27). -/
abbrev Channel.FadeOk (C : Channel) : Prop :=
  (C.fade.fstate = .running →
    1 ≤ C.fade.stepsRem.toNat ∧ 1 ≤ C.fade.faTicks.toNat ∧ C.fade.tickCnt.toNat < C.fade.faTicks.toNat) ∧
  (C.fade.fstate = .armed → 1 ≤ C.fade.fsSteps.toNat ∧ 1 ≤ C.fade.fsTicks.toNat) ∧
  (C.fade.fstate = .idle → C.fade = Fade.cleared) ∧
  (C.fade.fstate ≠ .idle → C.cfg = true)

/-- The invariants that a launch state meets (70_reset_and_hazards.md R228): R23 and R27 of 10_state.md, on a block with
these parameters. -/
abbrev Block.LaunchOk (p : Config.Params) (b : Block) : Prop :=
  b.Fits p ∧ (∀ t, (b.timer t).Ok p) ∧ (∀ c, (b.channel c).FadeOk)

/-- The duty registers of every configured channel are in range (10_state.md R25). The block keeps this only as far as
its own checks go; a claim that needs it adds it to the launch premises (70_reset_and_hazards.md R228). -/
abbrev Block.DutiesInRange (b : Block) : Prop :=
  ∀ c, (b.channel c).cfg = true →
    (b.channel c).dutyShadow.toNat ≤ b.maxDuty c ∧ (b.channel c).dutyActive.toNat ≤ b.maxDuty c ∧
    (b.channel c).dutyWave.toNat ≤ b.maxDuty c

/-- What else holds of every block that a run from reset reaches: an unconfigured slot is at its reset values but for
the idle level that C_STOP may have set (R32, 92_eei_decisions.md D22), no ramp counter runs outside a ramp, a
configured channel is bound to a configured timer (D23), and the status bit of a Completed fade is set
(45_interrupt_dispatcher.md R176 case e). No launch premise. -/
abbrev Block.Inv (p : Config.Params) (b : Block) : Prop :=
  b.LaunchOk p ∧
  (∀ c, (b.channel c).cfg = false → b.channel c = { Channel.reset with idle := (b.channel c).idle }) ∧
  (∀ c, (b.channel c).fade.fstate ≠ .running → (b.channel c).fade.stepsRem = 0 ∧ (b.channel c).fade.tickCnt = 0) ∧
  (∀ c, (b.channel c).cfg = true → (b.boundTimer c).configured = true) ∧
  (∀ c, (b.channel c).fade.fstate = .completed → b.pendingBit c = true)

/-! ### What no command reads (10_state.md R31) -/

/-- A timer slot with the fields that no command reads set to 0. -/
def Timer.readable (T : Timer) : Timer := { T with divRun := 0, cnt := 0 }

/-- A channel slot with the fields that no command reads set to 0. -/
def Channel.readable (C : Channel) : Channel :=
  { C with
    dutyWave := 0
    fade := { C.fade with faDir := .decrease, faTicks := 0, faScale := 0, stepsRem := 0, tickCnt := 0 } }

/-- The two blocks agree on every field that some command reads. -/
abbrev Block.AgreesOnReadable (a b : Block) : Prop :=
  (∀ t, (a.timer t).readable = (b.timer t).readable) ∧
  (∀ c, (a.channel c).readable = (b.channel c).readable) ∧ a.intStatus = b.intStatus

/-! ### Launch, settled state, end of a run -/

/-- The launch premises of 70_reset_and_hazards.md R228: the parameters meet their constraints, the invariants of R23
and R27 hold, and `Host.Isr` runs only with a handler registered (93_implementation_defined.md U16). That no transaction
is in progress holds of every state (20_memory.md R64); that the block is clocked and out of reset has no representation
(R212). A launch need not meet `Block.DutiesInRange`. -/
abbrev State.launchable (s : State) : Prop :=
  s.params.Valid ∧ s.block.LaunchOk s.params ∧ (s.host.isrRunning = true → s.host.registration ≠ none)

/-- The settled state (70_reset_and_hazards.md R229 c). -/
abbrev Block.Settled (b : Block) : Prop :=
  (∀ c, (b.channel c).fade.fstate ≠ .armed ∧ (b.channel c).fade.fstate ≠ .running) ∧
  b.irq = false ∧
  (∀ c, (b.channel c).cfg = true → (b.boundTimer c).run = .running →
    (b.channel c).dutyWave = (b.channel c).dutyActive) ∧
  (∀ t, (b.timer t).run = .running → (b.timer t).divRun = (b.timer t).div)

/-- A run is over (70_reset_and_hazards.md R229): (a) `Host.Main` has issued its last command and received its response,
(b) `Host.Isr` is not running, and (c) the block is settled. The block itself never halts. -/
abbrev State.runOver (s : State) : Prop :=
  s.host.mainEnded = true ∧ s.host.isrRunning = false ∧ s.block.Settled

/-- A block with the counters left out. -/
def Block.withoutCounters (b : Block) : Block := { b with timers := b.timers.map fun T => { T with cnt := 0 } }

/-- The end state of a run that is over: the settled block with the counters left out (70_reset_and_hazards.md R229). -/
def State.endState (s : State) : Block := s.block.withoutCounters

/-! ### The handler contract (45_interrupt_dispatcher.md R178) -/

/-- The set of channels that a handler which read the value `v` identifies and forwards (R178 step 2). -/
def completedChannels (v : Value) : List (Fin Config.maxChannels) :=
  Config.channelIds.filter fun c => v.getLsbD c.val

/-- The mask clears only bits that were read, never a superset (R178 step 3). -/
abbrev KeepsHandlerContract (v : Value) (mask : Mask) : Prop := mask.setWidth 32 &&& ~~~ v = 0

/-! ### Runs of moves and of commands -/

/-- The move that the next step of `s` makes, or, with an empty queue, the one that the free environment draws. -/
def State.drawnMove (s : State) : Config.Move := s.pending.headD (Config.freeMove s.steps)

/-- The next step of `s` is a transaction of this command, whichever context of the host issues it. -/
abbrev State.Issues (s : State) (i : Instr) : Prop := ∃ ctx w, s.drawnMove = .command ctx w ∧ decode w = .ok i

/-- The next step of `s` is a tick of timer `t` that wraps its counter. -/
abbrev State.Wraps (s : State) (t : Fin Config.maxTimers) : Prop := s.drawnMove = .tick t ∧ s.block.atWrap t = true

/-- The state in which the step on the first of the queued moves `m :: rest` makes that move. -/
def State.dequeued (s : State) (rest : List Config.Move) : State :=
  { s with pending := rest, steps := s.steps + 1, response := none }

/-- Commands executed one after the other, stopping at the first that gives no next state. -/
def execAll : List Instr → State → Host.Outcome State Fault Refusal
  | [], s => .next s
  | i :: is, s =>
    match exec i s with
    | .next u => execAll is u
    | .fault r => .fault r
    | .refused r => .refused r

/-! ### Frames -/

/-- Everything around the block that no transaction writes: the host agent, the queue, the step counter, the
parameters. -/
abbrev SameSurroundings (s u : State) : Prop :=
  u.host = s.host ∧ u.pending = s.pending ∧ u.steps = s.steps ∧ u.params = s.params

/-- Every timer slot but `t` is unchanged. -/
abbrev SameTimersBut (t : Fin Config.maxTimers) (a b : Block) : Prop := ∀ t', t' ≠ t → b.timer t' = a.timer t'

/-- Every channel slot but `c` is unchanged. -/
abbrev SameChannelsBut (c : Fin Config.maxChannels) (a b : Block) : Prop := ∀ c', c' ≠ c → b.channel c' = a.channel c'

/-- Of the machine only timer slot `t` (and the response) has changed. -/
abbrev OnlyTimerChanged (t : Fin Config.maxTimers) (s u : State) : Prop :=
  SameTimersBut t s.block u.block ∧ u.block.channels = s.block.channels ∧
  u.block.intStatus = s.block.intStatus ∧ SameSurroundings s u

/-- Of the machine only channel slot `c` (and the response) has changed. -/
abbrev OnlyChannelChanged (c : Fin Config.maxChannels) (s u : State) : Prop :=
  SameChannelsBut c s.block u.block ∧ u.block.timers = s.block.timers ∧
  u.block.intStatus = s.block.intStatus ∧ SameSurroundings s u

/-- The command is answered with this status and value, and nothing else of the machine changes. -/
abbrev AnswersUnchanged (i : Instr) (s : State) (st : Status) (value : Value) : Prop :=
  exec i s = .next { s with response := some (responseWord st value) }

end Sys2Proof.Machine
end

