-- ==== Sys2Proof/Certificates/Slice0/Obligations.lean ====
section
/-! DEFINITION. The statements about the model, for the provers. Each says in its docstring which rule of the spec it
formalises, or which choice of the model it is about. -/

section

open Sys2Proof Sys2Proof.Machine

/-! ### Encoding (30_encoding.md) -/

/-- R80 to R91: decoding the word of any well-formed command gives the command back, every operand at every value its
field admits. -/
def Obligations.DecodeOfEncodeIsTheCommand : Prop :=
  ∀ i : Instr, i.wf = true → decode (encode i) = .ok i

/-- R80 to R93: a word that decodes has one meaning only: the command it decodes to is well formed and encodes back to
that very word. -/
def Obligations.DecodedWordEncodesBack : Prop :=
  ∀ (w : Word) (i : Instr), decode w = .ok i → i.wf = true ∧ encode i = w

/-- R91: a word decodes to a row of the opcode table exactly when `(W & mask) = match`, and no word to two rows. -/
def Obligations.DecoderAgreesWithMatchAndMask : Prop :=
  ∀ (w : Word) (op : Opcode), (∃ i, decode w = .ok i ∧ i.opcode = op) ↔ w &&& op.maskWord = op.matchWord

/-- A few words written out bit by bit from 30_encoding.md decode to the commands they stand for (a sanity check on
fixed words: 96_test_vectors_part2.md, section 2.7). -/
def Obligations.WrittenOutWordsDecode : Prop :=
  decode 0x1037C00012345678 = .ok (.tConfig 3 15 .busClk 305419896) ∧
  decode 0x2073A58000007FFF = .ok (.cConfig 7 3 165 true false 32767) ∧
  decode 0x407BFF0000000000 = .ok (.fArm 7 .increase 1023 0 0 0) ∧
  decode 0x4070000000 = .error (.reservedOpcode 0) ∧
  decode 0x2300010000000000 = .error (.mustBeZero .cStop)

/-- 20_memory.md R62: a word serialised into bytes, little-endian, decodes as the word does. That any other number of
bytes is answered `notOneWord` is the model's choice of log entry 15: R62 says that a word is presented whole or not at
all and gives no answer to a part of one. -/
def Obligations.SerialisedWordDecodesAlike : Prop :=
  (∀ w : Word, decodeBytes (bytesOfWord w) = decode w) ∧
  (∀ bs : List Byte, bs.length ≠ 8 → decodeBytes bs = .error (.notOneWord bs.length))

/-- R92: 238 of the 256 opcode values are reserved, and a word with a reserved opcode, the all-zero and the all-ones
words among them, is answered `InvalidArgument` with value 0 and writes no state. -/
def Obligations.ReservedOpcodeIsAnsweredInvalidArgument : Prop :=
  (List.range 256).countP (fun n => Opcode.all.all fun op => op.code != n) = 238 ∧
  (∀ op : Opcode, op.code ≠ 0x00 ∧ op.code ≠ 0xFF) ∧
  (∀ (w : Word) (s : State), (∀ op : Opcode, op.code ≠ field w 63 56) →
    transact w s = .next { s with response := some (responseWord .invalidArgument 0) }) ∧
  (∀ s : State, transact 0 s = .next { s with response := some (responseWord .invalidArgument 0) }) ∧
  (∀ s : State, transact (BitVec.allOnes 64) s =
    .next { s with response := some (responseWord .invalidArgument 0) })

/-- R93: a word with a defined opcode and a 1 in any must-be-zero bit of its format is answered `InvalidArgument` with
value 0 and writes no state, whatever the command's own checks would say, the queries too. -/
def Obligations.MustBeZeroBitIsAnsweredInvalidArgument : Prop :=
  ∀ (w : Word) (s : State) (op : Opcode) (k : Nat),
    field w 63 56 = op.code → k < 56 → op.maskWord.getLsbD k = true → w.getLsbD k = true →
      transact w s = .next { s with response := some (responseWord .invalidArgument 0) }

/-! ### Steps (20_memory.md, 70_reset_and_hazards.md) -/

/-- 20_memory.md R61, R67, R72: a step on a queued transaction of the context that may issue one (`Host.Isr` while it
runs, else `Host.Main` before its last command) runs the decoded command on the state without that move; a word that is
no command is answered `InvalidArgument`. -/
def Obligations.StepRunsTheDecodedCommand : Prop :=
  ∀ (s : State) (ctx : Config.HostContext) (w : Word) (rest : List Config.Move),
    s.pending = .command ctx w :: rest → (ctx = .isr ↔ s.host.isrRunning = true) →
    (ctx = .main → s.host.mainEnded = false) →
      (∀ i, decode w = .ok i → step s = exec i (s.dequeued rest)) ∧
      (∀ e, decode w = .error e →
        step s = .next { s.dequeued rest with response := some (responseWord .invalidArgument 0) })

/-- 20_memory.md R61: a transaction always completes, with a status and a value, and touches nothing but the block and
the response. R189 (the two sentences on success and failure): where the status is not Ok the value is 0 and the block
unchanged. 30_encoding.md R90: the response word has the status code in `R[63:56]`, 0 in `R[55:32]` and the value in
`R[31:0]`; the codes are 0, 1 and 2; the value is 0 but for the four queries. -/
def Obligations.EveryTransactionCompletes : Prop :=
  (∀ (w : Word) (s : State), ∃ (b : Block) (st : Status) (v : Value),
    transact w s = .next { s with block := b, response := some (responseWord st v) } ∧
    (st ≠ .ok → v = 0 ∧ b = s.block) ∧
    (v ≠ 0 → ∃ i, decode w = .ok i ∧ i.opcode ∈ [.divcalc, .tGetfreq, .cGetduty, .intStatus])) ∧
  (∀ (st : Status) (v : Value),
    field (responseWord st v) 63 56 = (match st with | .ok => 0 | .invalidArgument => 1 | .noValidDivider => 2) ∧
    field (responseWord st v) 55 32 = 0 ∧
    field (responseWord st v) 31 0 = v.toNat)

/-- R189: if the response status of a command is not Ok, the block after the command equals the block before it; the
converse does not hold, as T_PAUSE on a paused timer and COMMIT on a channel whose fade is Running succeed without
changing the block. -/
def Obligations.RejectedCommandChangesNothing : Prop :=
  (∀ (i : Instr) (s u : State), exec i s = .next u →
    (∀ v : Value, u.response ≠ some (responseWord .ok v)) → u.block = s.block) ∧
  (∀ (s : State) (t : Fin Config.maxTimers), t.val < s.params.numTimers → (s.block.timer t).run = .paused →
    exec (.tPause t) s = .next { s with response := some (responseWord .ok 0) }) ∧
  (∀ (s : State) (c : Fin Config.maxChannels), c.val < s.params.numChannels →
    (s.block.channel c).cfg = true → (s.block.channel c).fade.fstate = .running →
      exec (.commit c) s = .next { s with response := some (responseWord .ok 0) })

/-- R117, R118: `Tick(t)` of a timer that is not Running does not exist (the model stops there: log entry 4); of a
Running timer it advances the counter by one, and from `2^res - 1` it puts the counter to 0 and performs `Wrap(t)`, which
loads `div_run` and the latch of every bound channel. Every other timer keeps its value. -/
def Obligations.TickAdvancesOrWraps : Prop :=
  ∀ (s : State) (t : Fin Config.maxTimers) (rest : List Config.Move), s.pending = .tick t :: rest →
    ((s.block.timer t).run ≠ .running → step s = .fault (.tickNotEnabled t)) ∧
    ((s.block.timer t).run = .running →
      (s.block.timer t).cnt.toNat ≠ 2 ^ (s.block.timer t).res.toNat - 1 →
        ∃ u, step s = .next u ∧
          u.block.timer t =
            { s.block.timer t with cnt := BitVec.ofNat 20 ((s.block.timer t).cnt.toNat + 1) } ∧
          OnlyTimerChanged t (s.dequeued rest) u) ∧
    ((s.block.timer t).run = .running →
      (s.block.timer t).cnt.toNat = 2 ^ (s.block.timer t).res.toNat - 1 →
        ∃ u, step s = .next u ∧
          u.block = (s.block.setTimer t { s.block.timer t with cnt := 0 }).wrap t ∧
          u.block.timer t = { s.block.timer t with cnt := 0, divRun := (s.block.timer t).div } ∧
          SameTimersBut t s.block u.block ∧ SameSurroundings (s.dequeued rest) u ∧
          ∀ c, (s.block.channel c).cfg = true → (s.block.channel c).tsel = t →
            (u.block.channel c).dutyWave = (u.block.channel c).dutyActive)

/-- R210, R32: the `Reset` step puts every field of every slot and `INT_STATUS` at its reset value; after it every
output is 0 and `irq` is 0. -/
def Obligations.ResetStepRestoresEveryField : Prop :=
  ∀ (s : State) (rest : List Config.Move), s.pending = .reset :: rest →
    ∃ u, step s = .next u ∧
      (∀ t, u.block.timer t =
        { run := .reset, res := 0, src := .refTick, div := 0, divRun := 0, cnt := 0 }) ∧
      (∀ c, u.block.channel c =
        { cfg := false, en := false, tsel := 0, pin := 0, idle := false, inten := false,
          dutyShadow := 0, dutyActive := 0, dutyWave := 0,
          fade := { fstate := .idle, fsStart := 0, fsDir := .decrease, fsSteps := 0, fsTicks := 0, fsScale := 0,
                    faDir := .decrease, faTicks := 0, faScale := 0, stepsRem := 0, tickCnt := 0 } }) ∧
      u.block.intStatus = 0 ∧ (∀ c, u.out c = false) ∧ u.block.irq = false

/-- The model's choice of log entry 3 (93_implementation_defined.md U11): with no move queued the environment is free,
and a step always gives a next state, one step further. -/
def Obligations.EmptyQueueNeverStops : Prop :=
  ∀ s : State, s.pending = [] → ∃ u, step s = .next u ∧ u.steps = s.steps + 1 ∧ u.params = s.params

/-! ### ClockDivider (40_clock_divider.md) -/

/-- R100 to R102: `compute_divider` gives `d` exactly when the target is not 0, `d` is the quotient `num/den` rounded to
nearest with ties up (`d - 1/2 <= num/den < d + 1/2`), and `d` lies in `2^FRAC_BITS .. 2^DIV_BITS - 1`. -/
def Obligations.ComputeDividerIsTheRoundedQuotient : Prop :=
  ∀ (p : Config.Params) (source res target d : Nat), computeDivider p source res target = some d ↔
    target ≠ 0 ∧ 2 ^ p.fracBits ≤ d ∧ d ≤ 2 ^ p.divBits - 1 ∧
    2 * d * (target * 2 ^ res) ≤ 2 * (source * 2 ^ p.fracBits) + target * 2 ^ res ∧
    2 * (source * 2 ^ p.fracBits) + target * 2 ^ res < 2 * (d + 1) * (target * 2 ^ res)

/-- R104: a target frequency of 0 has no divider, and T_CONFIG and T_SETFREQ reject it first, as `InvalidArgument`. -/
def Obligations.ZeroTargetFrequencyIsRejected : Prop :=
  (∀ (p : Config.Params) (source res : Nat), computeDivider p source res 0 = none) ∧
  (∀ (tid res : Nat) (src : ClockSource) (s : State), AnswersUnchanged (.tConfig tid res src 0) s .invalidArgument 0) ∧
  (∀ (tid : Nat) (s : State), AnswersUnchanged (.tSetfreq tid 0) s .invalidArgument 0)

/-- R106: the frequency of a stored divider is the exact quotient rounded to nearest with ties up, and it fits the 32
bits of a response for every configured timer. -/
def Obligations.ReconstructedFrequencyIsRoundedAndFits : Prop :=
  (∀ (p : Config.Params) (source res div : Nat), 1 ≤ div →
    2 * reconstructFreq p source res div * (div * 2 ^ res) ≤ 2 * (source * 2 ^ p.fracBits) + div * 2 ^ res ∧
    2 * (source * 2 ^ p.fracBits) + div * 2 ^ res < 2 * (reconstructFreq p source res div + 1) * (div * 2 ^ res)) ∧
  (∀ (s : State) (t : Fin Config.maxTimers), s.params.Valid → (s.block.timer t).Ok s.params →
    (s.block.timer t).run ≠ .reset →
    reconstructFreq s.params (srcFreq s.params (s.block.timer t).src) (s.block.timer t).res.toNat (s.block.timer t).div.toNat
      < 2 ^ 32)

/-- R108: if a divider `d` is found for a target of at least 1 Hz, the exact frequency of `d` differs from the target by
at most `target / (2d)`, the reconstructed one by at most `target / (2d) + 1/2`, and it is at least 1. -/
def Obligations.DividerRoundTripErrorIsBounded : Prop :=
  ∀ (p : Config.Params) (source res target d : Nat), computeDivider p source res target = some d →
    2 * (source * 2 ^ p.fracBits) ≤ 2 * (target * (d * 2 ^ res)) + target * 2 ^ res ∧
    2 * (target * (d * 2 ^ res)) ≤ 2 * (source * 2 ^ p.fracBits) + target * 2 ^ res ∧
    2 * d * reconstructFreq p source res d ≤ 2 * d * target + target + d ∧
    2 * d * target ≤ 2 * d * reconstructFreq p source res d + target + d ∧
    1 ≤ reconstructFreq p source res d

/-- R107: DIVCALC answers the computed divider, or `NoValidDivider`, and writes nothing. -/
def Obligations.DivcalcAnswersTheDivider : Prop :=
  ∀ (res : Nat) (src : ClockSource) (freq : Nat) (s : State),
    (∀ d, computeDivider s.params (srcFreq s.params src) res freq = some d →
      exec (.divcalc res src freq) s = .next { s with response := some (responseWord .ok (BitVec.ofNat 32 d)) }) ∧
    (computeDivider s.params (srcFreq s.params src) res freq = none →
      exec (.divcalc res src freq) s = .next { s with response := some (responseWord .noValidDivider 0) })

/-! ### Timer commands (41_timer.md) -/

/-- R110: T_CONFIG rejects a bad index, resolution or a zero frequency as `InvalidArgument` and an unrepresentable
divider as `NoValidDivider`; else it writes all six fields of the one timer, from any run state, and nothing else. -/
def Obligations.TConfigConfiguresOneTimer : Prop :=
  ∀ (tid res : Nat) (src : ClockSource) (freq : Nat) (s : State),
    (s.params.numTimers ≤ tid ∨ res < s.params.resMin ∨ s.params.resMax < res ∨ freq = 0 →
      AnswersUnchanged (.tConfig tid res src freq) s .invalidArgument 0) ∧
    (∀ t : Fin Config.maxTimers, tid = t → t.val < s.params.numTimers → s.params.resMin ≤ res → res ≤ s.params.resMax →
      freq ≠ 0 → computeDivider s.params (srcFreq s.params src) res freq = none →
        AnswersUnchanged (.tConfig tid res src freq) s .noValidDivider 0) ∧
    (∀ (t : Fin Config.maxTimers) (d : Nat), tid = t → t.val < s.params.numTimers → s.params.resMin ≤ res →
      res ≤ s.params.resMax → freq ≠ 0 → computeDivider s.params (srcFreq s.params src) res freq = some d →
        ∃ u, exec (.tConfig tid res src freq) s = .next u ∧ u.response = some (responseWord .ok 0) ∧
          u.block.timer t =
            { run := .running, res := BitVec.ofNat 5 res, src := src, div := BitVec.ofNat 32 d,
              divRun := BitVec.ofNat 32 d, cnt := 0 } ∧
          OnlyTimerChanged t s u)

/-- R111: T_SETFREQ rejects a bad index, a timer never configured or a zero frequency as `InvalidArgument`, and an
unrepresentable divider as `NoValidDivider`; else it writes `div` alone. -/
def Obligations.TSetfreqWritesTheStoredDividerOnly : Prop :=
  ∀ (freq : Nat) (s : State),
    (∀ tid, s.params.numTimers ≤ tid → AnswersUnchanged (.tSetfreq tid freq) s .invalidArgument 0) ∧
    (∀ t : Fin Config.maxTimers, (s.block.timer t).run = .reset ∨ freq = 0 →
      AnswersUnchanged (.tSetfreq t freq) s .invalidArgument 0) ∧
    (∀ t : Fin Config.maxTimers, t.val < s.params.numTimers → (s.block.timer t).run ≠ .reset → freq ≠ 0 →
      computeDivider s.params (srcFreq s.params (s.block.timer t).src) (s.block.timer t).res.toNat freq = none →
        AnswersUnchanged (.tSetfreq t freq) s .noValidDivider 0) ∧
    (∀ (t : Fin Config.maxTimers) (d : Nat), t.val < s.params.numTimers → (s.block.timer t).run ≠ .reset → freq ≠ 0 →
      computeDivider s.params (srcFreq s.params (s.block.timer t).src) (s.block.timer t).res.toNat freq = some d →
        ∃ u, exec (.tSetfreq t freq) s = .next u ∧ u.response = some (responseWord .ok 0) ∧
          u.block.timer t = { s.block.timer t with div := BitVec.ofNat 32 d } ∧ OnlyTimerChanged t s u)

/-- R112: T_GETFREQ answers the frequency reconstructed from `src`, `res` and `div` for a configured timer, Running or
Paused, and the sentinel 0 for a timer never configured or an index out of range; it writes nothing and never errs. -/
def Obligations.TGetfreqAnswersFrequencyOrZero : Prop :=
  ∀ s : State,
    (∀ tid, s.params.numTimers ≤ tid →
      exec (.tGetfreq tid) s = .next { s with response := some (responseWord .ok 0) }) ∧
    (∀ t : Fin Config.maxTimers, (s.block.timer t).run = .reset →
      exec (.tGetfreq t) s = .next { s with response := some (responseWord .ok 0) }) ∧
    (∀ t : Fin Config.maxTimers, t.val < s.params.numTimers → (s.block.timer t).run ≠ .reset →
      exec (.tGetfreq t) s = .next { s with response := some (responseWord .ok (BitVec.ofNat 32
        (reconstructFreq s.params (srcFreq s.params (s.block.timer t).src) (s.block.timer t).res.toNat
          (s.block.timer t).div.toNat))) })

/-- R113: T_RESET forces the counter of the one timer to 0 in any run state and writes nothing else: no wrap, so no
channel, `div_run` or status bit changes. Only an index out of range is rejected. Its word is opcode 0x13 with the timer
index in `W[55:52]`. -/
def Obligations.TResetZeroesTheCounterOnly : Prop :=
  (∀ tid : BitVec 4, decode ((0x13 : BitVec 8) ++ tid ++ (0 : BitVec 52)) = .ok (.tReset tid.toNat)) ∧
  ∀ s : State,
    (∀ tid, s.params.numTimers ≤ tid → AnswersUnchanged (.tReset tid) s .invalidArgument 0) ∧
    (∀ t : Fin Config.maxTimers, t.val < s.params.numTimers →
      ∃ u, exec (.tReset t) s = .next u ∧ u.response = some (responseWord .ok 0) ∧
        u.block.timer t = { s.block.timer t with cnt := 0 } ∧ OnlyTimerChanged t s u)

/-- R114, R115: T_PAUSE takes a Running timer to Paused and T_RESUME a Paused one to Running, every other field kept;
in any other run state they succeed and change nothing. Only an index out of range is rejected. -/
def Obligations.TPauseAndTResumeMoveTheRunState : Prop :=
  ∀ s : State,
    (∀ tid, s.params.numTimers ≤ tid →
      AnswersUnchanged (.tPause tid) s .invalidArgument 0 ∧ AnswersUnchanged (.tResume tid) s .invalidArgument 0) ∧
    (∀ t : Fin Config.maxTimers, t.val < s.params.numTimers →
      ∃ u, exec (.tPause t) s = .next u ∧ u.response = some (responseWord .ok 0) ∧
        u.block.timer t = { s.block.timer t with
          run := if (s.block.timer t).run = .running then .paused else (s.block.timer t).run } ∧
        OnlyTimerChanged t s u) ∧
    (∀ t : Fin Config.maxTimers, t.val < s.params.numTimers →
      ∃ u, exec (.tResume t) s = .next u ∧ u.response = some (responseWord .ok 0) ∧
        u.block.timer t = { s.block.timer t with
          run := if (s.block.timer t).run = .paused then .running else (s.block.timer t).run } ∧
        OnlyTimerChanged t s u)

/-- R116: T_SETRAW rejects a bad index, resolution or raw divider as `InvalidArgument`; else it writes all six fields of
the one timer as T_CONFIG does with that divider, and nothing else. -/
def Obligations.TSetrawLoadsTheRawDivider : Prop :=
  ∀ (tid res : Nat) (src : ClockSource) (div : Nat) (s : State),
    (s.params.numTimers ≤ tid ∨ res < s.params.resMin ∨ s.params.resMax < res ∨ div < 2 ^ s.params.fracBits ∨
      2 ^ s.params.divBits ≤ div →
      AnswersUnchanged (.tSetraw tid res src div) s .invalidArgument 0) ∧
    (∀ t : Fin Config.maxTimers, tid = t → t.val < s.params.numTimers → s.params.resMin ≤ res →
      res ≤ s.params.resMax → 2 ^ s.params.fracBits ≤ div → div < 2 ^ s.params.divBits →
      ∃ u, exec (.tSetraw tid res src div) s = .next u ∧ u.response = some (responseWord .ok 0) ∧
        u.block.timer t =
          { run := .running, res := BitVec.ofNat 5 res, src := src, div := BitVec.ofNat 32 div,
            divRun := BitVec.ofNat 32 div, cnt := 0 } ∧
        OnlyTimerChanged t s u)

/-- R22: the run state of a timer changes in these ways only: to Running by T_CONFIG or T_SETRAW on it, Running to
Paused by T_PAUSE, Paused to Running by T_RESUME, to Reset by the hardware reset. -/
def Obligations.RunStateChangesOnlyAsListed : Prop :=
  ∀ (s u : State) (t : Fin Config.maxTimers), step s = .next u →
    (u.block.timer t).run ≠ (s.block.timer t).run →
      ((u.block.timer t).run = .running ∧
        ((∃ res src freq, s.Issues (.tConfig t res src freq)) ∨ ∃ res src div, s.Issues (.tSetraw t res src div))) ∨
      ((s.block.timer t).run = .running ∧ (u.block.timer t).run = .paused ∧ s.Issues (.tPause t)) ∨
      ((s.block.timer t).run = .paused ∧ (u.block.timer t).run = .running ∧ s.Issues (.tResume t)) ∨
      ((u.block.timer t).run = .reset ∧ s.drawnMove = .reset)

/-! ### Channel commands and the outputs (42_channel.md) -/

/-- R130: C_CONFIG rejects a bad index, a timer never configured or a duty above `2^res - 1`; else it writes every field
of the one channel, all three duty registers at once, clears the FadeState, and leaves `INT_STATUS` alone. -/
def Obligations.CConfigConfiguresOneChannel : Prop :=
  ∀ (cid tid : Nat) (pin : PinId) (idle inten : Bool) (duty : Nat) (s : State),
    (s.params.numChannels ≤ cid ∨ s.params.numTimers ≤ tid →
      AnswersUnchanged (.cConfig cid tid pin idle inten duty) s .invalidArgument 0) ∧
    (∀ t : Fin Config.maxTimers, tid = t →
      (s.block.timer t).run = .reset ∨ 2 ^ (s.block.timer t).res.toNat - 1 < duty →
        AnswersUnchanged (.cConfig cid tid pin idle inten duty) s .invalidArgument 0) ∧
    (∀ (c : Fin Config.maxChannels) (t : Fin Config.maxTimers), cid = c → tid = t →
      c.val < s.params.numChannels → t.val < s.params.numTimers → (s.block.timer t).run ≠ .reset → duty ≤ 2 ^ (s.block.timer t).res.toNat - 1 →
        ∃ u, exec (.cConfig cid tid pin idle inten duty) s = .next u ∧ u.response = some (responseWord .ok 0) ∧
          u.block.channel c =
            { cfg := true, en := true, tsel := t, pin := pin, idle := idle, inten := inten,
              dutyShadow := BitVec.ofNat 20 duty, dutyActive := BitVec.ofNat 20 duty,
              dutyWave := BitVec.ofNat 20 duty, fade := Fade.cleared } ∧
          OnlyChannelChanged c s u)

/-- R131: C_SETDUTY rejects a bad index, an unconfigured channel or a duty above the bound timer's range; else it writes
the shadow register and nothing else, in every fade state and when the output is stopped. -/
def Obligations.CSetdutyWritesTheShadowOnly : Prop :=
  ∀ (duty : Nat) (s : State),
    (∀ cid, s.params.numChannels ≤ cid → AnswersUnchanged (.cSetduty cid duty) s .invalidArgument 0) ∧
    (∀ c : Fin Config.maxChannels, (s.block.channel c).cfg = false ∨ s.block.maxDuty c < duty →
      AnswersUnchanged (.cSetduty c duty) s .invalidArgument 0) ∧
    (∀ c : Fin Config.maxChannels, c.val < s.params.numChannels → (s.block.channel c).cfg = true →
      duty ≤ s.block.maxDuty c →
      ∃ u, exec (.cSetduty c duty) s = .next u ∧ u.response = some (responseWord .ok 0) ∧
        u.block.channel c = { s.block.channel c with dutyShadow := BitVec.ofNat 20 duty } ∧
        OnlyChannelChanged c s u)

/-- R132: C_GETDUTY answers the active duty of a configured channel, stopped or not, and the sentinel `DUTY_ERR` (a
parameter of 00_scope.md R4, 0xFFFF_FFFF there, that no duty below `2^RES_MAX` can be mistaken for) for an unconfigured channel or an index out of range; it writes nothing and never errs. Its word is opcode 0x22 with the channel
index in `W[55:52]`. -/
def Obligations.CGetdutyAnswersActiveDutyOrSentinel : Prop :=
  (∀ cid : BitVec 4, decode ((0x22 : BitVec 8) ++ cid ++ (0 : BitVec 52)) = .ok (.cGetduty cid.toNat)) ∧
  ∀ s : State,
    (∀ cid, s.params.numChannels ≤ cid →
      exec (.cGetduty cid) s = .next { s with response := some (responseWord .ok s.params.dutyErr) }) ∧
    (∀ c : Fin Config.maxChannels, (s.block.channel c).cfg = false →
      exec (.cGetduty c) s = .next { s with response := some (responseWord .ok s.params.dutyErr) }) ∧
    (∀ c : Fin Config.maxChannels, c.val < s.params.numChannels → (s.block.channel c).cfg = true →
      exec (.cGetduty c) s = .next { s with
        response := some (responseWord .ok ((s.block.channel c).dutyActive.setWidth 32)) }) ∧
    (∀ d : Duty, s.params.Valid → d.toNat < 2 ^ s.params.resMax → d.setWidth 32 ≠ s.params.dutyErr) ∧
    Config.defaultParams.dutyErr = 0xFFFFFFFF

/-- R133: C_STOP, rejected only for an index out of range, disables the output, sets the idle level and clears the
FadeState, on a configured or an unconfigured channel, and keeps every other field; a second C_STOP changes nothing. -/
def Obligations.CStopDisablesAndClearsTheFade : Prop :=
  ∀ (idle : Bool) (s : State),
    (∀ cid, s.params.numChannels ≤ cid → AnswersUnchanged (.cStop cid idle) s .invalidArgument 0) ∧
    (∀ c : Fin Config.maxChannels, c.val < s.params.numChannels →
      ∃ u, exec (.cStop c idle) s = .next u ∧ u.response = some (responseWord .ok 0) ∧
        u.block.channel c = { s.block.channel c with en := false, idle := idle, fade := Fade.cleared } ∧
        OnlyChannelChanged c s u ∧ u.out c = idle ∧
        exec (.cStop c idle) u = .next u)

/-- R134: C_BIND rejects a bad index, an unconfigured channel or a timer never configured; else it writes the binding
alone: no duty register and no fade field. -/
def Obligations.CBindWritesTheBindingOnly : Prop :=
  ∀ (cid tid : Nat) (s : State),
    (s.params.numChannels ≤ cid ∨ s.params.numTimers ≤ tid → AnswersUnchanged (.cBind cid tid) s .invalidArgument 0) ∧
    (∀ c : Fin Config.maxChannels, cid = c → (s.block.channel c).cfg = false →
      AnswersUnchanged (.cBind cid tid) s .invalidArgument 0) ∧
    (∀ t : Fin Config.maxTimers, tid = t → (s.block.timer t).run = .reset →
      AnswersUnchanged (.cBind cid tid) s .invalidArgument 0) ∧
    (∀ (c : Fin Config.maxChannels) (t : Fin Config.maxTimers), cid = c → tid = t →
      c.val < s.params.numChannels → t.val < s.params.numTimers → (s.block.channel c).cfg = true → (s.block.timer t).run ≠ .reset →
        ∃ u, exec (.cBind cid tid) s = .next u ∧ u.response = some (responseWord .ok 0) ∧
          u.block.channel c = { s.block.channel c with tsel := t } ∧ OnlyChannelChanged c s u)

/-- R135: a stopped or never-configured channel drives its idle level; an enabled channel whose latched duty is in range
is high exactly while the counter of its bound timer is below it. -/
def Obligations.OutputFollowsIdleOrCounter : Prop :=
  ∀ (s : State) (c : Fin Config.maxChannels),
    ((s.block.channel c).en = false → s.out c = (s.block.channel c).idle) ∧
    ((s.block.channel c).en = true →
      (s.block.channel c).dutyWave.toNat ≤ 2 ^ (s.block.boundTimer c).res.toNat - 1 →
        (s.out c = true ↔ (s.block.boundTimer c).cnt.toNat < (s.block.channel c).dutyWave.toNat))

/-- R135 with the glossary's duty cycle (R11): over the `2^res` counts of a PWM period an enabled channel is high for
exactly `duty_wave` of them. -/
def Obligations.OutputIsHighForDutyWaveCounts : Prop :=
  ∀ (s : State) (c : Fin Config.maxChannels),
    (s.block.channel c).en = true → (s.block.boundTimer c).res.toNat ≤ Config.resMaxLimit →
    (s.block.channel c).dutyWave.toNat ≤ 2 ^ (s.block.boundTimer c).res.toNat - 1 →
      (List.range (2 ^ (s.block.boundTimer c).res.toNat)).countP (fun n =>
        (s.setBlock (s.block.setTimer (s.block.channel c).tsel
          { s.block.boundTimer c with cnt := BitVec.ofNat 20 n })).out c) =
      (s.block.channel c).dutyWave.toNat

/-- R137: with a latched duty of `2^res` or more the formula of R135, applied as written, is constant 1 while enabled.
(`State.out` does not use the formula there: log entry 5.) -/
def Obligations.OutOfRangeDutyAsWrittenIsConstantHigh : Prop :=
  ∀ (p : Config.Params) (b : Block) (c : Fin Config.maxChannels), b.LaunchOk p → (b.channel c).en = true →
    2 ^ (b.boundTimer c).res.toNat ≤ (b.channel c).dutyWave.toNat → b.outAsWritten c = true

/-! ### UpdateProtocol (43_update_protocol.md) -/

/-- R145: COMMIT rejects a bad index or an unconfigured channel. In Idle and Completed it promotes the shadow; in Armed
it starts the staged fade from its start duty; in Running it writes nothing. Neither the shadow, nor the staged set, nor
the compare latch, nor another channel (R150) is written. -/
def Obligations.CommitPromotesByFadeState : Prop :=
  ∀ s : State,
    (∀ cid, s.params.numChannels ≤ cid → AnswersUnchanged (.commit cid) s .invalidArgument 0) ∧
    (∀ c : Fin Config.maxChannels, (s.block.channel c).cfg = false →
      AnswersUnchanged (.commit c) s .invalidArgument 0) ∧
    (∀ c : Fin Config.maxChannels, c.val < s.params.numChannels → (s.block.channel c).cfg = true →
      ∃ u, exec (.commit c) s = .next u ∧ u.response = some (responseWord .ok 0) ∧ OnlyChannelChanged c s u ∧
        ((s.block.channel c).fade.fstate = .idle ∨ (s.block.channel c).fade.fstate = .completed →
          u.block.channel c = { s.block.channel c with dutyActive := (s.block.channel c).dutyShadow }) ∧
        ((s.block.channel c).fade.fstate = .running → u.block.channel c = s.block.channel c) ∧
        ((s.block.channel c).fade.fstate = .armed →
          u.block.channel c = { s.block.channel c with
            dutyActive := (s.block.channel c).fade.fsStart
            fade := { (s.block.channel c).fade with
              fstate := .running, faDir := (s.block.channel c).fade.fsDir,
              faTicks := (s.block.channel c).fade.fsTicks, faScale := (s.block.channel c).fade.fsScale,
              stepsRem := (s.block.channel c).fade.fsSteps, tickCnt := 0 } }))

/-- R147: the compare latch of a channel changes in these steps only: a wrap of the timer it is bound to, a C_CONFIG of
the channel, and the hardware reset; no duty change reaches it in mid-period. -/
def Obligations.WaveChangesOnlyAtAWrap : Prop :=
  ∀ (s u : State) (c : Fin Config.maxChannels), step s = .next u →
    (u.block.channel c).dutyWave ≠ (s.block.channel c).dutyWave →
      (∃ t, s.Wraps t ∧ s.block.bound c t = true) ∨
      (∃ tid pin idle inten duty, s.Issues (.cConfig c tid pin idle inten duty)) ∨
      s.drawnMove = .reset

/-- R149: from a count `cnt`, the waveform of a channel with no running fade keeps its latch for the next
`2^res - cnt - 1` ticks of its timer and adopts the active duty at the tick after them. -/
def Obligations.CommitReachesTheWaveAtTheNextWrap : Prop :=
  ∀ (p : Config.Params) (b : Block) (c : Fin Config.maxChannels) (t : Fin Config.maxTimers) (n : Nat),
    p.Valid → b.LaunchOk p → b.bound c t = true → (b.channel c).fade.fstate ≠ .running →
    (b.timer t).cnt.toNat + n = 2 ^ (b.timer t).res.toNat →
      (∀ j, j < n → (Nat.iterate (Block.tick t) j b).channel c = b.channel c) ∧
      (Nat.iterate (Block.tick t) n b).channel c = { b.channel c with dutyWave := (b.channel c).dutyActive } ∧
      ((Nat.iterate (Block.tick t) n b).timer t).cnt = 0

/-- R68: of any number of C_SETDUTY on a channel before a COMMIT only the last value reaches the active duty; the latch
and everything else keep their values. -/
def Obligations.LastShadowWriteWins : Prop :=
  ∀ (s : State) (c : Fin Config.maxChannels) (earlier : List Nat) (last : Nat),
    c.val < s.params.numChannels → (s.block.channel c).cfg = true →
    (s.block.channel c).fade.fstate = .idle ∨ (s.block.channel c).fade.fstate = .completed →
    (∀ d ∈ earlier, d ≤ s.block.maxDuty c) → last ≤ s.block.maxDuty c →
      ∃ u, execAll (earlier.map (fun d => .cSetduty c d) ++ [.cSetduty c last, .commit c]) s = .next u ∧
        u.block.channel c = { s.block.channel c with
          dutyShadow := BitVec.ofNat 20 last, dutyActive := BitVec.ofNat 20 last } ∧
        OnlyChannelChanged c s u

/-! ### The wrap and the fade engine (41_timer.md R118, 44_fade_engine.md) -/

/-- R118, R146: a wrap loads the compare latch of every channel bound to the timer and changes nothing else of a bound
channel whose fade is not Running; it touches no channel that is not bound to it, and of the timers only `div_run` of
its own, which takes the stored divider. -/
def Obligations.WrapLoadsBoundChannelsOnly : Prop :=
  ∀ (b : Block) (t : Fin Config.maxTimers),
    (b.wrap t).timer t = { b.timer t with divRun := (b.timer t).div } ∧
    SameTimersBut t b (b.wrap t) ∧
    (∀ c, b.bound c t = true → ((b.wrap t).channel c).dutyWave = ((b.wrap t).channel c).dutyActive) ∧
    (∀ c, b.bound c t = true → (b.channel c).fade.fstate ≠ .running →
      (b.wrap t).channel c = { b.channel c with dutyWave := (b.channel c).dutyActive } ∧
      (b.wrap t).pendingBit c = b.pendingBit c) ∧
    (∀ c, b.bound c t = false →
      (b.wrap t).channel c = b.channel c ∧ (b.wrap t).pendingBit c = b.pendingBit c)

/-- R118 with 92_eei_decisions.md D42: a wrap serves every channel once, in an order that does not matter; on a block
with given parameters the channels below `NUM_CHANNELS` are all it serves. -/
def Obligations.WrapOrderDoesNotMatter : Prop :=
  (∀ (b : Block) (t : Fin Config.maxTimers) (order : List (Fin Config.maxChannels)),
    order.Perm Config.channelIds → order.foldl (Block.wrapChannel t) (b.loadDivider t) = b.wrap t) ∧
  (∀ (p : Config.Params) (b : Block) (t : Fin Config.maxTimers) (order : List (Fin Config.maxChannels)), b.Fits p →
    order.Perm (Config.channelIds.filter fun c => decide (c.val < p.numChannels)) →
      order.foldl (Block.wrapChannel t) (b.loadDivider t) = b.wrap t)

/-- R158, R159, R160: a fade tick counts; the tick that reaches `fa_ticks` moves the active duty by `fa_scale`, saturating
at `2^res - 1` upward and at 0 downward; the step that uses up `steps_rem` completes the fade and sets the status bit.
The same wrap loads the new duty into the compare latch. Every other field of the channel keeps its value: the shadow
duty, the staged set and the active set among them. -/
def Obligations.FadeTickStepsAndSaturates : Prop :=
  ∀ (p : Config.Params) (b : Block) (t : Fin Config.maxTimers) (c : Fin Config.maxChannels), p.Valid → b.LaunchOk p →
    b.bound c t = true → (b.channel c).fade.fstate = .running →
      ((b.channel c).fade.tickCnt.toNat + 1 < (b.channel c).fade.faTicks.toNat →
        (b.wrap t).channel c = { b.channel c with
          dutyWave := (b.channel c).dutyActive
          fade := { (b.channel c).fade with tickCnt := (b.channel c).fade.tickCnt + 1 } } ∧
        (b.wrap t).pendingBit c = b.pendingBit c) ∧
      ((b.channel c).fade.tickCnt.toNat + 1 = (b.channel c).fade.faTicks.toNat →
        ∃ duty : Duty,
          ((b.channel c).fade.faDir = .increase →
            duty.toNat = min ((b.channel c).dutyActive.toNat + (b.channel c).fade.faScale.toNat)
              (2 ^ (b.boundTimer c).res.toNat - 1)) ∧
          ((b.channel c).fade.faDir = .decrease →
            duty.toNat = max ((b.channel c).dutyActive.toNat) (b.channel c).fade.faScale.toNat
              - (b.channel c).fade.faScale.toNat) ∧
          (b.wrap t).channel c = { b.channel c with
            dutyActive := duty
            dutyWave := duty
            fade := { (b.channel c).fade with
              fstate := if (b.channel c).fade.stepsRem = 1 then .completed else .running
              tickCnt := 0
              stepsRem := (b.channel c).fade.stepsRem - 1 } } ∧
          (b.wrap t).pendingBit c = (b.pendingBit c || decide ((b.channel c).fade.stepsRem = 1)))

/-- R165: a committed fade of `N` steps of `T` ticks and size `size` that stays in range has, after `k` wraps of its timer with
no command between, moved `floor(min(k, N*T) / T)` steps; it is Running before `N*T` wraps and Completed from then on;
its status bit is set by the last of them and not before; from the first wrap on the latch shows the active duty. -/
def Obligations.RampAdvancesAndCompletes : Prop :=
  ∀ (p : Config.Params) (b : Block) (t : Fin Config.maxTimers) (c : Fin Config.maxChannels) (k : Nat), p.Valid →
    b.LaunchOk p → b.bound c t = true →
    (b.channel c).fade.fstate = .running → (b.channel c).fade.tickCnt = 0 →
    rampInRange (b.maxDuty c) (b.channel c).fade.faDir (b.channel c).fade.stepsRem.toNat
      (b.channel c).fade.faScale.toNat (b.channel c).dutyActive.toNat = true →
      let total := (b.channel c).fade.stepsRem.toNat * (b.channel c).fade.faTicks.toNat
      let moved := min k total / (b.channel c).fade.faTicks.toNat * (b.channel c).fade.faScale.toNat
      let after := Nat.iterate (Block.wrap t) k b
      (match (b.channel c).fade.faDir with
        | .increase => (after.channel c).dutyActive.toNat = (b.channel c).dutyActive.toNat + moved
        | .decrease => (after.channel c).dutyActive.toNat + moved = (b.channel c).dutyActive.toNat) ∧
      (k < total → (after.channel c).fade.fstate = .running ∧ after.pendingBit c = b.pendingBit c) ∧
      (total ≤ k → (after.channel c).fade.fstate = .completed ∧ after.pendingBit c = true) ∧
      (1 ≤ k → (after.channel c).dutyWave = (after.channel c).dutyActive)

/-- R156: F_ARM rejects a bad index, an unconfigured channel, a fade Running or Completed, a start duty out of range, no
steps or no ticks, and a ramp that would leave the range; else, in Idle and in Armed, it stages the five parameters and
arms the fade, and nothing else is written. -/
def Obligations.FArmStagesTheRamp : Prop :=
  ∀ (dir : Direction) (steps ticks scale start : Nat) (s : State),
    (∀ cid, s.params.numChannels ≤ cid →
      AnswersUnchanged (.fArm cid dir steps ticks scale start) s .invalidArgument 0) ∧
    (∀ c : Fin Config.maxChannels,
      (s.block.channel c).cfg = false ∨ (s.block.channel c).fade.fstate = .running ∨
      (s.block.channel c).fade.fstate = .completed ∨ s.block.maxDuty c < start ∨ steps = 0 ∨ ticks = 0 ∨
      (dir = .increase ∧ s.block.maxDuty c < start + steps * scale) ∨ (dir = .decrease ∧ start < steps * scale) →
        AnswersUnchanged (.fArm c dir steps ticks scale start) s .invalidArgument 0) ∧
    (∀ c : Fin Config.maxChannels, c.val < s.params.numChannels → (s.block.channel c).cfg = true →
      (s.block.channel c).fade.fstate = .idle ∨ (s.block.channel c).fade.fstate = .armed →
      start ≤ s.block.maxDuty c → 1 ≤ steps → 1 ≤ ticks →
      (dir = .increase → start + steps * scale ≤ s.block.maxDuty c) → (dir = .decrease → steps * scale ≤ start) →
        ∃ u, exec (.fArm c dir steps ticks scale start) s = .next u ∧ u.response = some (responseWord .ok 0) ∧
          u.block.channel c = { s.block.channel c with
            fade := { (s.block.channel c).fade with
              fstate := .armed, fsStart := BitVec.ofNat 20 start, fsDir := dir, fsSteps := BitVec.ofNat 10 steps,
              fsTicks := BitVec.ofNat 10 ticks, fsScale := BitVec.ofNat 10 scale } } ∧
          OnlyChannelChanged c s u)

/-- R161: F_CANCEL, rejected only for an index out of range, takes an Armed or Running fade to Idle with the FadeState
cleared and the duty frozen; in Idle and Completed it changes nothing. No status bit is touched. -/
def Obligations.FCancelFreezesTheDuty : Prop :=
  ∀ s : State,
    (∀ cid, s.params.numChannels ≤ cid → AnswersUnchanged (.fCancel cid) s .invalidArgument 0) ∧
    (∀ c : Fin Config.maxChannels, c.val < s.params.numChannels →
      (s.block.channel c).fade.fstate = .idle ∨ (s.block.channel c).fade.fstate = .completed →
        exec (.fCancel c) s = .next { s with response := some (responseWord .ok 0) }) ∧
    (∀ c : Fin Config.maxChannels, c.val < s.params.numChannels →
      (s.block.channel c).fade.fstate = .armed ∨ (s.block.channel c).fade.fstate = .running →
        ∃ u, exec (.fCancel c) s = .next u ∧ u.response = some (responseWord .ok 0) ∧
          u.block.channel c = { s.block.channel c with fade := Fade.cleared } ∧ OnlyChannelChanged c s u)

/-- R155: the fade state of a channel changes in these ways only, each in a step on that very channel, in a wrap of the
timer it is bound to, or in the hardware reset. -/
def Obligations.FadeStateChangesOnlyAsListed : Prop :=
  ∀ (s u : State) (c : Fin Config.maxChannels), step s = .next u →
    (u.block.channel c).fade.fstate ≠ (s.block.channel c).fade.fstate →
      ((s.block.channel c).fade.fstate = .idle ∧ (u.block.channel c).fade.fstate = .armed ∧
        ∃ dir steps ticks scale start, s.Issues (.fArm c dir steps ticks scale start)) ∨
      ((s.block.channel c).fade.fstate = .armed ∧ (u.block.channel c).fade.fstate = .running ∧
        s.Issues (.commit c)) ∨
      ((s.block.channel c).fade.fstate = .running ∧ (u.block.channel c).fade.fstate = .completed ∧
        ∃ t, s.Wraps t ∧ s.block.bound c t = true) ∨
      ((s.block.channel c).fade.fstate = .armed ∧ (u.block.channel c).fade.fstate = .idle ∧
        s.Issues (.fCancel c)) ∨
      ((s.block.channel c).fade.fstate = .running ∧ (u.block.channel c).fade.fstate = .idle ∧
        s.Issues (.fCancel c)) ∨
      ((s.block.channel c).fade.fstate = .completed ∧ (u.block.channel c).fade.fstate = .idle ∧
        ∃ mask, s.Issues (.intClear mask) ∧ mask.getLsbD c.val = true) ∨
      ((u.block.channel c).fade.fstate = .idle ∧
        ((∃ idle, s.Issues (.cStop c idle)) ∨
         (∃ tid pin idle inten duty, s.Issues (.cConfig c tid pin idle inten duty)) ∨ s.drawnMove = .reset))

/-! ### The interrupt (45_interrupt_dispatcher.md, 60_exceptions.md) -/

/-- R175: INT_STATUS answers the raw status bits, zero-extended, and writes nothing; it never errs. Its word is opcode
0x50 and no operand. -/
def Obligations.IntStatusAnswersTheRawBits : Prop :=
  decode ((0x50 : BitVec 8) ++ (0 : BitVec 56)) = .ok .intStatus ∧
  ∀ s : State, exec .intStatus s =
      .next { s with response := some (responseWord .ok (s.block.intStatus.setWidth 32)) } ∧
    (∀ c : Fin Config.maxChannels,
      (s.block.intStatus.setWidth 32 : Value).getLsbD c.val = s.block.pendingBit c) ∧
    (s.block.Fits s.params → ∀ k, s.params.numChannels ≤ k →
      (s.block.intStatus.setWidth 32 : Value).getLsbD k = false)

/-- R176: INT_CLEAR always succeeds; it clears exactly the status bits its mask names and leaves the others; a channel
so acknowledged whose fade is Completed has its FadeState cleared, and every other channel, and every other field, keeps
its value; mask bits that are not pending or name no channel do nothing. -/
def Obligations.IntClearAcknowledgesExactlyTheMask : Prop :=
  ∀ (mask : Mask) (s : State),
    ∃ u, exec (.intClear mask) s = .next u ∧ u.response = some (responseWord .ok 0) ∧
      (∀ c, u.block.pendingBit c = (s.block.pendingBit c && !mask.getLsbD c.val)) ∧
      (∀ c, mask.getLsbD c.val = true → s.block.pendingBit c = true →
        (s.block.channel c).fade.fstate = .completed →
          u.block.channel c = { s.block.channel c with fade := Fade.cleared }) ∧
      (∀ c, ¬ (mask.getLsbD c.val = true ∧ s.block.pendingBit c = true ∧
          (s.block.channel c).fade.fstate = .completed) → u.block.channel c = s.block.channel c) ∧
      u.block.timers = s.block.timers ∧ SameSurroundings s u

/-- R192: a status bit becomes set only in a step that wraps the timer its channel is bound to, with the channel's fade
Running before and Completed after it; never in a command. -/
def Obligations.PendingIsSetOnlyByTheLastFadeStep : Prop :=
  ∀ (s u : State) (c : Fin Config.maxChannels), step s = .next u →
    s.block.pendingBit c = false → u.block.pendingBit c = true →
      (∃ t, s.Wraps t ∧ s.block.bound c t = true) ∧
      (s.block.channel c).fade.fstate = .running ∧ (u.block.channel c).fade.fstate = .completed ∧
      (u.block.channel c).fade.stepsRem = 0

/-- R195: a pending source is cleared only by an INT_CLEAR that names it or by the hardware reset; so not by a read, nor
by C_STOP, C_CONFIG, F_CANCEL, F_ARM or COMMIT. -/
def Obligations.PendingIsClearedOnlyByIntClearOrReset : Prop :=
  ∀ (s u : State) (c : Fin Config.maxChannels), step s = .next u →
    s.block.pendingBit c = true → u.block.pendingBit c = false →
      (∃ mask, s.Issues (.intClear mask) ∧ mask.getLsbD c.val = true) ∨ s.drawnMove = .reset

/-- R193: the interrupt-enable flag of a channel changes only by a C_CONFIG of it, to that command's operand, or by the
hardware reset, to 0. -/
def Obligations.EnableIsWrittenOnlyByCConfigOrReset : Prop :=
  ∀ (s u : State) (c : Fin Config.maxChannels), step s = .next u →
    (u.block.channel c).inten ≠ (s.block.channel c).inten →
      (∃ tid pin idle duty, s.Issues (.cConfig c tid pin idle (u.block.channel c).inten duty)) ∨
      (s.drawnMove = .reset ∧ (u.block.channel c).inten = false)

/-- R194: `irq` is 1 exactly if some channel has its status bit and its interrupt-enable flag set, a channel below
`NUM_CHANNELS` on a block with given parameters. -/
def Obligations.IrqIsTheOrOfEnabledPendingBits : Prop :=
  (∀ b : Block, b.irq = true ↔
    ∃ c : Fin Config.maxChannels, b.intStatus.getLsbD c.val = true ∧ (b.channel c).inten = true) ∧
  (∀ (p : Config.Params) (b : Block), b.Fits p → (b.irq = true ↔
    ∃ c : Fin Config.maxChannels,
      c.val < p.numChannels ∧ b.intStatus.getLsbD c.val = true ∧ (b.channel c).inten = true))

/-- R178, R199, R176: a handler pass that reads the status is answered the raw status bits (R175); clearing exactly those
bits serves the pending channels and lowers `irq`; every channel that was Completed with its bit read is Idle after it, its FadeState cleared and the rest
of it as it was; every other channel (a ramp running again among them, R176 case d) is untouched. So no Completed fade is
left where the invariant held. -/
def Obligations.HandlerPassServesEveryPendingChannel : Prop :=
  ∀ s : State, ∃ u v : State,
    exec .intStatus s = .next u ∧ u.response = some (responseWord .ok (s.block.intStatus.setWidth 32)) ∧
    exec (.intClear ((s.block.intStatus.setWidth 32 : Value).setWidth 16)) u = .next v ∧
    v.response = some (responseWord .ok 0) ∧
    u.block = s.block ∧ v.block.intStatus = 0 ∧ v.block.irq = false ∧
    KeepsHandlerContract (s.block.intStatus.setWidth 32) ((s.block.intStatus.setWidth 32 : Value).setWidth 16) ∧
    (∀ c, c ∈ completedChannels (s.block.intStatus.setWidth 32) ↔ s.block.pendingBit c = true) ∧
    (∀ c, (s.block.channel c).fade.fstate = .completed → s.block.pendingBit c = true →
      (v.block.channel c).fade.fstate = .idle ∧
      v.block.channel c = { s.block.channel c with fade := Fade.cleared }) ∧
    (∀ c, ¬ ((s.block.channel c).fade.fstate = .completed ∧ s.block.pendingBit c = true) →
      v.block.channel c = s.block.channel c) ∧
    (s.block.Inv s.params → ∀ c, (v.block.channel c).fade.fstate ≠ .completed) ∧
    (∀ c, (v.block.channel c).dutyActive = (s.block.channel c).dutyActive ∧
      (v.block.channel c).dutyShadow = (s.block.channel c).dutyShadow ∧
      (v.block.channel c).dutyWave = (s.block.channel c).dutyWave)

/-- R71, R176 case b: an INT_CLEAR of only what was read loses no event: a status bit that a tick sets between the read
and the clear is still set after it. -/
def Obligations.LateCompletionIsNotLost : Prop :=
  ∀ (s u : State) (mask : Mask) (c : Fin Config.maxChannels),
    KeepsHandlerContract (s.block.intStatus.setWidth 32) mask → s.block.pendingBit c = false →
    u.block.pendingBit c = true →
      ∃ v, exec (.intClear mask) u = .next v ∧ v.block.pendingBit c = true ∧
        v.block.channel c = u.block.channel c

/-- R72, R198, R199: a queued entry of `Host.Isr` is taken exactly while it is not running, a handler is registered and
`irq = 1`, and changes nothing but that it now runs; a queued return is taken exactly while it runs. The stops are the
model's choice of log entry 9: 70_reset_and_hazards.md R227 says only that there is no such move (a nested entry, an
entry while `irq = 0`, a return while `Host.Isr` does not run, a transaction of `Host.Main` while it runs, and likewise
one after its last command), and 93_implementation_defined.md U16 asks for a refusal only where no handler is
registered. -/
def Obligations.InterruptEntryAndReturn : Prop :=
  ∀ (s : State) (rest : List Config.Move),
    (s.pending = .enterIsr :: rest →
      (s.host.isrRunning = false → s.host.registration ≠ none → s.block.irq = true →
        step s = .next { s.dequeued rest with host := { s.host with isrRunning := true } }) ∧
      (s.host.isrRunning = true → step s = .refused .isrNested) ∧
      (s.host.isrRunning = false → s.host.registration = none → step s = .refused .isrWithoutHandler) ∧
      (s.host.isrRunning = false → s.host.registration ≠ none → s.block.irq = false →
        step s = .refused .isrWithoutRequest)) ∧
    (s.pending = .leaveIsr :: rest →
      (s.host.isrRunning = true →
        step s = .next { s.dequeued rest with host := { s.host with isrRunning := false } }) ∧
      (s.host.isrRunning = false → step s = .refused .isrNotRunning)) ∧
    (∀ w, s.pending = .command .isr w :: rest → s.host.isrRunning = false → step s = .refused .isrNotRunning) ∧
    (∀ w, s.pending = .command .main w :: rest →
      (s.host.isrRunning = true → step s = .refused .mainWhileIsrRuns) ∧
      (s.host.isrRunning = false → s.host.mainEnded = true → step s = .refused .mainHasEnded))

/-- R177: `register` with a handler and a line that the platform has sets `host.line`, `host.handler` and `host.context`;
else it answers `InvalidArgument` and sets none of them. It reads and writes no state of the block. Which lines the
platform has is a free value (log entry 8); the statement holds for every such platform. -/
def Obligations.RegisterSetsTheHostFieldsOnly : Prop :=
  ∀ (s : State) (line context : Nat) (rest : List Config.Move),
    (∀ handler, s.pending = .register line (some handler) context :: rest →
      step s = .next { s.dequeued rest with
        host :=
          if Config.platformHasLine line then
            { s.host with registration := some ⟨line, handler, context⟩, registerResult := some .ok }
          else { s.host with registerResult := some .invalidArgument } }) ∧
    (s.pending = .register line none context :: rest →
      step s = .next { s.dequeued rest with host := { s.host with registerResult := some .invalidArgument } })

/-! ### The machine as a whole -/

/-- 70_reset_and_hazards.md R228 and 10_state.md R23, R25, R27, with 45_interrupt_dispatcher.md R176 case e: the machine
after reset meets every launch premise and the invariant of the block, and its duties are in range. -/
def Obligations.InvariantHoldsAtReset : Prop :=
  State.reset.launchable ∧ State.reset.block.Inv State.reset.params ∧ State.reset.block.DutiesInRange

/-- 00_scope.md R4, R6, 10_state.md R23, R27 and 45_interrupt_dispatcher.md R176 case e: every step, whatever the move and
whatever the parameters, keeps the launch premises of 70_reset_and_hazards.md R228 (so every stored value fits its
register and no place without a slot is written), keeps from such a state the invariant of the block, and writes no
parameter. -/
def Obligations.EveryStepKeepsTheInvariant : Prop :=
  ∀ s u : State, step s = .next u →
    u.params = s.params ∧ (s.launchable → u.launchable) ∧
    (s.launchable → s.block.Inv s.params → u.block.Inv u.params)

/-- 10_state.md R31, 20_memory.md R69: no command reads `cnt`, `div_run`, `duty_wave` or the active fade set: two blocks
that differ in these alone give every command the same response and still differ in these alone after it. So no command
can tell whether a wrap has happened. -/
def Obligations.NoCommandObservesHiddenState : Prop :=
  ∀ (i : Instr) (r s : State), r.params = s.params → r.block.AgreesOnReadable s.block →
    ∃ u v : State, exec i r = .next u ∧ exec i s = .next v ∧ u.response = v.response ∧
      u.block.AgreesOnReadable v.block

/-- 20_memory.md R65, 60_exceptions.md R188: the four queries write nothing of the block and, asked again, answer the
same; the three state queries never answer an error. -/
def Obligations.QueriesWriteNothing : Prop :=
  ∀ (s : State) (i : Instr), i.opcode ∈ [.divcalc, .tGetfreq, .cGetduty, .intStatus] →
    ∃ u, exec i s = .next u ∧ u.block = s.block ∧ SameSurroundings s u ∧ exec i u = .next u ∧
      (i.opcode ≠ .divcalc → ∃ v, u.response = some (responseWord .ok v))

/-- 60_exceptions.md R201: both contexts of the host have the same rights: a word has the same effect on the block and
the same response whichever of them issues it. -/
def Obligations.BothContextsHaveTheSameRights : Prop :=
  ∀ (w : Word) (s : State), s.host.isrRunning = false → s.host.mainEnded = false →
    ∃ u v : State, hostTransact .main w s = .next u ∧
      hostTransact .isr w { s with host := { s.host with isrRunning := true } } = .next v ∧
      u.block = v.block ∧ u.response = v.response

/-- 70_reset_and_hazards.md R229: in a settled block a tick changes nothing but the counter of its timer, and the block
stays settled. A run that is over stays over whatever step comes, with the same end state (the settled block, counters
left out), but for the reset input, which puts every field at its reset value (R210). That such a run stays over is the
model's choice of log entries 21 (the end of the host's program lasts, and no reset restarts it), 12 (the reset input
leaves the host agent alone) and 9 (a transaction of `Host.Main` after its end, one of `Host.Isr` while it does not run,
and its entry while `irq = 0` are refused); R72, R227 and R229 say no more than that there are no such moves. -/
def Obligations.TickOfSettledBlockMovesTheCounterOnly : Prop :=
  (∀ (b : Block) (t : Fin Config.maxTimers), b.Settled → b.tickEnabled t = true →
    (∃ k : Duty, b.tick t = b.setTimer t { b.timer t with cnt := k }) ∧ (b.tick t).Settled) ∧
  (∀ s u : State, s.runOver → step s = .next u →
    u.runOver ∧ (s.drawnMove ≠ .reset → u.endState = s.endState) ∧ (s.drawnMove = .reset → u.block = Block.reset))

end
end

