-- ==== Sys2Proof/Laws/Decode.lean ====
section
/-! SUPPORT. The small lemmas of the operand fields, the decoder and the encoder. -/

namespace Sys2Proof

@[simp] theorem indexFits_iff {n : Nat} : indexFits n = true ↔ n < 16 := decide_eq_true_iff
@[simp] theorem resFits_iff {n : Nat} : resFits n = true ↔ n < 32 := decide_eq_true_iff
@[simp] theorem imm32Fits_iff {n : Nat} : imm32Fits n = true ↔ n < 4294967296 := decide_eq_true_iff
@[simp] theorem fadeFits_iff {n : Nat} : fadeFits n = true ↔ n < 1024 := decide_eq_true_iff
@[simp] theorem startFits_iff {n : Nat} : startFits n = true ↔ n < 1048576 := decide_eq_true_iff

theorem ClockSource.code_le (src : ClockSource) : src.code ≤ 1 := by cases src <;> decide
theorem Direction.code_le (dir : Direction) : dir.code ≤ 1 := by cases dir <;> decide

@[simp] theorem clockSourceOf_code (src : ClockSource) : clockSourceOf (src.code == 1) = src := by cases src <;> rfl
@[simp] theorem directionOf_code (dir : Direction) : directionOf (dir.code == 1) = dir := by cases dir <;> rfl
@[simp] theorem toNat_beq_one (b : Bool) : (b.toNat == 1) = b := by cases b <;> rfl

@[simp] theorem Opcode.ofCode_code (op : Opcode) : Opcode.ofCode op.code = some op := by cases op <;> decide

/-- A numeric opcode names a row exactly when it is that row's code. -/
theorem Opcode.ofCode_eq_some {n : Nat} {op : Opcode} (h : Opcode.ofCode n = some op) : op.code = n := by
  simpa using List.find?_some h

/-- What the decoder answers, once. -/
theorem decode_ok {w : Word} {i : Instr} (h : decode w = .ok i) :
    ∃ op, Opcode.ofCode (field w 63 56) = some op ∧ op.zerosHold w = true ∧ i = op.operands w := by
  unfold decode at h
  split at h
  · cases h
  · split at h
    · exact ⟨_, ‹_›, ‹_›, by simpa using h.symm⟩
    · cases h

/-- A field of `k` bits is below `2^k` (00_scope.md R5). -/
theorem field_lt (w : Word) (hi lo : Nat) : field w hi lo < 2 ^ (hi - lo + 1) := Nat.mod_lt _ (by positivity)

end Sys2Proof
end

