-- ==== Sys2Proof/Laws/State.lean ====
section
/-! SUPPORT. The small lemmas of the state record: one per field per update, and reads after writes of slots. -/

namespace Sys2Proof.Machine

/-! ### A register holds every width that valid parameters give it (00_scope.md R4) -/

theorem width_fade : Config.fadeBits = 10 := rfl
theorem width_pin : Config.pinBits = 8 := rfl

/-- A value of `w` bits is what a register of at least `w` bits then holds (00_scope.md R6). -/
theorem toNat_ofNat_of_fits {w k n : Nat} (hw : w ≤ k) (hn : n < 2 ^ w) : (BitVec.ofNat k n).toNat = n := by
  rw [BitVec.toNat_ofNat, Nat.mod_eq_of_lt (hn.trans_le (Nat.pow_le_pow_right (by decide) hw))]

/-- A duty or a count in range is stored whole. -/
theorem duty_ofNat_toNat {p : Config.Params} (hp : p.Valid) {n : Nat} (hn : n < 2 ^ p.dutyBits) :
    (BitVec.ofNat 20 n).toNat = n := toNat_ofNat_of_fits hp.2.2.1.2.2 hn

/-- A divider in range is stored whole. -/
theorem div_ofNat_toNat {p : Config.Params} (hp : p.Valid) {n : Nat} (hn : n < 2 ^ p.divBits) :
    (BitVec.ofNat 32 n).toNat = n := toNat_ofNat_of_fits hp.2.2.2.1.2.2 hn

/-- `INT_STATUS` has a bit for every channel. -/
theorem width_intStatus {p : Config.Params} (hp : p.Valid) : p.numChannels ≤ 16 := hp.2.1.2

/-! ### `State.setBlock` -/

@[simp] theorem setBlock_block (s : State) (b : Block) : (s.setBlock b).block = b := rfl
@[simp] theorem setBlock_response (s : State) (b : Block) : (s.setBlock b).response = s.response := rfl
@[simp] theorem setBlock_host (s : State) (b : Block) : (s.setBlock b).host = s.host := rfl
@[simp] theorem setBlock_pending (s : State) (b : Block) : (s.setBlock b).pending = s.pending := rfl
@[simp] theorem setBlock_steps (s : State) (b : Block) : (s.setBlock b).steps = s.steps := rfl
@[simp] theorem setBlock_params (s : State) (b : Block) : (s.setBlock b).params = s.params := rfl
@[simp] theorem setBlock_self (s : State) : s.setBlock s.block = s := rfl

/-! ### `State.advance` and `State.queueWord` -/

@[simp] theorem advance_block (s : State) : s.advance.block = s.block := rfl
@[simp] theorem advance_response (s : State) : s.advance.response = none := rfl
@[simp] theorem advance_host (s : State) : s.advance.host = s.host := rfl
@[simp] theorem advance_pending (s : State) : s.advance.pending = s.pending.tail := rfl
@[simp] theorem advance_steps (s : State) : s.advance.steps = s.steps + 1 := rfl
@[simp] theorem advance_params (s : State) : s.advance.params = s.params := rfl
@[simp] theorem queueWord_block (w : Word) (s : State) : (s.queueWord w).block = s.block := rfl
@[simp] theorem queueWord_host (w : Word) (s : State) :
    (s.queueWord w).host = { s.host with mainEnded := s.host.mainEnded && s.host.isrRunning } := rfl
@[simp] theorem queueWord_params (w : Word) (s : State) : (s.queueWord w).params = s.params := rfl
@[simp] theorem queueWord_pending (w : Word) (s : State) :
    (s.queueWord w).pending = .command s.issuer w :: s.pending := rfl

/-! ### Writing a timer slot -/

@[simp] theorem setTimer_channels (b : Block) (t : Fin Config.maxTimers) (T : Timer) :
    (b.setTimer t T).channels = b.channels := rfl
@[simp] theorem setTimer_intStatus (b : Block) (t : Fin Config.maxTimers) (T : Timer) :
    (b.setTimer t T).intStatus = b.intStatus := rfl
@[simp] theorem setTimer_channel (b : Block) (t : Fin Config.maxTimers) (T : Timer) (c : Fin Config.maxChannels) :
    (b.setTimer t T).channel c = b.channel c := rfl
@[simp] theorem setTimer_pendingBit (b : Block) (t : Fin Config.maxTimers) (T : Timer)
    (c : Fin Config.maxChannels) : (b.setTimer t T).pendingBit c = b.pendingBit c := rfl
@[simp] theorem setTimer_bound (b : Block) (t : Fin Config.maxTimers) (T : Timer) (c : Fin Config.maxChannels)
    (t' : Fin Config.maxTimers) : (b.setTimer t T).bound c t' = b.bound c t' := rfl

theorem timer_setTimer (b : Block) (t : Fin Config.maxTimers) (T : Timer) (t' : Fin Config.maxTimers) :
    (b.setTimer t T).timer t' = if t' = t then T else b.timer t' := by
  simp [Block.setTimer, Block.timer, Vector.getElem_set, Fin.ext_iff, eq_comm]

@[simp] theorem timer_setTimer_same (b : Block) (t : Fin Config.maxTimers) (T : Timer) :
    (b.setTimer t T).timer t = T := by simp [timer_setTimer]

theorem timer_setTimer_ne (b : Block) {t t' : Fin Config.maxTimers} (T : Timer) (h : t' ≠ t) :
    (b.setTimer t T).timer t' = b.timer t' := by simp [timer_setTimer, h]

/-! ### Writing a channel slot -/

@[simp] theorem setChannel_timers (b : Block) (c : Fin Config.maxChannels) (C : Channel) :
    (b.setChannel c C).timers = b.timers := rfl
@[simp] theorem setChannel_intStatus (b : Block) (c : Fin Config.maxChannels) (C : Channel) :
    (b.setChannel c C).intStatus = b.intStatus := rfl
@[simp] theorem setChannel_timer (b : Block) (c : Fin Config.maxChannels) (C : Channel) (t : Fin Config.maxTimers) :
    (b.setChannel c C).timer t = b.timer t := rfl
@[simp] theorem setChannel_pendingBit (b : Block) (c : Fin Config.maxChannels) (C : Channel)
    (c' : Fin Config.maxChannels) : (b.setChannel c C).pendingBit c' = b.pendingBit c' := rfl

theorem channel_setChannel (b : Block) (c : Fin Config.maxChannels) (C : Channel) (c' : Fin Config.maxChannels) :
    (b.setChannel c C).channel c' = if c' = c then C else b.channel c' := by
  simp [Block.setChannel, Block.channel, Vector.getElem_set, Fin.ext_iff, eq_comm]

@[simp] theorem channel_setChannel_same (b : Block) (c : Fin Config.maxChannels) (C : Channel) :
    (b.setChannel c C).channel c = C := by simp [channel_setChannel]

theorem channel_setChannel_ne (b : Block) {c c' : Fin Config.maxChannels} (C : Channel) (h : c' ≠ c) :
    (b.setChannel c C).channel c' = b.channel c' := by simp [channel_setChannel, h]

/-! ### The interrupt status register -/

@[simp] theorem raisePending_timers (b : Block) (c : Fin Config.maxChannels) :
    (b.raisePending c).timers = b.timers := rfl
@[simp] theorem raisePending_channels (b : Block) (c : Fin Config.maxChannels) :
    (b.raisePending c).channels = b.channels := rfl
@[simp] theorem raisePending_timer (b : Block) (c : Fin Config.maxChannels) (t : Fin Config.maxTimers) :
    (b.raisePending c).timer t = b.timer t := rfl
@[simp] theorem raisePending_channel (b : Block) (c c' : Fin Config.maxChannels) :
    (b.raisePending c).channel c' = b.channel c' := rfl
@[simp] theorem clearPending_timers (b : Block) (c : Fin Config.maxChannels) :
    (b.clearPending c).timers = b.timers := rfl
@[simp] theorem clearPending_channels (b : Block) (c : Fin Config.maxChannels) :
    (b.clearPending c).channels = b.channels := rfl
@[simp] theorem clearPending_timer (b : Block) (c : Fin Config.maxChannels) (t : Fin Config.maxTimers) :
    (b.clearPending c).timer t = b.timer t := rfl
@[simp] theorem clearPending_channel (b : Block) (c c' : Fin Config.maxChannels) :
    (b.clearPending c).channel c' = b.channel c' := rfl

@[simp] theorem raisePending_pendingBit (b : Block) (c c' : Fin Config.maxChannels) :
    (b.raisePending c).pendingBit c' = (b.pendingBit c' || decide (c' = c)) := by
  have := c'.isLt
  simp only [Block.raisePending, Block.pendingBit, BitVec.getLsbD_or, BitVec.getLsbD_twoPow]
  by_cases h : c' = c
  · subst h; simp [this]
  · simp [h, Fin.val_ne_of_ne (Ne.symm h)]

@[simp] theorem clearPending_pendingBit (b : Block) (c c' : Fin Config.maxChannels) :
    (b.clearPending c).pendingBit c' = (b.pendingBit c' && !decide (c' = c)) := by
  have := c'.isLt
  simp only [Block.clearPending, Block.pendingBit, BitVec.getLsbD_and, BitVec.getLsbD_not, BitVec.getLsbD_twoPow]
  by_cases h : c' = c
  · subst h; simp
  · simp [h, Fin.val_ne_of_ne (Ne.symm h)]

/-! ### Two blocks are equal when every slot and the status register are -/

theorem block_ext {a b : Block} (ht : ∀ t, a.timer t = b.timer t) (hc : ∀ c, a.channel c = b.channel c)
    (hi : a.intStatus = b.intStatus) : a = b := by
  cases a with | mk ta ca ia => cases b with | mk tb cb ib =>
  simp only [Block.mk.injEq]
  refine ⟨Vector.ext fun i hi => ht ⟨i, hi⟩, Vector.ext fun i hi => hc ⟨i, hi⟩, hi⟩

/-- The status register is determined by its bits. -/
theorem intStatus_ext {a b : Block} (h : ∀ c, a.pendingBit c = b.pendingBit c) : a.intStatus = b.intStatus :=
  BitVec.eq_of_getLsbD_eq fun i hi => h ⟨i, hi⟩

@[simp] theorem reset_timer (t : Fin Config.maxTimers) : Block.reset.timer t = Timer.reset := by
  simp [Block.reset, Block.timer]

@[simp] theorem reset_channel (c : Fin Config.maxChannels) : Block.reset.channel c = Channel.reset := by
  simp [Block.reset, Block.channel]

@[simp] theorem reset_pendingBit (c : Fin Config.maxChannels) : Block.reset.pendingBit c = false := by
  simp [Block.reset, Block.pendingBit]

theorem mem_channelIds (c : Fin Config.maxChannels) : c ∈ Config.channelIds := by
  revert c; decide

theorem channelIds_nodup : Config.channelIds.Nodup := by decide

end Sys2Proof.Machine
end

