-- ==== Sys2Proof/Laws/Ops.lean ====
section
/-! SUPPORT. For each shared operation one lemma that says everything it can do. -/

namespace Sys2Proof.Machine

/-! ### Completing a command -/

theorem respond_next {st : Status} {v : Value} {b : Block} {s u : State} (h : respond st v b s = .next u) :
    u = { s with block := b, response := some (responseWord st v) } := by
  simpa [respond, State.setBlock] using h.symm

theorem raiseError_next {st : Status} {s u : State} (h : raiseError st s = .next u) :
    u = { s with response := some (responseWord st 0) } := respond_next h

theorem responseWord_toNat (st : Status) (v : Value) :
    (responseWord st v).toNat = st.code.toNat * 2 ^ 56 + v.toNat := by
  have := v.isLt
  simp only [responseWord, BitVec.toNat_append, BitVec.ofNat_eq_ofNat, BitVec.toNat_ofNat, Nat.zero_mod,
    Nat.or_zero, Nat.shiftLeft_eq]
  rw [show st.code.toNat * 2 ^ 24 * 2 ^ 32 = 2 ^ 32 * (st.code.toNat * 2 ^ 24) by ring, ← Nat.two_pow_add_eq_or_of_lt this]
  ring

/-! ### Operand forms -/

theorem timerIndex_val {p : Config.Params} {t : Fin Config.maxTimers} (h : t.val < p.numTimers) :
    timerIndex p t.val = some t := by
  simp [timerIndex, h]

theorem timerIndex_none {p : Config.Params} {tid : Nat} (h : p.numTimers ≤ tid) : timerIndex p tid = none := by
  simp [timerIndex, Nat.not_lt.mpr h]

theorem timerIndex_cases (p : Config.Params) (tid : Nat) :
    timerIndex p tid = none ∨ ∃ t, tid = t.val ∧ t.val < p.numTimers ∧ timerIndex p tid = some t := by
  by_cases h : tid < Config.maxTimers ∧ tid < p.numTimers
  · exact .inr ⟨⟨tid, h.1⟩, rfl, h.2, by simp [timerIndex, h]⟩
  · exact .inl (by simp only [timerIndex, h, dif_neg, not_false_iff])

theorem channelIndex_val {p : Config.Params} {c : Fin Config.maxChannels} (h : c.val < p.numChannels) :
    channelIndex p c.val = some c := by
  simp [channelIndex, h]

theorem channelIndex_none {p : Config.Params} {cid : Nat} (h : p.numChannels ≤ cid) : channelIndex p cid = none := by
  simp [channelIndex, Nat.not_lt.mpr h]

theorem channelIndex_cases (p : Config.Params) (cid : Nat) :
    channelIndex p cid = none ∨ ∃ c, cid = c.val ∧ c.val < p.numChannels ∧ channelIndex p cid = some c := by
  by_cases h : cid < Config.maxChannels ∧ cid < p.numChannels
  · exact .inr ⟨⟨cid, h.1⟩, rfl, h.2, by simp [channelIndex, h]⟩
  · exact .inl (by simp only [channelIndex, h, dif_neg, not_false_iff])

/-! ### FadeClear, acknowledgment, wave load -/

theorem channel_fadeClear (b : Block) (c c' : Fin Config.maxChannels) :
    (b.fadeClear c).channel c' = if c' = c then { b.channel c with fade := Fade.cleared } else b.channel c' :=
  channel_setChannel ..

@[simp] theorem fadeClear_timer (b : Block) (c : Fin Config.maxChannels) (t : Fin Config.maxTimers) :
    (b.fadeClear c).timer t = b.timer t := rfl
@[simp] theorem fadeClear_timers (b : Block) (c : Fin Config.maxChannels) : (b.fadeClear c).timers = b.timers := rfl
@[simp] theorem fadeClear_intStatus (b : Block) (c : Fin Config.maxChannels) :
    (b.fadeClear c).intStatus = b.intStatus := rfl
@[simp] theorem fadeClear_pendingBit (b : Block) (c c' : Fin Config.maxChannels) :
    (b.fadeClear c).pendingBit c' = b.pendingBit c' := rfl

@[simp] theorem acknowledge_timers (b : Block) (c : Fin Config.maxChannels) :
    (b.acknowledge c).timers = b.timers := by
  unfold Block.acknowledge; split <;> [split; skip] <;> rfl

@[simp] theorem acknowledge_timer (b : Block) (c : Fin Config.maxChannels) (t : Fin Config.maxTimers) :
    (b.acknowledge c).timer t = b.timer t := by simp [Block.timer]

@[simp] theorem acknowledge_pendingBit (b : Block) (c c' : Fin Config.maxChannels) :
    (b.acknowledge c).pendingBit c' = (b.pendingBit c' && !decide (c' = c)) := by
  unfold Block.acknowledge
  split
  · split <;> simp
  · rename_i h
    by_cases h' : c' = c
    · subst h'; simp_all
    · simp [h']

/-- What the acknowledgment of channel `c` makes of a channel slot. -/
theorem channel_acknowledge (b : Block) (c c' : Fin Config.maxChannels) :
    (b.acknowledge c).channel c' =
      if c' = c ∧ b.pendingBit c = true ∧ (b.channel c).fade.fstate = .completed then
        { b.channel c with fade := Fade.cleared }
      else b.channel c' := by
  unfold Block.acknowledge
  by_cases hp : b.pendingBit c = true
  · by_cases hf : (b.channel c).fade.fstate = .completed
    · by_cases hc : c' = c <;> simp [hp, hf, hc, channel_fadeClear]
    · simp [hp, hf]
  · simp [hp]

theorem channel_waveLoad (b : Block) (c c' : Fin Config.maxChannels) :
    (b.waveLoad c).channel c' =
      if c' = c then { b.channel c with dutyWave := (b.channel c).dutyActive } else b.channel c' :=
  channel_setChannel ..

@[simp] theorem waveLoad_timer (b : Block) (c : Fin Config.maxChannels) (t : Fin Config.maxTimers) :
    (b.waveLoad c).timer t = b.timer t := rfl
@[simp] theorem waveLoad_timers (b : Block) (c : Fin Config.maxChannels) : (b.waveLoad c).timers = b.timers := rfl
@[simp] theorem waveLoad_intStatus (b : Block) (c : Fin Config.maxChannels) :
    (b.waveLoad c).intStatus = b.intStatus := rfl
@[simp] theorem waveLoad_pendingBit (b : Block) (c c' : Fin Config.maxChannels) :
    (b.waveLoad c).pendingBit c' = b.pendingBit c' := rfl

/-! ### Entering and leaving the interrupt -/

theorem enterInterrupt_next {s u : State} (h : enterInterrupt s = .next u) :
    s.host.isrRunning = false ∧ s.host.registration ≠ none ∧ s.block.irq = true ∧
      u = { s with host := { s.host with isrRunning := true } } := by
  unfold enterInterrupt at h
  split at h
  · cases h
  · split at h
    · cases h
    · split at h
      · exact ⟨by simp_all, ‹_›, ‹_›, by simpa using h.symm⟩
      · cases h

theorem leaveInterrupt_next {s u : State} (h : leaveInterrupt s = .next u) :
    s.host.isrRunning = true ∧ u = { s with host := { s.host with isrRunning := false } } := by
  unfold leaveInterrupt at h
  split at h
  · exact ⟨‹_›, by simpa using h.symm⟩
  · cases h

theorem endMain_next {s u : State} (h : endMain s = .next u) :
    s.host.isrRunning = false ∧ s.host.mainEnded = false ∧ u = { s with host := { s.host with mainEnded := true } } := by
  unfold endMain at h
  split at h
  · cases h
  · split at h
    · cases h
    · exact ⟨by simp_all, by simp_all, by simpa using h.symm⟩

/-- `register` changes the host agent only, and its Isr not. -/
theorem registerHandler_next {line : Nat} {handler : Option Nat} {context : Nat} {s u : State}
    (h : registerHandler line handler context s = .next u) :
    ∃ reg res, u = { s with host := { s.host with registration := reg, registerResult := some res } } ∧
      (reg = s.host.registration ∨ ∃ k, handler = some k ∧ reg = some ⟨line, k, context⟩) := by
  unfold registerHandler at h
  split at h
  · exact ⟨_, _, by simpa using h.symm, .inl rfl⟩
  · split at h
    · exact ⟨_, _, by simpa using h.symm, .inr ⟨_, rfl, rfl⟩⟩
    · exact ⟨_, _, by simpa using h.symm, .inl rfl⟩

/-! ### The divider -/

theorem computeDivider_some {p : Config.Params} {s r f d : Nat} (h : computeDivider p s r f = some d) :
    f ≠ 0 ∧ d = roundHalfUp (s * 2 ^ p.fracBits) (f * 2 ^ r) ∧ 2 ^ p.fracBits ≤ d ∧ d < 2 ^ p.divBits := by
  unfold computeDivider at h
  split at h
  · cases h
  · simp only at h
    split at h
    · cases h
    · split at h
      · cases h
      · cases h; exact ⟨‹_›, rfl, by omega, by omega⟩

end Sys2Proof.Machine
end

