-- ==== Sys2Proof/Laws/Wrap.lean ====
section
/-! SUPPORT. What a fade step and the loops of `Wrap(t)` and INT_CLEAR make of each slot. -/

namespace Sys2Proof.Machine

/-- Whether the fade tick now due is the one that performs a step (44_fade_engine.md R158). -/
def Fade.stepDue (f : Fade) : Bool := decide (f.tickCnt.toNat + 1 = f.faTicks.toNat)

/-- Whether the fade tick now due completes the ramp (44_fade_engine.md R160). -/
def Fade.completesNow (f : Fade) : Bool := f.stepDue && decide (f.stepsRem.toNat ≤ 1)

/-- The channel after one fade tick, given the largest in-range duty. -/
def Channel.afterFadeTick (C : Channel) (maxDuty : Nat) : Channel :=
  if C.fade.stepDue then
    let duty : Duty := BitVec.ofNat 20 (rampStep C.fade.faDir C.dutyActive.toNat C.fade.faScale.toNat maxDuty)
    if C.fade.stepsRem.toNat ≤ 1 then
      { C with dutyActive := duty, fade := { C.fade with fstate := .completed, tickCnt := 0, stepsRem := 0 } }
    else
      { C with
        dutyActive := duty
        fade := { C.fade with tickCnt := 0, stepsRem := BitVec.ofNat 10 (C.fade.stepsRem.toNat - 1) } }
  else { C with fade := { C.fade with tickCnt := BitVec.ofNat 10 (C.fade.tickCnt.toNat + 1) } }

/-- A fade step is one write of the channel slot, and the pending bit where the ramp completes. -/
theorem fadeStep_eq (b : Block) (c : Fin Config.maxChannels) :
    b.fadeStep c =
      if (b.channel c).fade.completesNow then
        (b.setChannel c ((b.channel c).afterFadeTick (b.maxDuty c))).raisePending c
      else b.setChannel c ((b.channel c).afterFadeTick (b.maxDuty c)) := by
  unfold Block.fadeStep Fade.completesNow Channel.afterFadeTick Fade.stepDue
  by_cases h1 : (b.channel c).fade.tickCnt.toNat + 1 = (b.channel c).fade.faTicks.toNat
  · by_cases h2 : (b.channel c).fade.stepsRem.toNat ≤ 1
    · simp [h1, h2]
    · simp [h1, h2, show ¬ (b.channel c).fade.stepsRem.toNat - 1 = 0 by omega]
  · simp [h1]

/-- A bound channel after a wrap of its timer. -/
def Channel.afterWrap (C : Channel) (maxDuty : Nat) : Channel :=
  let C' := if C.fade.fstate = .running then C.afterFadeTick maxDuty else C
  { C' with dutyWave := C'.dutyActive }

/-- One round of the wrap loop: the timers are untouched. -/
@[simp] theorem wrapChannel_timers (t : Fin Config.maxTimers) (b : Block) (c : Fin Config.maxChannels) :
    (b.wrapChannel t c).timers = b.timers := by
  unfold Block.wrapChannel
  split
  · split <;> simp [fadeStep_eq]
    split <;> simp
  · rfl

@[simp] theorem wrapChannel_timer (t : Fin Config.maxTimers) (b : Block) (c : Fin Config.maxChannels)
    (t' : Fin Config.maxTimers) : (b.wrapChannel t c).timer t' = b.timer t' := by
  simp [Block.timer]

/-- One round of the wrap loop writes only the round's own channel. -/
theorem channel_wrapChannel (t : Fin Config.maxTimers) (b : Block) (c c' : Fin Config.maxChannels) :
    (b.wrapChannel t c).channel c' =
      if c' = c ∧ b.bound c t = true then (b.channel c).afterWrap (b.maxDuty c) else b.channel c' := by
  unfold Block.wrapChannel Channel.afterWrap
  by_cases hb : b.bound c t = true
  · by_cases hr : (b.channel c).fade.fstate = .running
    · by_cases hd : (b.channel c).fade.completesNow = true <;>
        by_cases hc : c' = c <;> simp [hb, hr, hd, hc, channel_waveLoad, fadeStep_eq, channel_setChannel]
    · by_cases hc : c' = c <;> simp [hb, hr, hc, channel_waveLoad]
  · simp [hb]

/-- One round of the wrap loop raises at most the round's own pending bit. -/
theorem wrapChannel_pendingBit (t : Fin Config.maxTimers) (b : Block) (c c' : Fin Config.maxChannels) :
    (b.wrapChannel t c).pendingBit c' =
      (b.pendingBit c' || decide (c' = c ∧ b.bound c t = true ∧ (b.channel c).fade.fstate = .running ∧
        (b.channel c).fade.completesNow = true)) := by
  unfold Block.wrapChannel
  by_cases hb : b.bound c t = true
  · by_cases hr : (b.channel c).fade.fstate = .running
    · by_cases hd : (b.channel c).fade.completesNow = true <;>
        by_cases hc : c' = c <;> simp [hb, hr, hd, hc, fadeStep_eq]
    · simp [hb, hr]
  · simp [hb]

/-- The largest in-range duty of a channel depends on that channel's binding and on the timers alone. -/
theorem maxDuty_congr {a b : Block} {c : Fin Config.maxChannels} (ht : a.timers = b.timers)
    (hc : (a.channel c).tsel = (b.channel c).tsel) : a.maxDuty c = b.maxDuty c := by
  simp [Block.maxDuty, Block.boundTimer, Block.timer, ht, hc]

theorem bound_congr {a b : Block} {c : Fin Config.maxChannels} (t : Fin Config.maxTimers)
    (hc : a.channel c = b.channel c) : a.bound c t = b.bound c t := by
  simp [Block.bound, hc]

/-- The wrap loop over any list of channels without repeats treats each channel by itself
(41_timer.md R118, 92_eei_decisions.md D42). -/
theorem foldl_wrapChannel (t : Fin Config.maxTimers) (cs : List (Fin Config.maxChannels)) (hn : cs.Nodup) (b : Block) :
    (cs.foldl (Block.wrapChannel t) b).timers = b.timers ∧
    (∀ c, (cs.foldl (Block.wrapChannel t) b).channel c =
      if c ∈ cs ∧ b.bound c t = true then (b.channel c).afterWrap (b.maxDuty c) else b.channel c) ∧
    (∀ c, (cs.foldl (Block.wrapChannel t) b).pendingBit c =
      (b.pendingBit c || decide (c ∈ cs ∧ b.bound c t = true ∧ (b.channel c).fade.fstate = .running ∧
        (b.channel c).fade.completesNow = true))) := by
  induction cs generalizing b with
  | nil => simp
  | cons d cs ih =>
    obtain ⟨hd, hn⟩ := List.nodup_cons.mp hn
    obtain ⟨h1, h2, h3⟩ := ih hn (b.wrapChannel t d)
    refine ⟨by simpa using h1, fun c => ?_, fun c => ?_⟩
    · rw [List.foldl_cons, h2]
      by_cases hc : c = d
      · subst hc
        simp [hd, channel_wrapChannel]
      · have he : (b.wrapChannel t d).channel c = b.channel c := by simp [channel_wrapChannel, hc]
        rw [bound_congr t he, maxDuty_congr (wrapChannel_timers t b d) (by rw [he]), he]
        simp [hc]
    · rw [List.foldl_cons, h3, wrapChannel_pendingBit]
      by_cases hc : c = d
      · subst hc
        simp [hd]
      · have he : (b.wrapChannel t d).channel c = b.channel c := by simp [channel_wrapChannel, hc]
        rw [bound_congr t he, he]
        simp [hc]

/-- The divider load writes one field of one timer. -/
theorem timer_loadDivider (t t' : Fin Config.maxTimers) (b : Block) :
    (b.loadDivider t).timer t' = if t' = t then { b.timer t with divRun := (b.timer t).div } else b.timer t' :=
  timer_setTimer ..

@[simp] theorem loadDivider_channel (t : Fin Config.maxTimers) (b : Block) (c : Fin Config.maxChannels) :
    (b.loadDivider t).channel c = b.channel c := rfl
@[simp] theorem loadDivider_bound (t t' : Fin Config.maxTimers) (b : Block) (c : Fin Config.maxChannels) :
    (b.loadDivider t).bound c t' = b.bound c t' := rfl
@[simp] theorem loadDivider_pendingBit (t : Fin Config.maxTimers) (b : Block) (c : Fin Config.maxChannels) :
    (b.loadDivider t).pendingBit c = b.pendingBit c := rfl

@[simp] theorem loadDivider_maxDuty (t : Fin Config.maxTimers) (b : Block) (c : Fin Config.maxChannels) :
    (b.loadDivider t).maxDuty c = b.maxDuty c := by
  simp only [Block.maxDuty, Block.boundTimer, loadDivider_channel, timer_loadDivider, Timer.period]
  split
  · rename_i h; rw [h]
  · rfl

/-- `Wrap(t)`, slot by slot: the timers. -/
theorem wrap_timer (t t' : Fin Config.maxTimers) (b : Block) :
    (b.wrap t).timer t' = if t' = t then { b.timer t with divRun := (b.timer t).div } else b.timer t' := by
  rw [← timer_loadDivider]
  simp only [Block.wrap, Block.timer, (foldl_wrapChannel t Config.channelIds channelIds_nodup (b.loadDivider t)).1]

/-- `Wrap(t)`, slot by slot: the channels. -/
theorem wrap_channel (t : Fin Config.maxTimers) (b : Block) (c : Fin Config.maxChannels) :
    (b.wrap t).channel c =
      if b.bound c t = true then (b.channel c).afterWrap (b.maxDuty c) else b.channel c := by
  simpa [Block.wrap, mem_channelIds] using
    (foldl_wrapChannel t Config.channelIds channelIds_nodup (b.loadDivider t)).2.1 c

/-- `Wrap(t)`, slot by slot: the status bits. -/
theorem wrap_pendingBit (t : Fin Config.maxTimers) (b : Block) (c : Fin Config.maxChannels) :
    (b.wrap t).pendingBit c =
      (b.pendingBit c || decide (b.bound c t = true ∧ (b.channel c).fade.fstate = .running ∧
        (b.channel c).fade.completesNow = true)) := by
  simpa [Block.wrap, mem_channelIds] using
    (foldl_wrapChannel t Config.channelIds channelIds_nodup (b.loadDivider t)).2.2 c

/-! ### The loop of INT_CLEAR -/

theorem clearRound_eq (mask : Mask) (b : Block) (c : Fin Config.maxChannels) :
    b.clearRound mask c = if mask.getLsbD c.val then b.acknowledge c else b := rfl

/-- INT_CLEAR's loop over any list of channels without repeats treats each channel by itself
(45_interrupt_dispatcher.md R176). -/
theorem foldl_clearRound (mask : Mask) (cs : List (Fin Config.maxChannels)) (hn : cs.Nodup) (b : Block) :
    (cs.foldl (Block.clearRound mask) b).timers = b.timers ∧
    (∀ c, (cs.foldl (Block.clearRound mask) b).channel c =
      if c ∈ cs ∧ mask.getLsbD c.val = true ∧ b.pendingBit c = true ∧ (b.channel c).fade.fstate = .completed then
        { b.channel c with fade := Fade.cleared } else b.channel c) ∧
    (∀ c, (cs.foldl (Block.clearRound mask) b).pendingBit c =
      (b.pendingBit c && !decide (c ∈ cs ∧ mask.getLsbD c.val = true))) := by
  induction cs generalizing b with
  | nil => simp
  | cons d cs ih =>
    obtain ⟨hd, hn⟩ := List.nodup_cons.mp hn
    obtain ⟨h1, h2, h3⟩ := ih hn (b.clearRound mask d)
    refine ⟨?_, fun c => ?_, fun c => ?_⟩
    · rw [List.foldl_cons, h1, clearRound_eq]; split <;> simp
    · rw [List.foldl_cons, h2, clearRound_eq]
      by_cases hm : mask.getLsbD d.val = true
      · rw [if_pos hm]
        by_cases hc : c = d
        · subst hc; simp only [hd, hm, channel_acknowledge, List.mem_cons, true_or, true_and, false_and, if_false]
        · simp [hc, channel_acknowledge]
      · rw [if_neg hm]
        by_cases hc : c = d
        · subst hc; simp only [hm, Bool.false_eq_true, false_and, and_false, if_false]
        · simp [hc]
    · rw [List.foldl_cons, h3, clearRound_eq]
      by_cases hm : mask.getLsbD d.val = true
      · rw [if_pos hm, acknowledge_pendingBit]
        by_cases hc : c = d
        · subst hc; simp only [hm, List.mem_cons, true_or, and_true, decide_true, Bool.not_true, Bool.and_false,
            Bool.false_and]
        · simp [hc]
      · rw [if_neg hm]
        by_cases hc : c = d
        · subst hc; simp only [hm, Bool.false_eq_true, and_false]
        · simp [hc]

end Sys2Proof.Machine
end

