-- ==== Sys2Proof/Laws/Exec.lean ====
section
/-! SUPPORT. One inversion lemma per command: what block its next state holds. -/

namespace Sys2Proof.Machine

theorem respond_block {st : Status} {v : Value} {b : Block} {s u : State} (h : respond st v b s = .next u) :
    u.block = b := by rw [respond_next h]

theorem raiseError_block {st : Status} {s u : State} (h : raiseError st s = .next u) : u.block = s.block :=
  respond_block h

theorem resolutionInRange_iff {p : Config.Params} {res : Nat} :
    resolutionInRange p res = true ↔ p.resMin ≤ res ∧ res ≤ p.resMax := decide_eq_true_iff

theorem dividerInRange_iff {p : Config.Params} {div : Nat} :
    dividerInRange p div = true ↔ 2 ^ p.fracBits ≤ div ∧ div < 2 ^ p.divBits := decide_eq_true_iff

theorem configured_iff {T : Timer} : T.configured = true ↔ T.run ≠ .reset := by simp [Timer.configured]

theorem execDivcalc_block {res : Nat} {src : ClockSource} {freq : Nat} {s u : State}
    (h : execDivcalc res src freq s = .next u) : u.block = s.block := by
  unfold execDivcalc at h
  split at h
  · exact raiseError_block h
  · exact respond_block h

theorem execTConfig_block {tid res : Nat} {src : ClockSource} {freq : Nat} {s u : State}
    (h : execTConfig tid res src freq s = .next u) :
    u.block = s.block ∨ ∃ t d, tid = t.val ∧ t.val < s.params.numTimers ∧ s.params.resMin ≤ res ∧ res ≤ s.params.resMax ∧
      computeDivider s.params (srcFreq s.params src) res freq = some d ∧ u.block = s.block.configureTimer t res src d := by
  unfold execTConfig at h
  rcases timerIndex_cases s.params tid with e | ⟨t, ht, hn, e⟩ <;> rw [e] at h <;> simp only at h
  · exact .inl (raiseError_block h)
  · split at h
    · exact .inl (raiseError_block h)
    · split at h
      · exact .inl (raiseError_block h)
      · split at h
        · exact .inl (raiseError_block h)
        · rename_i hr _ _ d hd
          have hr := resolutionInRange_iff.mp (by simpa using hr)
          exact .inr ⟨t, d, ht, hn, hr.1, hr.2, hd, respond_block h⟩

theorem execTSetfreq_block {tid freq : Nat} {s u : State} (h : execTSetfreq tid freq s = .next u) :
    u.block = s.block ∨ ∃ t d, tid = t.val ∧ t.val < s.params.numTimers ∧ (s.block.timer t).run ≠ .reset ∧ 2 ^ s.params.fracBits ≤ d ∧ d < 2 ^ s.params.divBits ∧
      u.block = s.block.setTimer t { s.block.timer t with div := BitVec.ofNat 32 d } := by
  unfold execTSetfreq at h
  rcases timerIndex_cases s.params tid with e | ⟨t, ht, hn, e⟩ <;> rw [e] at h <;> simp only at h
  · exact .inl (raiseError_block h)
  · split at h
    · exact .inl (raiseError_block h)
    · split at h
      · exact .inl (raiseError_block h)
      · split at h
        · exact .inl (raiseError_block h)
        · rename_i hc _ _ d hd
          obtain ⟨_, _, h1, h2⟩ := computeDivider_some hd
          exact .inr ⟨t, d, ht, hn, configured_iff.mp (by simpa using hc), h1, h2, respond_block h⟩

theorem execTGetfreq_block {tid : Nat} {s u : State} (h : execTGetfreq tid s = .next u) : u.block = s.block := by
  unfold execTGetfreq at h
  rcases timerIndex_cases s.params tid with e | ⟨t, _, _, e⟩ <;> rw [e] at h <;> simp only at h
  · exact respond_block h
  · split at h <;> exact respond_block h

theorem execTReset_block {tid : Nat} {s u : State} (h : execTReset tid s = .next u) :
    u.block = s.block ∨ ∃ t, tid = t.val ∧ t.val < s.params.numTimers ∧ u.block = s.block.setTimer t { s.block.timer t with cnt := 0 } := by
  unfold execTReset at h
  rcases timerIndex_cases s.params tid with e | ⟨t, ht, hn, e⟩ <;> rw [e] at h <;> simp only at h
  · exact .inl (raiseError_block h)
  · exact .inr ⟨t, ht, hn, respond_block h⟩

theorem execTPause_block {tid : Nat} {s u : State} (h : execTPause tid s = .next u) :
    u.block = s.block ∨ ∃ t, tid = t.val ∧ t.val < s.params.numTimers ∧
      u.block = s.block.setTimer t { s.block.timer t with run := (s.block.timer t).run.afterPause } := by
  unfold execTPause at h
  rcases timerIndex_cases s.params tid with e | ⟨t, ht, hn, e⟩ <;> rw [e] at h <;> simp only at h
  · exact .inl (raiseError_block h)
  · exact .inr ⟨t, ht, hn, respond_block h⟩

theorem execTResume_block {tid : Nat} {s u : State} (h : execTResume tid s = .next u) :
    u.block = s.block ∨ ∃ t, tid = t.val ∧ t.val < s.params.numTimers ∧
      u.block = s.block.setTimer t { s.block.timer t with run := (s.block.timer t).run.afterResume } := by
  unfold execTResume at h
  rcases timerIndex_cases s.params tid with e | ⟨t, ht, hn, e⟩ <;> rw [e] at h <;> simp only at h
  · exact .inl (raiseError_block h)
  · exact .inr ⟨t, ht, hn, respond_block h⟩

theorem execTSetraw_block {tid res : Nat} {src : ClockSource} {div : Nat} {s u : State}
    (h : execTSetraw tid res src div s = .next u) :
    u.block = s.block ∨ ∃ t, tid = t.val ∧ t.val < s.params.numTimers ∧ s.params.resMin ≤ res ∧ res ≤ s.params.resMax ∧ 2 ^ s.params.fracBits ≤ div ∧ div < 2 ^ s.params.divBits ∧
      u.block = s.block.configureTimer t res src div := by
  unfold execTSetraw at h
  rcases timerIndex_cases s.params tid with e | ⟨t, ht, hn, e⟩ <;> rw [e] at h <;> simp only at h
  · exact .inl (raiseError_block h)
  · split at h
    · exact .inl (raiseError_block h)
    · split at h
      · exact .inl (raiseError_block h)
      · rename_i hr hd
        have hr := resolutionInRange_iff.mp (by simpa using hr)
        have hd := dividerInRange_iff.mp (by simpa using hd)
        exact .inr ⟨t, ht, hn, hr.1, hr.2, hd.1, hd.2, respond_block h⟩

theorem execCConfig_block {cid tid : Nat} {pin : PinId} {idle inten : Bool} {duty : Nat} {s u : State}
    (h : execCConfig cid tid pin idle inten duty s = .next u) :
    u.block = s.block ∨ ∃ c t, cid = c.val ∧ tid = t.val ∧ c.val < s.params.numChannels ∧ t.val < s.params.numTimers ∧ (s.block.timer t).run ≠ .reset ∧
      duty ≤ (s.block.timer t).period - 1 ∧
      u.block = s.block.setChannel c
        { cfg := true, en := true, tsel := t, pin := pin, idle := idle, inten := inten,
          dutyShadow := BitVec.ofNat 20 duty, dutyActive := BitVec.ofNat 20 duty,
          dutyWave := BitVec.ofNat 20 duty, fade := Fade.cleared } := by
  unfold execCConfig at h
  rcases channelIndex_cases s.params cid with e | ⟨c, hc, hcn, e⟩ <;> rw [e] at h <;> simp only at h
  · exact .inl (raiseError_block h)
  · rcases timerIndex_cases s.params tid with e | ⟨t, ht, hn, e⟩ <;> rw [e] at h <;> simp only at h
    · exact .inl (raiseError_block h)
    · split at h
      · exact .inl (raiseError_block h)
      · split at h
        · exact .inl (raiseError_block h)
        · rename_i hr hd
          refine .inr ⟨c, t, hc, ht, hcn, hn, configured_iff.mp (by simpa using hr), Nat.not_lt.mp hd, ?_⟩
          rw [respond_block h]
          simp [Block.fadeClear, Block.setChannel, Block.channel]

theorem execCSetduty_block {cid duty : Nat} {s u : State} (h : execCSetduty cid duty s = .next u) :
    u.block = s.block ∨ ∃ c, cid = c.val ∧ c.val < s.params.numChannels ∧ (s.block.channel c).cfg = true ∧ duty ≤ s.block.maxDuty c ∧
      u.block = s.block.setChannel c { s.block.channel c with dutyShadow := BitVec.ofNat 20 duty } := by
  unfold execCSetduty at h
  rcases channelIndex_cases s.params cid with e | ⟨c, hc, hcn, e⟩ <;> rw [e] at h <;> simp only at h
  · exact .inl (raiseError_block h)
  · split at h
    · exact .inl (raiseError_block h)
    · split at h
      · exact .inl (raiseError_block h)
      · rename_i hg hd
        exact .inr ⟨c, hc, hcn, by simpa using hg, Nat.not_lt.mp hd, respond_block h⟩

theorem execCGetduty_block {cid : Nat} {s u : State} (h : execCGetduty cid s = .next u) : u.block = s.block := by
  unfold execCGetduty at h
  rcases channelIndex_cases s.params cid with e | ⟨t, _, _, e⟩ <;> rw [e] at h <;> simp only at h
  · exact respond_block h
  · split at h <;> exact respond_block h

theorem execCStop_block {cid : Nat} {idle : Bool} {s u : State} (h : execCStop cid idle s = .next u) :
    u.block = s.block ∨ ∃ c, cid = c.val ∧ c.val < s.params.numChannels ∧
      u.block = s.block.setChannel c { s.block.channel c with en := false, idle := idle, fade := Fade.cleared } := by
  unfold execCStop at h
  rcases channelIndex_cases s.params cid with e | ⟨c, hc, hcn, e⟩ <;> rw [e] at h <;> simp only at h
  · exact .inl (raiseError_block h)
  · refine .inr ⟨c, hc, hcn, ?_⟩
    rw [respond_block h]
    simp [Block.fadeClear, Block.setChannel, Block.channel]

theorem execCBind_block {cid tid : Nat} {s u : State} (h : execCBind cid tid s = .next u) :
    u.block = s.block ∨ ∃ c t, cid = c.val ∧ tid = t.val ∧ c.val < s.params.numChannels ∧ t.val < s.params.numTimers ∧ (s.block.channel c).cfg = true ∧
      (s.block.timer t).run ≠ .reset ∧ u.block = s.block.setChannel c { s.block.channel c with tsel := t } := by
  unfold execCBind at h
  rcases channelIndex_cases s.params cid with e | ⟨c, hc, hcn, e⟩ <;> rw [e] at h <;> simp only at h
  · exact .inl (raiseError_block h)
  · split at h
    · exact .inl (raiseError_block h)
    · rcases timerIndex_cases s.params tid with e | ⟨t, ht, hn, e⟩ <;> rw [e] at h <;> simp only at h
      · exact .inl (raiseError_block h)
      · split at h
        · exact .inl (raiseError_block h)
        · rename_i hg hr
          exact .inr ⟨c, t, hc, ht, hcn, hn, by simpa using hg, configured_iff.mp (by simpa using hr), respond_block h⟩

theorem execCommit_block {cid : Nat} {s u : State} (h : execCommit cid s = .next u) :
    u.block = s.block ∨ ∃ c, cid = c.val ∧ c.val < s.params.numChannels ∧ (s.block.channel c).cfg = true ∧
      u.block = s.block.setChannel c (s.block.channel c).committed := by
  unfold execCommit at h
  rcases channelIndex_cases s.params cid with e | ⟨c, hc, hcn, e⟩ <;> rw [e] at h <;> simp only at h
  · exact .inl (raiseError_block h)
  · split at h
    · exact .inl (raiseError_block h)
    · rename_i hg
      exact .inr ⟨c, hc, hcn, by simpa using hg, respond_block h⟩

theorem execFArm_block {cid : Nat} {dir : Direction} {steps ticks scale start : Nat} {s u : State}
    (h : execFArm cid dir steps ticks scale start s = .next u) :
    u.block = s.block ∨ ∃ c, cid = c.val ∧ c.val < s.params.numChannels ∧ (s.block.channel c).cfg = true ∧
      (s.block.channel c).fade.fstate ≠ .running ∧ (s.block.channel c).fade.fstate ≠ .completed ∧
      start ≤ s.block.maxDuty c ∧ steps ≠ 0 ∧ ticks ≠ 0 ∧
      rampInRange (s.block.maxDuty c) dir steps scale start = true ∧
      u.block = s.block.setChannel c { s.block.channel c with
        fade := { (s.block.channel c).fade with
          fstate := .armed, fsStart := BitVec.ofNat 20 start, fsDir := dir, fsSteps := BitVec.ofNat 10 steps,
          fsTicks := BitVec.ofNat 10 ticks, fsScale := BitVec.ofNat 10 scale } } := by
  unfold execFArm at h
  rcases channelIndex_cases s.params cid with e | ⟨c, hc, hcn, e⟩ <;> rw [e] at h <;> simp only at h
  · exact .inl (raiseError_block h)
  · split at h
    · exact .inl (raiseError_block h)
    · split at h
      · exact .inl (raiseError_block h)
      · split at h
        · exact .inl (raiseError_block h)
        · split at h
          · exact .inl (raiseError_block h)
          · split at h
            · exact .inl (raiseError_block h)
            · rename_i hg hf hs hz hr
              exact .inr ⟨c, hc, hcn, by simpa using hg, fun e => hf (.inl e), fun e => hf (.inr e), Nat.not_lt.mp hs,
                fun e => hz (.inl e), fun e => hz (.inr e), by simpa using hr, respond_block h⟩

theorem execFCancel_block {cid : Nat} {s u : State} (h : execFCancel cid s = .next u) :
    u.block = s.block ∨ ∃ c, cid = c.val ∧ c.val < s.params.numChannels ∧
      ((s.block.channel c).fade.fstate = .armed ∨ (s.block.channel c).fade.fstate = .running) ∧
      u.block = s.block.fadeClear c := by
  unfold execFCancel at h
  rcases channelIndex_cases s.params cid with e | ⟨c, hc, hcn, e⟩ <;> rw [e] at h <;> simp only at h
  · exact .inl (raiseError_block h)
  · split at h
    · exact .inr ⟨c, hc, hcn, .inl ‹_›, respond_block h⟩
    · exact .inr ⟨c, hc, hcn, .inr ‹_›, respond_block h⟩
    · exact .inl (respond_block h)
    · exact .inl (respond_block h)

theorem execIntStatus_block {s u : State} (h : execIntStatus s = .next u) : u.block = s.block := respond_block h

theorem execIntClear_block {mask : Mask} {s u : State} (h : execIntClear mask s = .next u) :
    u.block = Config.channelIds.foldl (Block.clearRound mask) s.block := respond_block h

end Sys2Proof.Machine
end

