-- ==== Sys2Proof/Laws/PerInstr.lean ====
section
/-! SUPPORT. Statements about every command as syntax, one lemma per constructor of `Instr`. -/

namespace Sys2Proof.Laws.EncodeOpcode

/-- The encoder puts the command's own opcode into `W[63:56]`: no operand that fits its field reaches the opcode byte
(30_encoding.md R80, R81). -/
def Statement (i : Instr) : Prop := i.wf = true → field (encode i) 63 56 = i.opcode.code

/-- An operand part below `2^56` leaves the opcode byte to the opcode. -/
theorem opcode_of_lt {op : Opcode} {n : Nat} (h : n < 2 ^ 56) :
    field (BitVec.ofNat 64 (place op.code 56 + n)) 63 56 = op.code := by
  cases op <;> simp only [field, place, Opcode.code, BitVec.toNat_ofNat] <;> omega

theorem of_operands {i : Instr} (h : i.wf = true → i.operandBits < 2 ^ 56) : Statement i :=
  fun hw => opcode_of_lt (h hw)

theorem divcalc (res : Nat) (src : ClockSource) (freq : Nat) : Statement (.divcalc res src freq) := by
  refine of_operands fun hw => ?_
  have := src.code_le
  simp only [Instr.wf, Bool.and_eq_true, resFits_iff, imm32Fits_iff] at hw
  simp only [Instr.operandBits, place]
  omega

theorem tConfig (tid res : Nat) (src : ClockSource) (freq : Nat) : Statement (.tConfig tid res src freq) := by
  refine of_operands fun hw => ?_
  have := src.code_le
  simp only [Instr.wf, Bool.and_eq_true, indexFits_iff, resFits_iff, imm32Fits_iff] at hw
  simp only [Instr.operandBits, place]
  omega

theorem tSetfreq (tid freq : Nat) : Statement (.tSetfreq tid freq) := by
  refine of_operands fun hw => ?_
  simp only [Instr.wf, Bool.and_eq_true, indexFits_iff, imm32Fits_iff] at hw
  simp only [Instr.operandBits, place]
  omega

theorem tGetfreq (tid : Nat) : Statement (.tGetfreq tid) := by
  refine of_operands fun hw => ?_
  simp only [Instr.wf, indexFits_iff] at hw
  simp only [Instr.operandBits, place]
  omega

theorem tReset (tid : Nat) : Statement (.tReset tid) := by
  refine of_operands fun hw => ?_
  simp only [Instr.wf, indexFits_iff] at hw
  simp only [Instr.operandBits, place]
  omega

theorem tPause (tid : Nat) : Statement (.tPause tid) := by
  refine of_operands fun hw => ?_
  simp only [Instr.wf, indexFits_iff] at hw
  simp only [Instr.operandBits, place]
  omega

theorem tResume (tid : Nat) : Statement (.tResume tid) := by
  refine of_operands fun hw => ?_
  simp only [Instr.wf, indexFits_iff] at hw
  simp only [Instr.operandBits, place]
  omega

theorem tSetraw (tid res : Nat) (src : ClockSource) (div : Nat) : Statement (.tSetraw tid res src div) := by
  refine of_operands fun hw => ?_
  have := src.code_le
  simp only [Instr.wf, Bool.and_eq_true, indexFits_iff, resFits_iff, imm32Fits_iff] at hw
  simp only [Instr.operandBits, place]
  omega

theorem cConfig (cid tid : Nat) (pin : PinId) (idle inten : Bool) (duty : Nat) : Statement (.cConfig cid tid pin idle inten duty) := by
  refine of_operands fun hw => ?_
  have := Bool.toNat_le idle
  have := Bool.toNat_le inten
  have := pin.isLt
  simp only [Instr.wf, Bool.and_eq_true, indexFits_iff, imm32Fits_iff] at hw
  simp only [Instr.operandBits, place]
  omega

theorem cSetduty (cid duty : Nat) : Statement (.cSetduty cid duty) := by
  refine of_operands fun hw => ?_
  simp only [Instr.wf, Bool.and_eq_true, indexFits_iff, imm32Fits_iff] at hw
  simp only [Instr.operandBits, place]
  omega

theorem cGetduty (cid : Nat) : Statement (.cGetduty cid) := by
  refine of_operands fun hw => ?_
  simp only [Instr.wf, indexFits_iff] at hw
  simp only [Instr.operandBits, place]
  omega

theorem cStop (cid : Nat) (idle : Bool) : Statement (.cStop cid idle) := by
  refine of_operands fun hw => ?_
  have := Bool.toNat_le idle
  simp only [Instr.wf, indexFits_iff] at hw
  simp only [Instr.operandBits, place]
  omega

theorem cBind (cid tid : Nat) : Statement (.cBind cid tid) := by
  refine of_operands fun hw => ?_
  simp only [Instr.wf, Bool.and_eq_true, indexFits_iff] at hw
  simp only [Instr.operandBits, place]
  omega

theorem commit (cid : Nat) : Statement (.commit cid) := by
  refine of_operands fun hw => ?_
  simp only [Instr.wf, indexFits_iff] at hw
  simp only [Instr.operandBits, place]
  omega

theorem fArm (cid : Nat) (dir : Direction) (steps ticks scale start : Nat) : Statement (.fArm cid dir steps ticks scale start) := by
  refine of_operands fun hw => ?_
  have := dir.code_le
  simp only [Instr.wf, Bool.and_eq_true, indexFits_iff, fadeFits_iff, startFits_iff] at hw
  simp only [Instr.operandBits, place]
  omega

theorem fCancel (cid : Nat) : Statement (.fCancel cid) := by
  refine of_operands fun hw => ?_
  simp only [Instr.wf, indexFits_iff] at hw
  simp only [Instr.operandBits, place]
  omega

theorem intStatus : Statement (.intStatus) := by
  exact of_operands fun _ => by decide

theorem intClear (mask : Mask) : Statement (.intClear mask) := by
  exact of_operands fun _ => lt_trans mask.isLt (by decide)

end Sys2Proof.Laws.EncodeOpcode
end

