-- ==== Sys2Proof/Laws/Step.lean ====
section
/-! SUPPORT. What a step can do, once. -/

namespace Sys2Proof.Machine

theorem dequeued_eq_advance {s : State} {m : Config.Move} {rest : List Config.Move} (h : s.pending = m :: rest) :
    s.advance = s.dequeued rest := by simp [State.advance, State.dequeued, h]

theorem step_cons {s : State} {m : Config.Move} {rest : List Config.Move} (h : s.pending = m :: rest) :
    step s = takeMove m (s.dequeued rest) := by
  rw [← dequeued_eq_advance h, step, takeNextMove, h]

@[simp] theorem dequeued_block (s : State) (rest : List Config.Move) : (s.dequeued rest).block = s.block := rfl
@[simp] theorem dequeued_host (s : State) (rest : List Config.Move) : (s.dequeued rest).host = s.host := rfl
@[simp] theorem dequeued_pending (s : State) (rest : List Config.Move) : (s.dequeued rest).pending = rest := rfl
@[simp] theorem dequeued_params (s : State) (rest : List Config.Move) : (s.dequeued rest).params = s.params := rfl

/-- A step makes the drawn move, or, with an empty queue, nothing. -/
theorem step_next {s u : State} (h : step s = .next u) :
    takeMove s.drawnMove s.advance = .next u ∨ (s.pending = [] ∧ u = s.advance) := by
  unfold step takeNextMove at h
  unfold State.drawnMove
  split at h
  · rename_i m rest hp
    simp only [hp, List.headD_cons]
    exact .inl h
  · rename_i hp
    simp only [hp, List.headD_nil]
    split at h
    · exact .inl (by simp_all)
    · exact .inr ⟨trivial, by simpa using h.symm⟩
    · exact .inr ⟨trivial, by simpa using h.symm⟩

/-- What the block can be after a step: unchanged, or what a decoded command, an enabled tick, or the reset makes. -/
theorem step_block {s u : State} (h : step s = .next u) :
    u.block = s.block ∨
    (∃ i, s.Issues i ∧ exec i s.advance = .next u) ∨
    (∃ t, s.drawnMove = .tick t ∧ s.block.tickEnabled t = true ∧ u.block = s.block.tick t) ∨
    (s.drawnMove = .reset ∧ u.block = Block.reset) := by
  rcases step_next h with h | ⟨_, rfl⟩
  · have transact_next : ∀ ctx w, s.drawnMove = .command ctx w → transact w s.advance = .next u →
        u.block = s.block ∨ ∃ i, s.Issues i ∧ exec i s.advance = .next u := by
      intro ctx w hm ht
      unfold transact at ht
      split at ht
      · exact .inr ⟨_, ⟨ctx, w, hm, ‹_›⟩, ht⟩
      · exact .inl (by simpa using raiseError_block ht)
    cases hm : s.drawnMove with
    | command ctx w =>
      rw [hm] at h
      have : u.block = s.block ∨ ∃ i, s.Issues i ∧ exec i s.advance = .next u := by
        cases ctx with
        | main =>
          simp only [takeMove, hostTransact] at h
          split at h
          · cases h
          · split at h
            · cases h
            · exact transact_next _ w hm h
        | isr =>
          simp only [takeMove, hostTransact] at h
          split at h
          · exact transact_next _ w hm h
          · cases h
      rcases this with h' | h'
      · exact .inl h'
      · exact .inr (.inl h')
    | tick t =>
      rw [hm] at h
      simp only [takeMove, tickMove] at h
      split at h
      · cases h; exact .inr (.inr (.inl ⟨t, rfl, ‹_›, rfl⟩))
      · cases h
    | reset => rw [hm] at h; cases h; exact .inr (.inr (.inr ⟨rfl, rfl⟩))
    | register line handler context =>
      rw [hm] at h
      obtain ⟨_, _, rfl, _⟩ := registerHandler_next h
      exact .inl rfl
    | enterIsr => rw [hm] at h; rw [(enterInterrupt_next h).2.2.2]; exact .inl rfl
    | leaveIsr => rw [hm] at h; rw [(leaveInterrupt_next h).2]; exact .inl rfl
    | endMain => rw [hm] at h; rw [(endMain_next h).2.2]; exact .inl rfl
  · exact .inl rfl

/-! ### A tick, slot by slot -/

/-- A tick of timer `t` leaves every other timer alone. -/
theorem tick_timer_ne {t t' : Fin Config.maxTimers} (b : Block) (h : t' ≠ t) : (b.tick t).timer t' = b.timer t' := by
  unfold Block.tick
  split <;> simp [wrap_timer, timer_setTimer, h]

/-- A tick of timer `t` makes of that timer one of two values. -/
theorem tick_timer_same (t : Fin Config.maxTimers) (b : Block) :
    (b.tick t).timer t =
      if b.atWrap t then { b.timer t with cnt := 0, divRun := (b.timer t).div }
      else { b.timer t with cnt := BitVec.ofNat 20 ((b.timer t).cnt.toNat + 1) } := by
  unfold Block.tick
  split <;> simp [wrap_timer]

/-- A write of the counter leaves the range of every channel's duty alone. -/
theorem maxDuty_setTimer {b : Block} {t : Fin Config.maxTimers} {T : Timer} (h : T.res = (b.timer t).res)
    (c : Fin Config.maxChannels) : (b.setTimer t T).maxDuty c = b.maxDuty c := by
  simp only [Block.maxDuty, Block.boundTimer, setTimer_channel, timer_setTimer, Timer.period]
  split
  · rename_i h'; rw [h, h']
  · rfl

/-- A tick of timer `t` changes a channel only at a wrap of the timer it is bound to. -/
theorem tick_channel (t : Fin Config.maxTimers) (b : Block) (c : Fin Config.maxChannels) :
    (b.tick t).channel c =
      if b.atWrap t = true ∧ b.bound c t = true then (b.channel c).afterWrap (b.maxDuty c) else b.channel c := by
  unfold Block.tick
  by_cases h : b.atWrap t = true
  · simp only [h, if_true, wrap_channel, true_and, setTimer_bound, setTimer_channel]
    rw [maxDuty_setTimer (b := b) (t := t) (T := { b.timer t with cnt := 0 }) rfl]
    rfl
  · simp [h]

/-- A tick of timer `t` raises a status bit only at a wrap of the bound timer whose fade tick completes the ramp. -/
theorem tick_pendingBit (t : Fin Config.maxTimers) (b : Block) (c : Fin Config.maxChannels) :
    (b.tick t).pendingBit c =
      (b.pendingBit c || decide (b.atWrap t = true ∧ b.bound c t = true ∧ (b.channel c).fade.fstate = .running ∧
        (b.channel c).fade.completesNow = true)) := by
  unfold Block.tick
  by_cases h : b.atWrap t = true
  · simp only [h, if_true, wrap_pendingBit, true_and]
    rfl
  · simp [h]

end Sys2Proof.Machine
end

