-- ==== Sys2Proof/Tests/Slice0.lean ====
section
/-! SUPPORT. Small tests of the model on fixed values. The expected values are those of 95_test_vectors.md and
96_test_vectors_part2.md (cited row by row), or are worked out by hand from the rule named. -/

namespace Sys2Proof.Tests

open Sys2Proof.Machine

/-! ### Well-formedness: one ill-formed term for each check -/

theorem test_wf_refuses_wide_index : (Instr.tReset 16).wf = false ∧ (Instr.cBind 0 16).wf = false := by decide
theorem test_wf_refuses_wide_res : (Instr.tConfig 0 32 .busClk 1).wf = false := by decide
theorem test_wf_refuses_wide_imm32 : (Instr.cSetduty 0 4294967296).wf = false := by decide
theorem test_wf_refuses_wide_fade_field :
    (Instr.fArm 0 .increase 1024 1 1 0).wf = false ∧ (Instr.fArm 0 .increase 1 1024 1 0).wf = false ∧
    (Instr.fArm 0 .increase 1 1 1024 0).wf = false := by decide
theorem test_wf_refuses_wide_start : (Instr.fArm 0 .decrease 1 1 1 1048576).wf = false := by decide
theorem test_wf_accepts_field_maxima :
    (Instr.fArm 15 .increase 1023 1023 1023 1048575).wf = true ∧ (Instr.tConfig 15 31 .busClk 4294967295).wf = true := by
  decide

/-! ### Decoding: a word of every constructor (96_test_vectors_part2.md, section 2.7) -/

theorem test_decode_divcalc : decode 0x010FC000FFFFFFFF = .ok (.divcalc 31 .busClk 4294967295) := by decide
theorem test_decode_tConfig : decode 0x1037C00012345678 = .ok (.tConfig 3 15 .busClk 305419896) := by decide
theorem test_decode_tSetfreq : decode 0x1130000089ABCDEF = .ok (.tSetfreq 3 2309737967) := by decide
theorem test_decode_tGetfreq : decode 0x1230000000000000 = .ok (.tGetfreq 3) := by decide
theorem test_decode_tReset : decode 0x1320000000000000 = .ok (.tReset 2) := by decide
theorem test_decode_tPause : decode 0x1410000000000000 = .ok (.tPause 1) := by decide
theorem test_decode_tResume : decode 0x15F0000000000000 = .ok (.tResume 15) := by decide
theorem test_decode_tSetraw : decode 0x163500000003FFFF = .ok (.tSetraw 3 10 .refTick 262143) := by decide
theorem test_decode_cConfig :
    decode 0x2073A5C000007FFF = .ok (.cConfig 7 3 165 true true 32767) ∧
    decode 0x2073A54000007FFF = .ok (.cConfig 7 3 165 false true 32767) ∧
    decode 0x2073A58000007FFF = .ok (.cConfig 7 3 165 true false 32767) := by decide
theorem test_decode_cSetduty : decode 0x2170000000007FFF = .ok (.cSetduty 7 32767) := by decide
theorem test_decode_cGetduty : decode 0x2270000000000000 = .ok (.cGetduty 7) := by decide
theorem test_decode_cStop :
    decode 0x2370008000000000 = .ok (.cStop 7 true) ∧ decode 0x2370000000000000 = .ok (.cStop 7 false) := by decide
theorem test_decode_cBind : decode 0x2473000000000000 = .ok (.cBind 7 3) := by decide
theorem test_decode_commit : decode 0x3070000000000000 = .ok (.commit 7) := by decide
theorem test_decode_fArm :
    decode 0x407BFF0000000000 = .ok (.fArm 7 .increase 1023 0 0 0) ∧
    decode 0x407000FFC0000000 = .ok (.fArm 7 .decrease 0 1023 0 0) ∧
    decode 0x407000003FF00000 = .ok (.fArm 7 .decrease 0 0 1023 0) ∧
    decode 0x40700000000FFFFF = .ok (.fArm 7 .decrease 0 0 0 1048575) := by decide
theorem test_decode_fCancel : decode 0x4170000000000000 = .ok (.fCancel 7) := by decide
theorem test_decode_intStatus : decode 0x5000000000000000 = .ok .intStatus := by decide
theorem test_decode_intClear :
    decode 0x510000000000FFFF = .ok (.intClear 0xFFFF) ∧ decode 0x5100000000000081 = .ok (.intClear 0x0081) := by decide

/-- The illegal words of section 2.7 with a reserved opcode. -/
theorem test_decode_reserved :
    ([0x0000000000000000, 0xFFFFFFFFFFFFFFFF, 0x0200000000000000, 0x1700000000000000, 0x2500000000000000,
      0x3100000000000000, 0x4200000000000000, 0x5200000000000000, 0x8000000000000000] : List Word).all
      (fun w => decode w == .error (.reservedOpcode (field w 63 56))) = true := by decide

/-- The illegal words of section 2.7 with a 1 in a must-be-zero bit. -/
theorem test_decode_must_be_zero :
    ([0x01164000000003E8, 0x10064001000003E8, 0x10066000000003E8, 0x11000001000003E8, 0x1200000000000001,
      0x1408000000000000, 0x2000002000000000, 0x2101000000000005, 0x2200000080000000, 0x230000C000000000,
      0x2300010000000000, 0x2401800000000000, 0x3000000000000010, 0x400C010040100000, 0x4100000000100000,
      0x5010000000000000, 0x5100000000010001] : List Word).all
      (fun w => match decode w with
        | .error (.mustBeZero _) => true
        | .error (.reservedOpcode _) => false
        | .error (.notOneWord _) => false
        | .ok _ => false) = true := by decide

/-- 20_memory.md R62: least significant byte first. -/
theorem test_decodeBytes_little_endian :
    decodeBytes [0xE8, 0x03, 0x00, 0x00, 0x00, 0x40, 0x06, 0x01] = .ok (.divcalc 12 .busClk 1000) := by decide

theorem test_decodeBytes_whole_word_only : decodeBytes [0x01, 0x02] = .error (.notOneWord 2) := by decide

/-- 96_test_vectors_part2.md: the words of program P3, rows 4 and 20. -/
theorem test_encode_fArm :
    encode (.fArm 3 .increase 4 2 50 100) = 0x4038040083200064 ∧
    encode (.fArm 3 .decrease 3 1 100 300) = 0x403003004640012C := by decide

theorem test_table_word : decodeTableWord 64 0x1325000000000000 = none ∧
    decodeTableWord 64 0x1320000000000000 = some (.tReset 2) := by decide

/-! ### The states of the tests -/

/-- The state after an outcome, and the state before it where there is none. -/
def settle (s : State) : Host.Outcome State Fault Refusal → State
  | .next u => u
  | .fault _ => s
  | .refused _ => s

/-- Commands executed one after the other. -/
def cmds (is : List Instr) (s : State) : State := is.foldl (fun s i => settle s (exec i s)) s

/-- The counter of timer `t` put at its last count, so that one tick wraps it. -/
def atEnd (t : Fin Config.maxTimers) (s : State) : State :=
  s.setBlock (s.block.setTimer t { s.block.timer t with cnt := BitVec.ofNat 20 ((s.block.timer t).period - 1) })

/-- One tick of timer `t`. -/
def tickOnce (t : Fin Config.maxTimers) (s : State) : State := settle s (tickMove t s)

/-- The counter of timer `t` runs to its end and wraps, `n` times. -/
def wraps (t : Fin Config.maxTimers) : Nat → State → State
  | 0, s => s
  | n + 1, s => wraps t n (tickOnce t (atEnd t s))

/-- The response of the last transaction. -/
def answer (is : List Instr) (s : State) : Option Word := (cmds is s).response

/-- A machine with these slots 0 and status bits, everything else as after reset. -/
def slots (T : Timer) (C : Channel) (bits : IntBits) : State :=
  { State.reset with
    block := { timers := (Vector.replicate Config.maxTimers Timer.reset).set 0 T
               channels := (Vector.replicate Config.maxChannels Channel.reset).set 0 C
               intStatus := bits } }

/-- A Running timer of 10 bits at 5000 Hz, at count `n`. -/
def timer10 (n : Duty) : Timer :=
  { run := .running, res := 10, src := .busClk, div := 4000, divRun := 4000, cnt := n }

/-- A configured channel on timer 0, with its interrupt enabled, shadow duty 500, these duties and this fade. -/
def chan (active wave : Duty) (f : Fade) : Channel :=
  { cfg := true, en := true, tsel := 0, pin := 0, idle := false, inten := true, dutyShadow := 500,
    dutyActive := active, dutyWave := wave, fade := f }

/-- The upward ramp of 96_test_vectors_part2.md 2.5, staged: 3 steps of 2 ticks and size 10, from 40. -/
def staged : Fade :=
  { Fade.cleared with fstate := .armed, fsStart := 40, fsDir := .increase, fsSteps := 3, fsTicks := 2, fsScale := 10 }

/-- That ramp in progress. -/
def ramp (st : FadeState) (left ticks : FadeCount) : Fade :=
  { staged with fstate := st, faDir := .increase, faTicks := 2, faScale := 10, stepsRem := left, tickCnt := ticks }

/-- A 10-bit timer 0 at 5000 Hz and channel 0 on it at duty 500 (the start of 2.5). -/
def base : State := slots (timer10 0) (chan 500 500 Fade.cleared) 0

/-- The ramp Armed. -/
def armed : State := slots (timer10 0) (chan 500 500 staged) 0

/-- The ramp Running, just committed (2.5, `k = 0`). -/
def running : State := slots (timer10 0) (chan 40 500 (ramp .running 3 0)) 0

/-- The ramp before its last fade tick (2.5, `k = 5`), the counter at its last count. -/
def lastTick : State := slots (timer10 1023) (chan 60 60 (ramp .running 1 1)) 0

/-- The ramp Completed (2.5, `k = 6`), its status bit pending. -/
def completed : State := slots (timer10 0) (chan 70 70 (ramp .completed 0 0)) 1

/-- Timer 0 Paused. -/
def pausedState : State := cmds [.tPause 0] base

/-- A state with one move queued. -/
def queued (m : Config.Move) (s : State) : State := { s with pending := [m], response := none }

/-- `base` with the host's handler running. -/
def inHandler (s : State) : State := { s with host := { s.host with isrRunning := true } }

/-- `completed` with a handler registered. -/
def registered (s : State) : State := { s with host := { s.host with registration := some ⟨1, 2, 3⟩ } }

/-! ### One command each -/

/-- 95_test_vectors.md 2.1: an exact quotient, a tie that rounds up, and a divider below 1. -/
theorem test_divcalc :
    answer [.divcalc 12 .busClk 1000] State.reset = some 0x0000000000001388 ∧
    answer [.divcalc 10 .refTick 800] State.reset = some 0x0000000000000139 ∧
    answer [.divcalc 10 .refTick 1000] State.reset = some 0x0200000000000000 := by decide

/-- 95_test_vectors.md 2.1: the smallest divider, and the sentence of R107 on a zero frequency. -/
theorem test_divcalc_bounds :
    computeDivider Config.defaultParams 80000000 10 78277 = some 256 ∧ computeDivider Config.defaultParams 80000000 10 76 = none ∧
    answer [.divcalc 10 .busClk 0] State.reset = some 0x0200000000000000 := by decide

/-- 41_timer.md R110, worked example. -/
theorem test_tConfig :
    (cmds [.tConfig 0 12 .busClk 1000] State.reset).block.timer 0 =
      { run := .running, res := 12, src := .busClk, div := 5000, divRun := 5000, cnt := 0 } := by decide

/-- 95_test_vectors.md 2.2, rows 10 to 12. -/
theorem test_tConfig_errors :
    answer [.tConfig 4 10 .busClk 5000] State.reset = some 0x0100000000000000 ∧
    answer [.tConfig 0 10 .busClk 0] State.reset = some 0x0100000000000000 ∧
    answer [.tConfig 0 10 .refTick 1000] State.reset = some 0x0200000000000000 := by decide

/-- 95_test_vectors.md 2.2, row 15: only `div` is written. -/
theorem test_tSetfreq :
    (cmds [.tSetfreq 0 2500] base).block.timer 0 =
      { run := .running, res := 10, src := .busClk, div := 8000, divRun := 4000, cnt := 0 } := by decide

/-- 95_test_vectors.md 2.2, rows 3 and 17. -/
theorem test_tSetfreq_errors :
    answer [.tSetfreq 0 1000] State.reset = some 0x0100000000000000 ∧
    answer [.tSetfreq 0 76] base = some 0x0200000000000000 := by decide

/-- 95_test_vectors.md 2.2, rows 1, 2 and 16. -/
theorem test_tGetfreq :
    answer [.tGetfreq 0] State.reset = some 0 ∧ answer [.tGetfreq 4] State.reset = some 0 ∧
    answer [.tSetfreq 0 2500, .tGetfreq 0] base = some 2500 := by decide

/-- 95_test_vectors.md 2.2, rows 25 and 26: the counter is forced to 0 and no wrap happens. -/
theorem test_tReset :
    let s := cmds [.tSetfreq 0 2500, .tReset 0] (tickOnce 0 base)
    (s.block.timer 0).cnt = 0 ∧ (s.block.timer 0).divRun = 4000 := by decide

/-- 95_test_vectors.md 2.2, rows 4, 7 and 19. -/
theorem test_tPause :
    (pausedState.block.timer 0).run = .paused ∧
    ((cmds [.tPause 1] base).block.timer 1) = Timer.reset ∧
    answer [.tPause 4] base = some 0x0100000000000000 := by decide

/-- 95_test_vectors.md 2.2, rows 5, 8 and 22. -/
theorem test_tResume :
    ((cmds [.tResume 0] pausedState).block.timer 0).run = .running ∧
    ((cmds [.tResume 1] base).block.timer 1) = Timer.reset ∧
    answer [.tResume 15] base = some 0x0100000000000000 := by decide

/-- 95_test_vectors.md 2.2, rows 31 and 32: the largest divider reads back as 0 Hz. -/
theorem test_tSetraw :
    (cmds [.tSetraw 2 15 .refTick 262143] base).block.timer 2 =
      { run := .running, res := 15, src := .refTick, div := 262143, divRun := 262143, cnt := 0 } ∧
    answer [.tSetraw 2 15 .refTick 262143, .tGetfreq 2] base = some 0 := by decide

/-- 95_test_vectors.md 2.2, rows 29 and 30. -/
theorem test_tSetraw_errors :
    answer [.tSetraw 2 10 .refTick 255] base = some 0x0100000000000000 ∧
    answer [.tSetraw 2 10 .refTick 262144] base = some 0x0100000000000000 ∧
    answer [.tSetraw 2 16 .refTick 500] base = some 0x0100000000000000 := by decide

/-- 95_test_vectors.md 2.3, row 14. -/
theorem test_cConfig :
    (cmds [.cConfig 3 0 255 true true 1023] base).block.channel 3 =
      { cfg := true, en := true, tsel := 0, pin := 255, idle := true, inten := true, dutyShadow := 1023,
        dutyActive := 1023, dutyWave := 1023, fade := Fade.cleared } := by decide

/-- 95_test_vectors.md 2.3, rows 11, 12 and 13. -/
theorem test_cConfig_errors :
    answer [.cConfig 8 0 0 false false 0] base = some 0x0100000000000000 ∧
    answer [.cConfig 3 4 0 false false 0] base = some 0x0100000000000000 ∧
    answer [.cConfig 3 0 7 false false 1024] base = some 0x0100000000000000 := by decide

/-- 95_test_vectors.md E3: the shadow alone is written. -/
theorem test_cSetduty :
    let C := (cmds [.cSetduty 0 700] base).block.channel 0
    C.dutyShadow = 700 ∧ C.dutyActive = 500 ∧ C.dutyWave = 500 := by decide

/-- 95_test_vectors.md 2.3, rows 3 and 15. -/
theorem test_cSetduty_errors :
    answer [.cSetduty 3 0] base = some 0x0100000000000000 ∧
    answer [.cSetduty 0 1024] base = some 0x0100000000000000 := by decide

/-- 95_test_vectors.md 2.3, rows 1 and 2. -/
theorem test_cGetduty :
    answer [.cGetduty 0] base = some 500 ∧ answer [.cGetduty 3] base = some 0x00000000FFFFFFFF ∧
    answer [.cGetduty 8] base = some 0x00000000FFFFFFFF := by decide

/-- 95_test_vectors.md 2.3, row 7: accepted on an unconfigured channel. -/
theorem test_cStop_unconfigured :
    (cmds [.cStop 3 true] State.reset).block.channel 3 = { Channel.reset with idle := true } := by decide

/-- 42_channel.md R133: a stop cancels the fade; the output takes the idle level at once. -/
theorem test_cStop :
    ((cmds [.cStop 0 true] running).block.channel 0).fade = Fade.cleared ∧
    (cmds [.cStop 0 true] running).out 0 = true := by decide

/-- 95_test_vectors.md 2.3, rows 20 to 22: no duty is altered. -/
theorem test_cBind :
    answer [.cBind 0 2] base = some 0x0100000000000000 ∧
    (cmds [.tConfig 1 12 .busClk 1000, .cBind 0 1] base).block.channel 0 =
      { base.block.channel 0 with tsel := 1 } := by decide

/-- 95_test_vectors.md E4: the promotion is immediate, the latch waits. -/
theorem test_commit_idle :
    let C := (cmds [.cSetduty 0 700, .commit 0] base).block.channel 0
    C.dutyActive = 700 ∧ C.dutyWave = 500 := by decide

/-- 96_test_vectors_part2.md 2.5: the COMMIT that starts a ramp. -/
theorem test_commit_armed : (cmds [.commit 0] armed).block = running.block := by decide

/-- The two commands that make `base` (96_test_vectors_part2.md, start of 2.5). -/
theorem test_base :
    (cmds [.tConfig 0 10 .busClk 5000, .cConfig 0 0 0 false true 500] State.reset).block = base.block := by decide

/-- 96_test_vectors_part2.md 2.5: arming stages the five parameters. -/
theorem test_fArm_stages : (cmds [.fArm 0 .increase 3 2 10 40] base).block = armed.block := by decide

/-- 96_test_vectors_part2.md 2.5, rows 6, 7 and 8: both ends of the range exactly reached, and one above. -/
theorem test_fArm_range :
    answer [.fArm 0 .increase 10 1 100 23] base = some 0 ∧
    answer [.fArm 0 .increase 10 1 100 24] base = some 0x0100000000000000 ∧
    answer [.fArm 0 .decrease 10 1 100 1000] base = some 0 := by decide

/-- 96_test_vectors_part2.md 2.5: rejected while Running and while Completed. -/
theorem test_fArm_states :
    answer [.fArm 0 .increase 1 1 1 0] running = some 0x0100000000000000 ∧
    answer [.fArm 0 .increase 1 1 1 0] completed = some 0x0100000000000000 := by decide

/-- 96_test_vectors_part2.md 2.5, row 13, and corner case 2: a cancel while Completed changes nothing. -/
theorem test_fCancel :
    ((cmds [.fCancel 0] armed).block.channel 0).fade = Fade.cleared ∧
    (cmds [.fCancel 0] completed).block = completed.block := by decide

/-- 96_test_vectors_part2.md 2.6, rows 3 and 4, for the one channel of `completed`. -/
theorem test_intStatus :
    answer [.intStatus] completed = some 1 ∧ answer [.intStatus, .intStatus] completed = some 1 := by decide

/-- 96_test_vectors_part2.md 2.6, rows 6 and 8: foreign mask bits are ignored; the acknowledgment ends the fade. -/
theorem test_intClear :
    (cmds [.intClear 0xFF28] completed).block = completed.block ∧
    (let b := (cmds [.intClear 0x0001] completed).block
     b.intStatus = 0 ∧ (b.channel 0).fade = Fade.cleared ∧ (b.channel 0).dutyActive = 70) := by decide

/-! ### Hardware steps -/

/-- 41_timer.md R117, R118: the wrap, with a pending divider (95_test_vectors.md 2.2, row 24). -/
theorem test_wrap_loads_divider :
    (wraps 0 1 (cmds [.tSetfreq 0 2500] base)).block.timer 0 =
      { run := .running, res := 10, src := .busClk, div := 8000, divRun := 8000, cnt := 0 } := by decide

/-- 96_test_vectors_part2.md 2.5, the step table, `k = 1` and `k = 2`. -/
theorem test_fade_ticks :
    ((wraps 0 1 running).block.channel 0).dutyActive = 40 ∧ ((wraps 0 1 running).block.channel 0).dutyWave = 40 ∧
    ((wraps 0 2 running).block.channel 0).dutyActive = 50 ∧
    ((wraps 0 2 running).block.channel 0).fade.stepsRem = 2 := by decide

/-- 96_test_vectors_part2.md 2.5, the step table, `k = 6`. -/
theorem test_fade_completes :
    (tickOnce 0 lastTick).block = completed.block ∧ completed.block.irq = true := by decide

/-- 96_test_vectors_part2.md 2.5, saturation: 800 + 400 clamps at 1023, and a decrease below 0 clamps at 0. -/
theorem test_fade_saturates : rampStep .increase 800 400 1023 = 1023 ∧ rampStep .decrease 30 40 1023 = 0 := by decide

/-- 95_test_vectors.md 2.4, rows 2 to 4, at duty 500: high below the duty, low from it on. -/
theorem test_out :
    base.out 0 = true ∧
    (base.setBlock (base.block.setTimer 0 { base.block.timer 0 with cnt := 499 })).out 0 = true ∧
    (base.setBlock (base.block.setTimer 0 { base.block.timer 0 with cnt := 500 })).out 0 = false := by decide

/-- 96_test_vectors_part2.md 2.6, last paragraph: a disabled source raises no request. -/
theorem test_irq_masked :
    (wraps 0 1 (cmds [.cConfig 0 0 0 false false 0, .fArm 0 .increase 1 1 1 0, .commit 0] base)).block.irq = false ∧
    (wraps 0 1 (cmds [.cConfig 0 0 0 false false 0, .fArm 0 .increase 1 1 1 0, .commit 0] base)).block.intStatus = 1 := by
  decide

/-- 41_timer.md R117: there is no tick of a Paused timer. -/
theorem test_no_tick_when_paused :
    (match step (queued (.tick 0) pausedState) with
      | .fault r => r == .tickNotEnabled 0
      | .next _ => false
      | .refused _ => false) = true := by decide

/-- 70_reset_and_hazards.md R210. -/
theorem test_reset_step : (settle completed (step (queued .reset completed))).block = Block.reset := by decide

/-- 70_reset_and_hazards.md R229: after its last command `Host.Main` issues nothing, and the host may still place a word. -/
theorem test_main_ended :
    let s := settle base (step (queued .endMain base))
    s.host.mainEnded = true ∧
    (match step (queued (.command .main 0x3000000000000000) s) with
      | .refused r => r == .mainHasEnded
      | .next _ => false
      | .fault _ => false) = true ∧
    (settle s (step (s.withFetchWord 64 0x2200000000000000))).response = some 500 := by decide

/-- 00_scope.md R4: other parameters, within their constraints, give other bounds: a fifth timer, a 20-bit resolution, a
divider with 4 fractional bits (80 000 000 * 16 / (1 * 2^20) = 1220.7), and another sentinel. -/
def otherParams : Config.Params :=
  { numTimers := 5, numChannels := 1, resMin := 1, resMax := 20, fracBits := 4, divIntBits := 28,
    dutyErr := 0x00100000, refTick := 32768, busClk := 80000000 }

theorem test_other_params_valid : otherParams.Valid ∧ Config.defaultParams.Valid := by decide

theorem test_other_params :
    let s := { State.reset with params := otherParams }
    (cmds [.tConfig 4 20 .busClk 1] s).block.timer 4 =
      { run := .running, res := 20, src := .busClk, div := 1221, divRun := 1221, cnt := 0 } ∧
    answer [.tConfig 5 20 .busClk 1] s = some 0x0100000000000000 ∧
    answer [.cGetduty 0] s = some 0x0000000000100000 ∧ answer [.cStop 1 true] s = some 0x0100000000000000 := by decide

/-- The word that the host places is the one the next step runs: 96_test_vectors_part2.md P4, row 25. -/
theorem test_fetch_word :
    (settle State.reset (step (State.reset.withFetchWord 64 0x2270000000000000))).response = some 0x00000000FFFFFFFF := by
  decide

/-! ### A witness for the hypotheses of each obligation, clause by clause, at boundary values -/

/-- A latched duty one above the range (42_channel.md R137). -/
def outOfRange : State := slots (timer10 1023) (chan 1024 1024 Fade.cleared) 0

/-- The largest ramp in range: 23 to 1023 in 10 steps of one tick, Running. -/
def fullRamp : State :=
  slots (timer10 0) (chan 23 500 { ramp .running 10 0 with faTicks := 1, faScale := 100 }) 0

/-- A ramp down to the lower end of the range: 1000 to 0 in 10 steps of one tick, Running. -/
def downRamp : State :=
  slots (timer10 0) (chan 1000 500 { ramp .running 10 0 with faDir := .decrease, faTicks := 1, faScale := 100 }) 0

/-- A Completed fade whose channel was armed again and runs, its status bit still pending (R176 case d). -/
def rearmed : State := slots (timer10 0) (chan 40 500 (ramp .running 3 0)) 1

/-- The host's program has ended and the block is settled. -/
def finished : State := { base with host := { base.host with mainEnded := true } }

theorem running_launchOk : running.block.LaunchOk Config.defaultParams := ⟨by decide, by decide, by decide⟩
theorem lastTick_launchOk : lastTick.block.LaunchOk Config.defaultParams := ⟨by decide, by decide, by decide⟩
theorem base_launchOk : base.block.LaunchOk Config.defaultParams := ⟨by decide, by decide, by decide⟩

/-- The word of `COMMIT cid=0`. -/
def commitWord : Word := 0x3000000000000000

theorem witness_DecodeOfEncodeIsTheCommand :
    (Instr.fArm 15 .increase 1023 1023 1023 1048575).wf = true ∧
    (Instr.cConfig 15 15 255 true true 4294967295).wf = true ∧ (Instr.tSetraw 0 0 .refTick 0).wf = true := by decide

theorem witness_DecodedWordEncodesBack : decode 0x510000000000FFFF = .ok (.intClear 0xFFFF) := by decide

theorem witness_SerialisedWordDecodesAlike : ([] : List Byte).length ≠ 8 ∧ (List.replicate 9 (0 : Byte)).length ≠ 8 := by
  decide

theorem witness_ReservedOpcodeIsAnsweredInvalidArgument :
    (Opcode.all.all fun op => op.code != field 0x02FFFFFFFFFFFFFF 63 56) = true ∧
    (Opcode.all.all fun op => op.code != field 0xFE00000000000000 63 56) = true := by decide

theorem witness_MustBeZeroBitIsAnsweredInvalidArgument :
    field 0x1006400100000000 63 56 = Opcode.code .tConfig ∧ (Opcode.maskWord .tConfig).getLsbD 32 = true ∧
    (0x1006400100000000 : Word).getLsbD 32 = true := by decide

theorem witness_MustBeZeroBitIsAnsweredInvalidArgument_ends :
    (field 0x1200000000000001 63 56 = Opcode.code .tGetfreq ∧ (Opcode.maskWord .tGetfreq).getLsbD 0 = true ∧
      (0x1200000000000001 : Word).getLsbD 0 = true) ∧
    (field 0x5080000000000000 63 56 = Opcode.code .intStatus ∧ (Opcode.maskWord .intStatus).getLsbD 55 = true ∧
      (0x5080000000000000 : Word).getLsbD 55 = true) := by decide

theorem witness_StepRunsTheDecodedCommand :
    ((queued (.command .main commitWord) base).pending = [.command .main commitWord] ∧
      base.host.isrRunning = false ∧ base.host.mainEnded = false ∧ decode commitWord = .ok (.commit 0)) ∧
    ((queued (.command .isr 0) (inHandler base)).pending = [.command .isr 0] ∧
      (inHandler base).host.isrRunning = true ∧ decode 0 = .error (.reservedOpcode 0)) := by decide

theorem witness_EveryTransactionCompletes :
    answer [.commit 8] base = some (responseWord .invalidArgument 0) ∧
    answer [.intStatus] completed = some (responseWord .ok 1) := by decide

theorem witness_RejectedCommandChangesNothing :
    answer [.commit 8] base = some (responseWord .invalidArgument 0) ∧
    (pausedState.block.timer 0).run = .paused ∧
    (running.block.channel 0).cfg = true ∧ (running.block.channel 0).fade.fstate = .running := by decide

theorem witness_TickAdvancesOrWraps :
    (pausedState.block.timer 0).run ≠ .running ∧
    ((base.block.timer 0).run = .running ∧ (base.block.timer 0).cnt.toNat ≠ 2 ^ (base.block.timer 0).res.toNat - 1) ∧
    ((atEnd 0 base).block.timer 0).cnt.toNat = 2 ^ ((atEnd 0 base).block.timer 0).res.toNat - 1 ∧
    ((atEnd 0 base).block.channel 0).cfg = true ∧ ((atEnd 0 base).block.channel 0).tsel = 0 := by decide

theorem witness_ResetStepRestoresEveryField : (queued .reset base).pending = [.reset] := by decide

theorem witness_EmptyQueueNeverStops : State.reset.pending = [] := by decide

theorem witness_ComputeDividerIsTheRoundedQuotient : computeDivider Config.defaultParams 80000000 10 78277 = some 256 ∧ computeDivider Config.defaultParams 262143 8 1 = some 262143 := by
  decide

theorem witness_ReconstructedFrequencyIsRoundedAndFits :
    base.params.Valid ∧ (base.block.timer 0).Ok base.params ∧ (base.block.timer 0).run ≠ .reset := by decide

theorem witness_DividerRoundTripErrorIsBounded :
    computeDivider Config.defaultParams 80000000 10 78277 = some 256 ∧ computeDivider Config.defaultParams 262143 8 1 = some 262143 := by decide

theorem witness_DivcalcAnswersTheDivider :
    computeDivider State.reset.params (srcFreq State.reset.params .busClk) 12 1000 = some 5000 ∧
    computeDivider State.reset.params (srcFreq State.reset.params .refTick) 10 1000 = none := by decide

/-- The index clauses of the timer and channel commands, at the first index out of range and the last one in it. -/
theorem witness_index_clauses :
    State.reset.params.numTimers ≤ 4 ∧ (3 : Fin Config.maxTimers).val < State.reset.params.numTimers ∧
    State.reset.params.numChannels ≤ 8 ∧ (7 : Fin Config.maxChannels).val < State.reset.params.numChannels := by decide

theorem witness_TConfigConfiguresOneTimer :
    (computeDivider State.reset.params (srcFreq State.reset.params .refTick) 10 1000 = none) ∧
    computeDivider State.reset.params (srcFreq State.reset.params .refTick) 15 1 = some 7813 ∧
    computeDivider State.reset.params (srcFreq State.reset.params .busClk) 10 78277 = some 256 := by decide

theorem witness_TSetfreqWritesTheStoredDividerOnly :
    (base.block.timer 1).run = .reset ∧ (base.block.timer 0).run ≠ .reset ∧
    computeDivider base.params (srcFreq base.params (base.block.timer 0).src) (base.block.timer 0).res.toNat 76 = none ∧
    computeDivider base.params (srcFreq base.params (base.block.timer 0).src) (base.block.timer 0).res.toNat 77 = some 259740 := by
  decide

theorem witness_TGetfreqAnswersFrequencyOrZero : (base.block.timer 3).run = .reset ∧ (base.block.timer 0).run ≠ .reset ∧
    (pausedState.block.timer 0).run ≠ .reset := by decide

theorem witness_TSetrawLoadsTheRawDivider :
    (cmds [.tSetraw 3 15 .busClk 262143] base).response = some 0 ∧
    (cmds [.tSetraw 0 10 .refTick 256] base).response = some 0 := by decide

theorem witness_RunStateChangesOnlyAsListed :
    (∃ u, step (queued (.command .main 0x1400000000000000) base) = .next u ∧
      (u.block.timer 0).run ≠ (base.block.timer 0).run) := ⟨_, rfl, by decide⟩

theorem witness_CConfigConfiguresOneChannel :
    (base.block.timer 1).run = .reset ∧ 2 ^ (base.block.timer 0).res.toNat - 1 < 1024 ∧
    (base.block.timer 0).run ≠ .reset ∧ 1023 ≤ 2 ^ (base.block.timer 0).res.toNat - 1 := by decide

theorem witness_CSetdutyWritesTheShadowOnly :
    (base.block.channel 7).cfg = false ∧ base.block.maxDuty 0 < 1024 ∧ (base.block.channel 0).cfg = true ∧
    1023 ≤ base.block.maxDuty 0 := by decide

theorem witness_CGetdutyAnswersActiveDutyOrSentinel : (base.block.channel 7).cfg = false ∧ (base.block.channel 0).cfg = true := by decide

theorem witness_CBindWritesTheBindingOnly :
    (base.block.channel 7).cfg = false ∧ (base.block.timer 3).run = .reset ∧ (base.block.channel 0).cfg = true ∧
    (base.block.timer 0).run ≠ .reset := by decide

theorem witness_OutputFollowsIdleOrCounter :
    (base.block.channel 7).en = false ∧ (base.block.channel 0).en = true ∧
    (base.block.channel 0).dutyWave.toNat ≤ 2 ^ (base.block.boundTimer 0).res.toNat - 1 := by decide

theorem witness_OutputIsHighForDutyWaveCounts :
    let s := cmds [.tConfig 3 15 .busClk 10, .cConfig 7 3 0 false false 32767] State.reset
    (s.block.channel 7).en = true ∧ (s.block.boundTimer 7).res.toNat ≤ Config.resMaxLimit ∧
    (s.block.channel 7).dutyWave.toNat ≤ 2 ^ (s.block.boundTimer 7).res.toNat - 1 := by decide

theorem witness_OutOfRangeDutyAsWrittenIsConstantHigh :
    outOfRange.block.LaunchOk Config.defaultParams ∧ (outOfRange.block.channel 0).en = true ∧
    2 ^ (outOfRange.block.boundTimer 0).res.toNat ≤ (outOfRange.block.channel 0).dutyWave.toNat :=
  ⟨⟨by decide, by decide, by decide⟩, by decide, by decide⟩

theorem witness_CommitPromotesByFadeState :
    (base.block.channel 7).cfg = false ∧ (base.block.channel 0).cfg = true ∧
    (base.block.channel 0).fade.fstate = .idle ∧ (completed.block.channel 0).fade.fstate = .completed ∧
    (running.block.channel 0).fade.fstate = .running ∧ (armed.block.channel 0).fade.fstate = .armed := by decide

theorem witness_WaveChangesOnlyAtAWrap :
    (∃ u, step (queued (.tick 0) (atEnd 0 running)) = .next u ∧
      (u.block.channel 0).dutyWave ≠ (running.block.channel 0).dutyWave) := ⟨_, rfl, by decide⟩

/-- A committed duty that has not reached the latch, at the last count of the period and at the first. -/
def committedLate : State := slots (timer10 1023) (chan 100 500 Fade.cleared) 0

theorem witness_CommitReachesTheWaveAtTheNextWrap :
    committedLate.block.LaunchOk Config.defaultParams ∧ committedLate.block.bound 0 0 = true ∧
    (committedLate.block.channel 0).fade.fstate ≠ .running ∧
    (committedLate.block.timer 0).cnt.toNat + 1 = 2 ^ (committedLate.block.timer 0).res.toNat ∧
    (base.block.timer 0).cnt.toNat + 1024 = 2 ^ (base.block.timer 0).res.toNat :=
  ⟨⟨by decide, by decide, by decide⟩, by decide, by decide, by decide, by decide⟩

theorem witness_LastShadowWriteWins :
    (base.block.channel 0).cfg = true ∧ (base.block.channel 0).fade.fstate = .idle ∧
    (∀ d ∈ [0, 1023], d ≤ base.block.maxDuty 0) ∧ 1023 ≤ base.block.maxDuty 0 := by decide

theorem witness_WrapLoadsBoundChannelsOnly :
    running.block.bound 0 0 = true ∧ base.block.bound 0 0 = true ∧ (base.block.channel 0).fade.fstate ≠ .running ∧
    base.block.bound 0 1 = false ∧ base.block.bound 1 0 = false := by decide

theorem witness_WrapOrderDoesNotMatter :
    (Config.channelIds.reverse).Perm Config.channelIds ∧ base.block.Fits base.params ∧
    (Config.channelIds.filter fun c => decide (c.val < base.params.numChannels)) = [0, 1, 2, 3, 4, 5, 6, 7] :=
  ⟨List.reverse_perm _, by decide, by decide⟩

theorem witness_FadeTickStepsAndSaturates :
    running.block.LaunchOk Config.defaultParams ∧ lastTick.block.LaunchOk Config.defaultParams :=
  ⟨running_launchOk, lastTick_launchOk⟩

theorem witness_FadeTickStepsAndSaturates_clauses :
    running.block.bound 0 0 = true ∧ (running.block.channel 0).fade.fstate = .running ∧
    (running.block.channel 0).fade.tickCnt.toNat + 1 < (running.block.channel 0).fade.faTicks.toNat ∧
    (lastTick.block.channel 0).fade.fstate = .running ∧
    (lastTick.block.channel 0).fade.tickCnt.toNat + 1 = (lastTick.block.channel 0).fade.faTicks.toNat ∧
    (lastTick.block.channel 0).fade.stepsRem = 1 := by decide

/-- The hypotheses of the ramp statement but the first two. -/
def rampReady (b : Block) : Bool :=
  b.bound 0 0 && (b.channel 0).fade.fstate == .running && (b.channel 0).fade.tickCnt == 0 &&
  rampInRange (b.maxDuty 0) (b.channel 0).fade.faDir (b.channel 0).fade.stepsRem.toNat
    (b.channel 0).fade.faScale.toNat (b.channel 0).dutyActive.toNat

theorem witness_RampAdvancesAndCompletes :
    fullRamp.block.LaunchOk Config.defaultParams ∧ rampReady fullRamp.block = true ∧
    (fullRamp.block.channel 0).fade.faDir = .increase :=
  ⟨⟨by decide, by decide, by decide⟩, by decide, by decide⟩

theorem witness_RampAdvancesAndCompletes_down :
    downRamp.block.LaunchOk Config.defaultParams ∧ rampReady downRamp.block = true ∧
    (downRamp.block.channel 0).fade.faDir = .decrease := ⟨⟨by decide, by decide, by decide⟩, by decide, by decide⟩

theorem witness_FArmStagesTheRamp :
    (base.block.channel 7).cfg = false ∧ base.block.maxDuty 0 < 1024 ∧ base.block.maxDuty 0 < 24 + 10 * 100 ∧
    23 + 10 * 100 ≤ base.block.maxDuty 0 ∧ (base.block.channel 0).fade.fstate = .idle ∧
    (armed.block.channel 0).fade.fstate = .armed := by decide

theorem witness_FCancelFreezesTheDuty :
    (base.block.channel 0).fade.fstate = .idle ∧ (completed.block.channel 0).fade.fstate = .completed ∧
    (armed.block.channel 0).fade.fstate = .armed ∧ (running.block.channel 0).fade.fstate = .running := by decide

theorem witness_FadeStateChangesOnlyAsListed :
    (∃ u, step (queued (.command .main commitWord) armed) = .next u ∧
      (u.block.channel 0).fade.fstate ≠ (armed.block.channel 0).fade.fstate) ∧
    (∃ u, step (queued (.tick 0) lastTick) = .next u ∧
      (u.block.channel 0).fade.fstate ≠ (lastTick.block.channel 0).fade.fstate) :=
  ⟨⟨_, rfl, by decide⟩, ⟨_, rfl, by decide⟩⟩

theorem witness_IntStatusAnswersTheRawBits : completed.block.Fits completed.params ∧ completed.params.numChannels ≤ 8 := by
  decide

theorem witness_CGetdutyAnswersActiveDutyOrSentinel_sentinel :
    State.reset.params.Valid ∧ (0x7FFF : Duty).toNat < 2 ^ State.reset.params.resMax := by decide

theorem witness_IntClearAcknowledgesExactlyTheMask :
    completed.block.pendingBit 0 = true ∧ (completed.block.channel 0).fade.fstate = .completed ∧
    ¬ (completed.block.pendingBit 1 = true) := by decide

theorem witness_PendingIsSetOnlyByTheLastFadeStep :
    (∃ u, step (queued (.tick 0) lastTick) = .next u ∧ lastTick.block.pendingBit 0 = false ∧
      u.block.pendingBit 0 = true) := ⟨_, rfl, by decide, by decide⟩

theorem witness_PendingIsClearedOnlyByIntClearOrReset :
    (∃ u, step (queued (.command .main 0x5100000000000001) completed) = .next u ∧
      completed.block.pendingBit 0 = true ∧ u.block.pendingBit 0 = false) :=
  ⟨_, rfl, by decide, by decide⟩

theorem witness_EnableIsWrittenOnlyByCConfigOrReset :
    (∃ u, step (queued .reset base) = .next u ∧
      (u.block.channel 0).inten ≠ (base.block.channel 0).inten) := ⟨_, rfl, by decide⟩

theorem witness_HandlerPassServesEveryPendingChannel :
    completed.block.Inv completed.params ∧ (completed.block.channel 0).fade.fstate = .completed ∧
    completed.block.pendingBit 0 = true ∧ rearmed.block.pendingBit 0 = true ∧
    (rearmed.block.channel 0).fade.fstate = .running :=
  ⟨⟨⟨by decide, by decide, by decide⟩, by decide, by decide, by decide, by decide⟩,
    by decide, by decide, by decide, by decide⟩

theorem witness_LateCompletionIsNotLost :
    KeepsHandlerContract (lastTick.block.intStatus.setWidth 32) 0 ∧ lastTick.block.pendingBit 0 = false ∧
    completed.block.pendingBit 0 = true := by decide

theorem witness_InterruptEntryAndReturn :
    (let s := registered completed
     s.host.isrRunning = false ∧ s.host.registration ≠ none ∧ s.block.irq = true) ∧
    base.host.registration = none ∧ base.block.irq = false ∧ (inHandler base).host.isrRunning = true := by decide

theorem witness_RegisterSetsTheHostFieldsOnly :
    (queued (.register 1 none 0) base).pending = [.register 1 none 0] ∧
    (queued (.register 1 (some 7) 0) base).pending = [.register 1 (some 7) 0] := by decide

theorem witness_EveryStepKeepsTheInvariant :
    (∃ u, lastTick.launchable ∧ lastTick.block.Inv lastTick.params ∧ step (queued (.tick 0) lastTick) = .next u) :=
  ⟨_, ⟨by decide, lastTick_launchOk, by decide⟩, ⟨lastTick_launchOk, by decide, by decide, by decide, by decide⟩, rfl⟩

/-- A launch state that is not reachable from reset: an unconfigured channel with a duty and a `tsel` that names no timer
(R228 admits it: 10_state.md R24 restricts `tsel` only where `cfg = 1`). -/
theorem witness_launchable_beyond_reach :
    let s := slots (timer10 0) { Channel.reset with dutyShadow := 7, tsel := 9 } 0
    s.launchable ∧ ¬ s.block.Inv s.params :=
  ⟨⟨by decide, ⟨by decide, by decide, by decide⟩, by decide⟩,
    fun h => absurd (h.2.1 0) (by decide)⟩

/-- No launch with a configured channel bound to a timer that does not exist (10_state.md R24). -/
theorem witness_not_launchable_unbound :
    ¬ (slots (timer10 0) { Channel.reset with cfg := true, tsel := 9 } 0).launchable :=
  fun h => absurd ((h.2.1.1.2 0).1.1 rfl) (by decide)

/-- No launch while `Host.Isr` runs with no handler registered (93_implementation_defined.md U16). -/
theorem witness_not_launchable : ¬ (inHandler base).launchable ∧ (inHandler (registered base)).launchable :=
  ⟨fun h => absurd (h.2.2 rfl) (by decide), ⟨by decide, base_launchOk, by decide⟩⟩

theorem witness_NoCommandObservesHiddenState :
    base.block.AgreesOnReadable (atEnd 0 base).block ∧ base.block ≠ (atEnd 0 base).block := by decide

theorem witness_QueriesWriteNothing :
    (Instr.cGetduty 8).opcode ∈ [Opcode.divcalc, .tGetfreq, .cGetduty, .intStatus] ∧
    (Instr.cGetduty 8).opcode ≠ .divcalc := by decide

theorem witness_BothContextsHaveTheSameRights : base.host.isrRunning = false ∧ base.host.mainEnded = false := by decide

theorem witness_TickOfSettledBlockMovesTheCounterOnly : base.block.Settled ∧ base.block.tickEnabled 0 = true ∧
    (atEnd 0 base).block.Settled := by decide

theorem witness_TickOfSettledBlockMovesTheCounterOnly_over :
    (∃ u, finished.runOver ∧ (queued (.tick 0) finished).drawnMove ≠ .reset ∧ step (queued (.tick 0) finished) = .next u) :=
  ⟨_, by decide, by decide, rfl⟩

theorem witness_TickOfSettledBlockMovesTheCounterOnly_reset :
    (∃ u, (queued .reset finished).runOver ∧ (queued .reset finished).drawnMove = .reset ∧
      step (queued .reset finished) = .next u) := ⟨_, by decide, by decide, rfl⟩

end Sys2Proof.Tests
end

section
/-! Commands and the fields they cannot read (10_state.md R31, 20_memory.md R69): the slot operations keep the agreement
of two blocks on the readable fields, and every command answers alike on two such blocks. -/

namespace Sys2Proof.Machine

/-! ### What blocks that agree on the readable fields have in common -/

section Readable

variable {a b : Block}

theorem Block.AgreesOnReadable.timer_res (h : a.AgreesOnReadable b) (t : Fin Config.maxTimers) :
    (a.timer t).res = (b.timer t).res :=
  (congrArg Timer.res (h.1 t) :)

theorem Block.AgreesOnReadable.timer_src (h : a.AgreesOnReadable b) (t : Fin Config.maxTimers) :
    (a.timer t).src = (b.timer t).src :=
  (congrArg Timer.src (h.1 t) :)

theorem Block.AgreesOnReadable.timer_div (h : a.AgreesOnReadable b) (t : Fin Config.maxTimers) :
    (a.timer t).div = (b.timer t).div :=
  (congrArg Timer.div (h.1 t) :)

theorem Block.AgreesOnReadable.timer_configured (h : a.AgreesOnReadable b) (t : Fin Config.maxTimers) :
    (a.timer t).configured = (b.timer t).configured :=
  (congrArg Timer.configured (h.1 t) :)

theorem Block.AgreesOnReadable.timer_period (h : a.AgreesOnReadable b) (t : Fin Config.maxTimers) :
    (a.timer t).period = (b.timer t).period :=
  (congrArg Timer.period (h.1 t) :)

theorem Block.AgreesOnReadable.channel_cfg (h : a.AgreesOnReadable b) (c : Fin Config.maxChannels) :
    (a.channel c).cfg = (b.channel c).cfg :=
  (congrArg Channel.cfg (h.2.1 c) :)

theorem Block.AgreesOnReadable.channel_tsel (h : a.AgreesOnReadable b) (c : Fin Config.maxChannels) :
    (a.channel c).tsel = (b.channel c).tsel :=
  (congrArg Channel.tsel (h.2.1 c) :)

theorem Block.AgreesOnReadable.channel_dutyActive (h : a.AgreesOnReadable b) (c : Fin Config.maxChannels) :
    (a.channel c).dutyActive = (b.channel c).dutyActive :=
  (congrArg Channel.dutyActive (h.2.1 c) :)

theorem Block.AgreesOnReadable.channel_fstate (h : a.AgreesOnReadable b) (c : Fin Config.maxChannels) :
    (a.channel c).fade.fstate = (b.channel c).fade.fstate :=
  (congrArg (fun C : Channel => C.fade.fstate) (h.2.1 c) :)

theorem Block.AgreesOnReadable.intStatus_eq (h : a.AgreesOnReadable b) : a.intStatus = b.intStatus := h.2.2

theorem Block.AgreesOnReadable.pendingBit (h : a.AgreesOnReadable b) (c : Fin Config.maxChannels) :
    a.pendingBit c = b.pendingBit c := by
  simp only [Block.pendingBit, h.intStatus_eq]

theorem Block.AgreesOnReadable.maxDuty (h : a.AgreesOnReadable b) (c : Fin Config.maxChannels) :
    a.maxDuty c = b.maxDuty c := by
  simp only [Block.maxDuty, Block.boundTimer, h.channel_tsel, h.timer_period]

/-! ### The slot operations keep the agreement

An update `f` of a slot keeps it when the readable part of `f` depends on the readable part of the slot alone; for a
record update that writes no hidden value into a readable field this is `rfl`. -/

theorem Block.AgreesOnReadable.setTimer (h : a.AgreesOnReadable b) (t : Fin Config.maxTimers) (f : Timer → Timer)
    (hf : ∀ T : Timer, (f T).readable = (f T.readable).readable) :
    (a.setTimer t (f (a.timer t))).AgreesOnReadable (b.setTimer t (f (b.timer t))) := by
  refine ⟨fun t' => ?_, h.2.1, h.intStatus_eq⟩
  by_cases ht : t' = t
  · subst ht
    rw [timer_setTimer_same, timer_setTimer_same, hf, h.1, ← hf]
  · rw [timer_setTimer_ne _ _ ht, timer_setTimer_ne _ _ ht, h.1]

theorem Block.AgreesOnReadable.setChannel (h : a.AgreesOnReadable b) (c : Fin Config.maxChannels)
    (f : Channel → Channel) (hf : ∀ C : Channel, (f C).readable = (f C.readable).readable) :
    (a.setChannel c (f (a.channel c))).AgreesOnReadable (b.setChannel c (f (b.channel c))) := by
  refine ⟨h.1, fun c' => ?_, h.intStatus_eq⟩
  by_cases hc : c' = c
  · subst hc
    rw [channel_setChannel_same, channel_setChannel_same, hf, h.2.1, ← hf]
  · rw [channel_setChannel_ne _ _ hc, channel_setChannel_ne _ _ hc, h.2.1]

theorem Block.AgreesOnReadable.configureTimer (h : a.AgreesOnReadable b) (t : Fin Config.maxTimers) (res : Nat)
    (src : ClockSource) (div : Nat) :
    (a.configureTimer t res src div).AgreesOnReadable (b.configureTimer t res src div) :=
  h.setTimer t (fun _ => _) fun _ => rfl

theorem Block.AgreesOnReadable.fadeClear (h : a.AgreesOnReadable b) (c : Fin Config.maxChannels) :
    (a.fadeClear c).AgreesOnReadable (b.fadeClear c) :=
  h.setChannel c (fun C => { C with fade := Fade.cleared }) fun _ => rfl

theorem Block.AgreesOnReadable.clearPending (h : a.AgreesOnReadable b) (c : Fin Config.maxChannels) :
    (a.clearPending c).AgreesOnReadable (b.clearPending c) :=
  ⟨h.1, h.2.1, by simp only [Block.clearPending, h.intStatus_eq]⟩

theorem Block.AgreesOnReadable.acknowledge (h : a.AgreesOnReadable b) (c : Fin Config.maxChannels) :
    (a.acknowledge c).AgreesOnReadable (b.acknowledge c) := by
  unfold Block.acknowledge
  rw [h.pendingBit, h.channel_fstate]
  by_cases hp : b.pendingBit c = true
  · by_cases hf : (b.channel c).fade.fstate = .completed
    · simpa only [if_pos hp, if_pos hf] using (h.clearPending c).fadeClear c
    · simpa only [if_pos hp, if_neg hf] using h.clearPending c
  · simpa only [if_neg hp] using h

theorem Block.AgreesOnReadable.clearRound (h : a.AgreesOnReadable b) (mask : Mask) (c : Fin Config.maxChannels) :
    (a.clearRound mask c).AgreesOnReadable (b.clearRound mask c) := by
  rw [clearRound_eq, clearRound_eq]
  by_cases hm : mask.getLsbD c.val = true
  · simpa only [if_pos hm] using h.acknowledge c
  · simpa only [if_neg hm] using h

theorem foldl_clearRound_agreesOnReadable (mask : Mask) (cs : List (Fin Config.maxChannels)) {a b : Block}
    (h : a.AgreesOnReadable b) :
    (cs.foldl (Block.clearRound mask) a).AgreesOnReadable (cs.foldl (Block.clearRound mask) b) := by
  induction cs generalizing a b with
  | nil => exact h
  | cons c cs ih => exact ih (h.clearRound mask c)

end Readable

/-- What COMMIT leaves in the readable fields depends on the readable fields alone. -/
theorem committed_readable (C : Channel) : C.committed.readable = C.readable.committed.readable := by
  have hf : C.readable.fade.fstate = C.fade.fstate := rfl
  unfold Channel.committed
  rw [hf]
  cases C.fade.fstate <;> rfl

/-! ### Every command answers alike on them -/

/-- Both outcomes are next states with the same response, and their blocks agree on the readable fields. -/
def AnswersAlike (x y : Host.Outcome State Fault Refusal) : Prop :=
  ∃ u v : State, x = .next u ∧ y = .next v ∧ u.response = v.response ∧ u.block.AgreesOnReadable v.block

theorem respond_alike {a b : Block} (h : a.AgreesOnReadable b) (st : Status) (value : Value) (r s : State) :
    AnswersAlike (respond st value a r) (respond st value b s) := ⟨_, _, rfl, rfl, rfl, h⟩

theorem raiseError_alike {r s : State} (h : r.block.AgreesOnReadable s.block) (st : Status) :
    AnswersAlike (raiseError st r) (raiseError st s) := respond_alike h st 0 r s

/-- A check with the same result on both sides, then outcomes that are alike on either branch. -/
theorem AnswersAlike.ite {c c' : Prop} [Decidable c] [Decidable c'] {x y x' y' : Host.Outcome State Fault Refusal}
    (hc : c ↔ c') (hx : AnswersAlike x x') (hy : AnswersAlike y y') :
    AnswersAlike (if c then x else y) (if c' then x' else y') := by
  by_cases h : c
  · simpa only [if_pos h, if_pos (hc.mp h)] using hx
  · simpa only [if_neg h, if_neg (mt hc.mpr h)] using hy

/-- A check with the same result on both sides that rejects the command. -/
theorem AnswersAlike.check {c c' : Prop} [Decidable c] [Decidable c'] {r s : State} {st : Status}
    {x x' : Host.Outcome State Fault Refusal} (hb : r.block.AgreesOnReadable s.block) (hc : c ↔ c')
    (hx : AnswersAlike x x') :
    AnswersAlike (if c then raiseError st r else x) (if c' then raiseError st s else x') :=
  .ite hc (raiseError_alike hb st) hx

section Commands

variable {r s : State} (hp : r.params = s.params) (hb : r.block.AgreesOnReadable s.block)
include hp hb

theorem execDivcalc_alike (res : Nat) (src : ClockSource) (freq : Nat) :
    AnswersAlike (execDivcalc res src freq r) (execDivcalc res src freq s) := by
  unfold execDivcalc
  rw [hp]
  cases computeDivider s.params (srcFreq s.params src) res freq with
  | none => exact raiseError_alike hb _
  | some d => exact respond_alike hb _ _ _ _

theorem execTConfig_alike (tid res : Nat) (src : ClockSource) (freq : Nat) :
    AnswersAlike (execTConfig tid res src freq r) (execTConfig tid res src freq s) := by
  unfold execTConfig
  rw [hp]
  cases timerIndex s.params tid with
  | none => exact raiseError_alike hb _
  | some t =>
    refine .check hb .rfl (.check hb .rfl ?_)
    cases computeDivider s.params (srcFreq s.params src) res freq with
    | none => exact raiseError_alike hb _
    | some d => exact respond_alike (hb.configureTimer t res src d) _ _ _ _

theorem execTSetfreq_alike (tid freq : Nat) :
    AnswersAlike (execTSetfreq tid freq r) (execTSetfreq tid freq s) := by
  unfold execTSetfreq
  rw [hp]
  cases timerIndex s.params tid with
  | none => exact raiseError_alike hb _
  | some t =>
    have divider : computeDivider s.params (srcFreq s.params (r.block.timer t).src) (r.block.timer t).res.toNat freq =
        computeDivider s.params (srcFreq s.params (s.block.timer t).src) (s.block.timer t).res.toNat freq := by
      rw [hb.timer_src, hb.timer_res]
    refine .check hb (by rw [hb.timer_configured]) (.check hb .rfl ?_)
    rw [divider]
    cases computeDivider s.params (srcFreq s.params (s.block.timer t).src) (s.block.timer t).res.toNat freq with
    | none => exact raiseError_alike hb _
    | some d =>
      exact respond_alike (hb.setTimer t (fun T => { T with div := BitVec.ofNat 32 d }) fun _ => rfl) _ _ _ _

theorem execTGetfreq_alike (tid : Nat) : AnswersAlike (execTGetfreq tid r) (execTGetfreq tid s) := by
  unfold execTGetfreq
  rw [hp]
  cases timerIndex s.params tid with
  | none => exact respond_alike hb _ _ _ _
  | some t =>
    simp only [hb.timer_configured, hb.timer_src, hb.timer_res, hb.timer_div]
    exact .ite .rfl (respond_alike hb _ _ _ _) (respond_alike hb _ _ _ _)

theorem execTReset_alike (tid : Nat) : AnswersAlike (execTReset tid r) (execTReset tid s) := by
  unfold execTReset
  rw [hp]
  cases timerIndex s.params tid with
  | none => exact raiseError_alike hb _
  | some t => exact respond_alike (hb.setTimer t (fun T => { T with cnt := 0 }) fun _ => rfl) _ _ _ _

theorem execTPause_alike (tid : Nat) : AnswersAlike (execTPause tid r) (execTPause tid s) := by
  unfold execTPause
  rw [hp]
  cases timerIndex s.params tid with
  | none => exact raiseError_alike hb _
  | some t => exact respond_alike (hb.setTimer t (fun T => { T with run := T.run.afterPause }) fun _ => rfl) _ _ _ _

theorem execTResume_alike (tid : Nat) : AnswersAlike (execTResume tid r) (execTResume tid s) := by
  unfold execTResume
  rw [hp]
  cases timerIndex s.params tid with
  | none => exact raiseError_alike hb _
  | some t => exact respond_alike (hb.setTimer t (fun T => { T with run := T.run.afterResume }) fun _ => rfl) _ _ _ _

theorem execTSetraw_alike (tid res : Nat) (src : ClockSource) (div : Nat) :
    AnswersAlike (execTSetraw tid res src div r) (execTSetraw tid res src div s) := by
  unfold execTSetraw
  rw [hp]
  cases timerIndex s.params tid with
  | none => exact raiseError_alike hb _
  | some t =>
    exact .check hb .rfl (.check hb .rfl
      (respond_alike (hb.configureTimer t res src div) _ _ _ _))

theorem execCConfig_alike (cid tid : Nat) (pin : PinId) (idle inten : Bool) (duty : Nat) :
    AnswersAlike (execCConfig cid tid pin idle inten duty r) (execCConfig cid tid pin idle inten duty s) := by
  unfold execCConfig
  rw [hp]
  cases channelIndex s.params cid with
  | none => exact raiseError_alike hb _
  | some c =>
    cases timerIndex s.params tid with
    | none => exact raiseError_alike hb _
    | some t =>
      have configured := hb.setChannel c (fun C =>
        { C with
          cfg := true, en := true, tsel := t, pin := pin, idle := idle, inten := inten,
          dutyShadow := BitVec.ofNat 20 duty, dutyActive := BitVec.ofNat 20 duty,
          dutyWave := BitVec.ofNat 20 duty }) fun _ => rfl
      exact .check hb (by rw [hb.timer_configured]) (.check hb (by rw [hb.timer_period])
        (respond_alike (configured.fadeClear c) _ _ _ _))

theorem execCSetduty_alike (cid duty : Nat) :
    AnswersAlike (execCSetduty cid duty r) (execCSetduty cid duty s) := by
  unfold execCSetduty
  rw [hp]
  cases channelIndex s.params cid with
  | none => exact raiseError_alike hb _
  | some c =>
    exact .check hb (by rw [hb.channel_cfg]) (.check hb (by rw [hb.maxDuty])
      (respond_alike (hb.setChannel c (fun C => { C with dutyShadow := BitVec.ofNat 20 duty }) fun _ => rfl) _ _ _ _))

theorem execCGetduty_alike (cid : Nat) : AnswersAlike (execCGetduty cid r) (execCGetduty cid s) := by
  unfold execCGetduty
  rw [hp]
  cases channelIndex s.params cid with
  | none => exact respond_alike hb _ _ _ _
  | some c =>
    simp only [hb.channel_cfg, hb.channel_dutyActive]
    exact .ite .rfl (respond_alike hb _ _ _ _) (respond_alike hb _ _ _ _)

theorem execCStop_alike (cid : Nat) (idle : Bool) : AnswersAlike (execCStop cid idle r) (execCStop cid idle s) := by
  unfold execCStop
  rw [hp]
  cases channelIndex s.params cid with
  | none => exact raiseError_alike hb _
  | some c =>
    have stopped := hb.setChannel c (fun C => { C with en := false, idle := idle }) fun _ => rfl
    exact respond_alike (stopped.fadeClear c) _ _ _ _

theorem execCBind_alike (cid tid : Nat) : AnswersAlike (execCBind cid tid r) (execCBind cid tid s) := by
  unfold execCBind
  rw [hp]
  cases channelIndex s.params cid with
  | none => exact raiseError_alike hb _
  | some c =>
    refine .check hb (by rw [hb.channel_cfg]) ?_
    cases timerIndex s.params tid with
    | none => exact raiseError_alike hb _
    | some t =>
      exact .check hb (by rw [hb.timer_configured])
        (respond_alike (hb.setChannel c (fun C => { C with tsel := t }) fun _ => rfl) _ _ _ _)

theorem execCommit_alike (cid : Nat) : AnswersAlike (execCommit cid r) (execCommit cid s) := by
  unfold execCommit
  rw [hp]
  cases channelIndex s.params cid with
  | none => exact raiseError_alike hb _
  | some c =>
    exact .check hb (by rw [hb.channel_cfg])
      (respond_alike (hb.setChannel c Channel.committed committed_readable) _ _ _ _)

theorem execFArm_alike (cid : Nat) (dir : Direction) (steps ticks scale start : Nat) :
    AnswersAlike (execFArm cid dir steps ticks scale start r) (execFArm cid dir steps ticks scale start s) := by
  unfold execFArm
  rw [hp]
  cases channelIndex s.params cid with
  | none => exact raiseError_alike hb _
  | some c =>
    have armed := hb.setChannel c (fun C =>
      { C with
        fade := { C.fade with
          fstate := .armed, fsStart := BitVec.ofNat 20 start, fsDir := dir, fsSteps := BitVec.ofNat 10 steps,
          fsTicks := BitVec.ofNat 10 ticks, fsScale := BitVec.ofNat 10 scale } }) fun _ => rfl
    exact .check hb (by rw [hb.channel_cfg]) (.check hb (by rw [hb.channel_fstate]) (.check hb (by rw [hb.maxDuty])
      (.check hb .rfl (.check hb (by rw [hb.maxDuty]) (respond_alike armed _ _ _ _)))))

theorem execFCancel_alike (cid : Nat) : AnswersAlike (execFCancel cid r) (execFCancel cid s) := by
  unfold execFCancel
  rw [hp]
  cases channelIndex s.params cid with
  | none => exact raiseError_alike hb _
  | some c =>
    simp only [hb.channel_fstate]
    cases (s.block.channel c).fade.fstate with
    | armed => exact respond_alike (hb.fadeClear c) _ _ _ _
    | running => exact respond_alike (hb.fadeClear c) _ _ _ _
    | idle => exact respond_alike hb _ _ _ _
    | completed => exact respond_alike hb _ _ _ _

omit hp in
theorem execIntStatus_alike : AnswersAlike (execIntStatus r) (execIntStatus s) := by
  unfold execIntStatus
  rw [hb.intStatus_eq]
  exact respond_alike hb _ _ _ _

omit hp in
theorem execIntClear_alike (mask : Mask) : AnswersAlike (execIntClear mask r) (execIntClear mask s) :=
  respond_alike (foldl_clearRound_agreesOnReadable mask _ hb) _ _ _ _

theorem exec_alike (i : Instr) : AnswersAlike (exec i r) (exec i s) := by
  cases i with
  | divcalc res src freq => exact execDivcalc_alike hp hb res src freq
  | tConfig tid res src freq => exact execTConfig_alike hp hb tid res src freq
  | tSetfreq tid freq => exact execTSetfreq_alike hp hb tid freq
  | tGetfreq tid => exact execTGetfreq_alike hp hb tid
  | tReset tid => exact execTReset_alike hp hb tid
  | tPause tid => exact execTPause_alike hp hb tid
  | tResume tid => exact execTResume_alike hp hb tid
  | tSetraw tid res src div => exact execTSetraw_alike hp hb tid res src div
  | cConfig cid tid pin idle inten duty => exact execCConfig_alike hp hb cid tid pin idle inten duty
  | cSetduty cid duty => exact execCSetduty_alike hp hb cid duty
  | cGetduty cid => exact execCGetduty_alike hp hb cid
  | cStop cid idle => exact execCStop_alike hp hb cid idle
  | cBind cid tid => exact execCBind_alike hp hb cid tid
  | commit cid => exact execCommit_alike hp hb cid
  | fArm cid dir steps ticks scale start => exact execFArm_alike hp hb cid dir steps ticks scale start
  | fCancel cid => exact execFCancel_alike hp hb cid
  | intStatus => exact execIntStatus_alike hb
  | intClear mask => exact execIntClear_alike hb mask

end Commands

/-- Settles O57: each command keeps the agreement of two blocks on the readable fields and answers alike on them. -/
theorem noCommandObservesHiddenState : Obligations.NoCommandObservesHiddenState :=
  fun i _ _ hp hb => exec_alike hp hb i

end Sys2Proof.Machine
end

section
/-! The run state of a timer (10_state.md R22): which commands write it, and that no tick does. -/

namespace Sys2Proof.Machine

/-! ### Commands -/

/-- The queries and the commands on channels, fades and interrupts write no timer slot. -/
theorem exec_timers {i : Instr} {s u : State} (h : exec i s = .next u)
    (hi : i.opcode ∉ [.tConfig, .tSetfreq, .tReset, .tPause, .tResume, .tSetraw]) :
    u.block.timers = s.block.timers := by
  cases i with
  | divcalc => rw [execDivcalc_block h]
  | tGetfreq => rw [execTGetfreq_block h]
  | cConfig => obtain e | ⟨_, _, _, _, _, _, _, _, e⟩ := execCConfig_block h <;> simp [e]
  | cSetduty => obtain e | ⟨_, _, _, _, _, e⟩ := execCSetduty_block h <;> simp [e]
  | cGetduty => rw [execCGetduty_block h]
  | cStop => obtain e | ⟨_, _, _, e⟩ := execCStop_block h <;> simp [e]
  | cBind => obtain e | ⟨_, _, _, _, _, _, _, _, e⟩ := execCBind_block h <;> simp [e]
  | commit => obtain e | ⟨_, _, _, _, e⟩ := execCommit_block h <;> simp [e]
  | fArm => obtain e | ⟨_, _, _, _, _, _, _, _, _, _, e⟩ := execFArm_block h <;> simp [e]
  | fCancel => obtain e | ⟨_, _, _, _, e⟩ := execFCancel_block h <;> simp [e]
  | intStatus => rw [execIntStatus_block h]
  | intClear mask => rw [execIntClear_block h, (foldl_clearRound mask _ channelIds_nodup _).1]
  | tConfig | tSetfreq | tReset | tPause | tResume | tSetraw => simp [Instr.opcode] at hi

/-- The run-state changes of timer `t` that a command makes: the command, the state before and the state after
(10_state.md R22). -/
inductive RunTransition (t : Fin Config.maxTimers) : Instr → RunState → RunState → Prop
  | configure (res : Nat) (src : ClockSource) (freq : Nat) (old : RunState) :
      RunTransition t (.tConfig t res src freq) old .running
  | setraw (res : Nat) (src : ClockSource) (div : Nat) (old : RunState) :
      RunTransition t (.tSetraw t res src div) old .running
  | pause : RunTransition t (.tPause t) .running .paused
  | resume : RunTransition t (.tResume t) .paused .running

/-- A write of timer slot `t'` that changes the run state of timer `t` is a write of slot `t` itself. -/
theorem run_setTimer_ne {b : Block} {t t' : Fin Config.maxTimers} {T : Timer}
    (h : ((b.setTimer t' T).timer t).run ≠ (b.timer t).run) : t = t' ∧ T.run ≠ (b.timer t').run := by
  by_cases ht : t = t'
  · subst ht
    exact ⟨rfl, by simpa using h⟩
  · exact absurd (by rw [timer_setTimer_ne b T ht]) h

theorem afterPause_ne {r : RunState} (h : r.afterPause ≠ r) : r = .running := by
  cases r with
  | running => rfl
  | paused | reset => exact absurd rfl h

theorem afterResume_ne {r : RunState} (h : r.afterResume ≠ r) : r = .paused := by
  cases r with
  | paused => rfl
  | running | reset => exact absurd rfl h

/-- A command that changes the run state of timer `t` is one of the four that may. -/
theorem exec_run_ne {i : Instr} {s u : State} {t : Fin Config.maxTimers} (h : exec i s = .next u)
    (hne : (u.block.timer t).run ≠ (s.block.timer t).run) :
    RunTransition t i (s.block.timer t).run (u.block.timer t).run := by
  have changed : u.block ≠ s.block := fun e => hne (by rw [e])
  cases i with
  | tConfig tid res src freq =>
    obtain e | ⟨t', d, rfl, _, _, _, _, e⟩ := execTConfig_block h
    · exact absurd e changed
    · rw [e] at hne ⊢
      obtain ⟨rfl, _⟩ := run_setTimer_ne hne
      rw [Block.configureTimer, timer_setTimer_same]
      exact .configure res src freq _
  | tSetraw tid res src div =>
    obtain e | ⟨t', rfl, _, _, _, _, _, e⟩ := execTSetraw_block h
    · exact absurd e changed
    · rw [e] at hne ⊢
      obtain ⟨rfl, _⟩ := run_setTimer_ne hne
      rw [Block.configureTimer, timer_setTimer_same]
      exact .setraw res src div _
  | tPause tid =>
    obtain e | ⟨t', rfl, _, e⟩ := execTPause_block h
    · exact absurd e changed
    · rw [e] at hne ⊢
      obtain ⟨rfl, hr⟩ := run_setTimer_ne hne
      rw [timer_setTimer_same, afterPause_ne hr]
      exact .pause
  | tResume tid =>
    obtain e | ⟨t', rfl, _, e⟩ := execTResume_block h
    · exact absurd e changed
    · rw [e] at hne ⊢
      obtain ⟨rfl, hr⟩ := run_setTimer_ne hne
      rw [timer_setTimer_same, afterResume_ne hr]
      exact .resume
  | tSetfreq tid freq =>
    obtain e | ⟨t', d, rfl, _, _, _, _, e⟩ := execTSetfreq_block h
    · exact absurd e changed
    · rw [e] at hne
      exact absurd rfl (run_setTimer_ne hne).2
  | tReset tid =>
    obtain e | ⟨t', rfl, _, e⟩ := execTReset_block h
    · exact absurd e changed
    · rw [e] at hne
      exact absurd rfl (run_setTimer_ne hne).2
  | _ => exact absurd (by simp only [Block.timer, exec_timers h (by simp [Instr.opcode])]) hne

/-! ### Ticks -/

/-- A tick keeps every run state. -/
@[simp] theorem tick_run (t t' : Fin Config.maxTimers) (b : Block) :
    ((b.tick t).timer t').run = (b.timer t').run := by
  by_cases ht : t' = t
  · subst ht
    rw [tick_timer_same]
    split <;> rfl
  · rw [tick_timer_ne b ht]

/-- Settles O25: of what a step can make of the block, only a command and the reset change a run state. -/
theorem runStateChangesOnlyAsListed : Obligations.RunStateChangesOnlyAsListed := by
  intro s u t h hne
  obtain e | ⟨i, hi, he⟩ | ⟨t', _, _, e⟩ | ⟨hm, e⟩ := step_block h
  · exact absurd (by rw [e]) hne
  · have := exec_run_ne he hne
    rw [advance_block] at this
    generalize (s.block.timer t).run = old, (u.block.timer t).run = new at this
    cases this with
    | configure res src freq => exact .inl ⟨rfl, .inl ⟨res, src, freq, hi⟩⟩
    | setraw res src div => exact .inl ⟨rfl, .inr ⟨res, src, div, hi⟩⟩
    | pause => exact .inr (.inl ⟨rfl, rfl, hi⟩)
    | resume => exact .inr (.inr (.inl ⟨rfl, rfl, hi⟩))
  · exact absurd (by rw [e, tick_run]) hne
  · exact .inr (.inr (.inr ⟨by rw [e, reset_timer]; rfl, hm⟩))

end Sys2Proof.Machine
end

section
/-! How a command ends (00_scope.md R8, 20_memory.md R61): rejected with nothing written, done with value 0, or answered
by a query that writes nothing; and the layout of the response word (30_encoding.md R90). -/

namespace Sys2Proof.Machine

/-! ### The response word -/

/-- The response word's fields (30_encoding.md R90). -/
theorem responseWord_fields (st : Status) (v : Value) :
    field (responseWord st v) 63 56 = st.code.toNat ∧ field (responseWord st v) 55 32 = 0 ∧
      field (responseWord st v) 31 0 = v.toNat := by
  have hst := st.code.isLt
  have hv := v.isLt
  simp only [field, responseWord_toNat]
  omega

/-! ### The three ways a command ends -/

/-- The queries that read state; they answer a sentinel where other commands raise an error (60_exceptions.md R188). -/
abbrev stateQueries : List Opcode := [.tGetfreq, .cGetduty, .intStatus]

/-- The commands that answer a value (20_memory.md R65). -/
abbrev queries : List Opcode := .divcalc :: stateQueries

/-- How a command with this opcode ends, started in `s`. -/
inductive Ends (op : Opcode) (s : State) : Host.Outcome State Fault Refusal → Prop
  /-- An error is raised; a state query raises none. -/
  | rejected (h : op ∉ stateQueries) (st : Status) : Ends op s (raiseError st s)
  /-- Success with value 0 and the block `b` written; no query ends so. -/
  | done (h : op ∉ queries) (b : Block) : Ends op s (respond .ok 0 b s)
  /-- A query's answer, with nothing written. -/
  | answered (h : op ∈ queries) (v : Value) : Ends op s (respond .ok v s.block s)

/-- A check that rejects the command, before whatever else the command does. -/
theorem Ends.check {op : Opcode} {s : State} {c : Prop} [Decidable c] {st : Status}
    {x : Host.Outcome State Fault Refusal} (hop : op ∉ stateQueries) (hx : Ends op s x) :
    Ends op s (if c then raiseError st s else x) := by
  split
  · exact .rejected hop st
  · exact hx

theorem execDivcalc_ends (res : Nat) (src : ClockSource) (freq : Nat) (s : State) :
    Ends .divcalc s (execDivcalc res src freq s) := by
  unfold execDivcalc
  split
  · exact .rejected (by decide) _
  · exact .answered (by decide) _

theorem execTConfig_ends (tid res : Nat) (src : ClockSource) (freq : Nat) (s : State) :
    Ends .tConfig s (execTConfig tid res src freq s) := by
  unfold execTConfig
  split
  · exact .rejected (by decide) _
  · refine .check (by decide) (.check (by decide) ?_)
    split
    · exact .rejected (by decide) _
    · exact .done (by decide) _

theorem execTSetfreq_ends (tid freq : Nat) (s : State) : Ends .tSetfreq s (execTSetfreq tid freq s) := by
  unfold execTSetfreq
  split
  · exact .rejected (by decide) _
  · refine .check (by decide) (.check (by decide) ?_)
    split
    · exact .rejected (by decide) _
    · exact .done (by decide) _

theorem execTGetfreq_ends (tid : Nat) (s : State) : Ends .tGetfreq s (execTGetfreq tid s) := by
  unfold execTGetfreq
  split
  · exact .answered (by decide) _
  · dsimp only
    split
    · exact .answered (by decide) _
    · exact .answered (by decide) _

theorem execTReset_ends (tid : Nat) (s : State) : Ends .tReset s (execTReset tid s) := by
  unfold execTReset
  split
  · exact .rejected (by decide) _
  · exact .done (by decide) _

theorem execTPause_ends (tid : Nat) (s : State) : Ends .tPause s (execTPause tid s) := by
  unfold execTPause
  split
  · exact .rejected (by decide) _
  · exact .done (by decide) _

theorem execTResume_ends (tid : Nat) (s : State) : Ends .tResume s (execTResume tid s) := by
  unfold execTResume
  split
  · exact .rejected (by decide) _
  · exact .done (by decide) _

theorem execTSetraw_ends (tid res : Nat) (src : ClockSource) (div : Nat) (s : State) :
    Ends .tSetraw s (execTSetraw tid res src div s) := by
  unfold execTSetraw
  split
  · exact .rejected (by decide) _
  · exact .check (by decide) (.check (by decide) (.done (by decide) _))

theorem execCConfig_ends (cid tid : Nat) (pin : PinId) (idle inten : Bool) (duty : Nat) (s : State) :
    Ends .cConfig s (execCConfig cid tid pin idle inten duty s) := by
  unfold execCConfig
  split
  · exact .rejected (by decide) _
  · split
    · exact .rejected (by decide) _
    · exact .check (by decide) (.check (by decide) (.done (by decide) _))

theorem execCSetduty_ends (cid duty : Nat) (s : State) : Ends .cSetduty s (execCSetduty cid duty s) := by
  unfold execCSetduty
  split
  · exact .rejected (by decide) _
  · exact .check (by decide) (.check (by decide) (.done (by decide) _))

theorem execCGetduty_ends (cid : Nat) (s : State) : Ends .cGetduty s (execCGetduty cid s) := by
  unfold execCGetduty
  split
  · exact .answered (by decide) _
  · dsimp only
    split
    · exact .answered (by decide) _
    · exact .answered (by decide) _

theorem execCStop_ends (cid : Nat) (idle : Bool) (s : State) : Ends .cStop s (execCStop cid idle s) := by
  unfold execCStop
  split
  · exact .rejected (by decide) _
  · exact .done (by decide) _

theorem execCBind_ends (cid tid : Nat) (s : State) : Ends .cBind s (execCBind cid tid s) := by
  unfold execCBind
  split
  · exact .rejected (by decide) _
  · refine .check (by decide) ?_
    split
    · exact .rejected (by decide) _
    · exact .check (by decide) (.done (by decide) _)

theorem execCommit_ends (cid : Nat) (s : State) : Ends .commit s (execCommit cid s) := by
  unfold execCommit
  split
  · exact .rejected (by decide) _
  · exact .check (by decide) (.done (by decide) _)

theorem execFArm_ends (cid : Nat) (dir : Direction) (steps ticks scale start : Nat) (s : State) :
    Ends .fArm s (execFArm cid dir steps ticks scale start s) := by
  unfold execFArm
  split
  · exact .rejected (by decide) _
  · exact .check (by decide) (.check (by decide) (.check (by decide) (.check (by decide) (.check (by decide)
      (.done (by decide) _)))))

theorem execFCancel_ends (cid : Nat) (s : State) : Ends .fCancel s (execFCancel cid s) := by
  unfold execFCancel
  split
  · exact .rejected (by decide) _
  · split <;> exact .done (by decide) _

/-- Every command ends in one of the three ways. -/
theorem exec_ends (i : Instr) (s : State) : Ends i.opcode s (exec i s) := by
  cases i with
  | divcalc res src freq => exact execDivcalc_ends res src freq s
  | tConfig tid res src freq => exact execTConfig_ends tid res src freq s
  | tSetfreq tid freq => exact execTSetfreq_ends tid freq s
  | tGetfreq tid => exact execTGetfreq_ends tid s
  | tReset tid => exact execTReset_ends tid s
  | tPause tid => exact execTPause_ends tid s
  | tResume tid => exact execTResume_ends tid s
  | tSetraw tid res src div => exact execTSetraw_ends tid res src div s
  | cConfig cid tid pin idle inten duty => exact execCConfig_ends cid tid pin idle inten duty s
  | cSetduty cid duty => exact execCSetduty_ends cid duty s
  | cGetduty cid => exact execCGetduty_ends cid s
  | cStop cid idle => exact execCStop_ends cid idle s
  | cBind cid tid => exact execCBind_ends cid tid s
  | commit cid => exact execCommit_ends cid s
  | fArm cid dir steps ticks scale start => exact execFArm_ends cid dir steps ticks scale start s
  | fCancel cid => exact execFCancel_ends cid s
  | intStatus => exact .answered (op := .intStatus) (by decide) _
  | intClear mask => exact .done (op := .intClear) (by decide) _

/-! ### Transactions -/

theorem transact_ok {w : Word} {i : Instr} (h : decode w = .ok i) (s : State) : transact w s = exec i s := by
  simp only [transact, h]

/-- A word that is no command (30_encoding.md R92, R93). -/
theorem transact_error {w : Word} {e : DecodeError} (h : decode w = .error e) (s : State) :
    transact w s = raiseError .invalidArgument s := by
  simp only [transact, h]

/-- Settles O9: a word that decodes ends as its command does, another one is rejected. -/
theorem everyTransactionCompletes : Obligations.EveryTransactionCompletes := by
  refine ⟨fun w s => ?_, fun st v => ?_⟩
  · cases h : decode w with
    | error e => exact ⟨s.block, .invalidArgument, 0, transact_error h s, fun _ => ⟨rfl, rfl⟩, fun hv => absurd rfl hv⟩
    | ok i =>
      rw [transact_ok h]
      generalize hx : exec i s = x
      cases hx ▸ exec_ends i s with
      | rejected _ st => exact ⟨s.block, st, 0, rfl, fun _ => ⟨rfl, rfl⟩, fun hv => absurd rfl hv⟩
      | done _ b => exact ⟨b, .ok, 0, rfl, fun hst => absurd rfl hst, fun hv => absurd rfl hv⟩
      | answered hop v => exact ⟨s.block, .ok, v, rfl, fun hst => absurd rfl hst, fun _ => ⟨i, rfl, hop⟩⟩
  · obtain ⟨hcode, hzero, hvalue⟩ := responseWord_fields st v
    refine ⟨?_, hzero, hvalue⟩
    rw [hcode]
    cases st <;> rfl

/-! ### Queries -/

/-- No command reads the response of the transaction before it. -/
theorem exec_response (i : Instr) (s : State) (r : Option Word) : exec i { s with response := r } = exec i s := by
  cases i <;> rfl

/-- A query answers without a write; one that reads state answers Ok. -/
theorem exec_query {i : Instr} (h : i.opcode ∈ queries) (s : State) :
    ∃ st v, AnswersUnchanged i s st v ∧ (i.opcode ≠ .divcalc → st = .ok) := by
  unfold AnswersUnchanged
  generalize hx : exec i s = x
  cases hx ▸ exec_ends i s with
  | rejected hop st => exact ⟨st, 0, rfl, fun hne => absurd ((List.mem_cons.mp h).resolve_left hne) hop⟩
  | done hop b => exact absurd h hop
  | answered _ v => exact ⟨.ok, v, rfl, fun _ => rfl⟩

/-- Settles O58: a query changes the response alone, which no command reads. -/
theorem queriesWriteNothing : Obligations.QueriesWriteNothing := by
  intro s i hop
  obtain ⟨st, v, he, hok⟩ := exec_query hop s
  exact ⟨_, he, rfl, ⟨rfl, rfl, rfl, rfl⟩, (exec_response i s _).trans he, fun hne => ⟨v, by rw [hok hne]⟩⟩

end Sys2Proof.Machine
end

section
/-! Serialised words (20_memory.md R62). -/

namespace Sys2Proof

/-- The little-endian bytes of a word spell the word. -/
theorem natOfBytes_bytesOfWord (w : Word) : natOfBytes (bytesOfWord w) = w.toNat := by
  have hw := w.isLt
  simp only [natOfBytes, bytesOfWord, field, BitVec.toNat_ofNat]
  omega

/-- Settles O5: eight bytes decode as the word they spell, and those of a word spell it. -/
theorem serialisedWordDecodesAlike : Obligations.SerialisedWordDecodesAlike := by
  refine ⟨fun w => ?_, fun bs h => if_neg h⟩
  have hlen : (bytesOfWord w).length = 8 := rfl
  rw [decodeBytes, if_pos hlen, natOfBytes_bytesOfWord, BitVec.ofNat_toNat, BitVec.setWidth_eq]

end Sys2Proof
end

section
/-! The host's moves (20_memory.md R72, 60_exceptions.md R198, R199): which transactions are admitted, and when the
handler is entered and left. -/

namespace Sys2Proof.Machine

/-! ### Transactions of a context -/

/-- A transaction of the context that may issue one is the transaction of its word. -/
theorem hostTransact_of_admitted {ctx : Config.HostContext} {s : State} (hctx : ctx = .isr ↔ s.host.isrRunning = true)
    (hmain : ctx = .main → s.host.mainEnded = false) (w : Word) : hostTransact ctx w s = transact w s := by
  cases ctx with
  | main =>
    have hr : ¬ s.host.isrRunning = true := fun h => Config.HostContext.noConfusion (hctx.mpr h)
    simp only [hostTransact, if_neg hr, hmain rfl, Bool.false_eq_true, if_false]
  | isr => simp only [hostTransact, if_pos (hctx.mp rfl)]

/-- Settles O8: the step on a queued transaction is that transaction, made without the move in the queue. -/
theorem stepRunsTheDecodedCommand : Obligations.StepRunsTheDecodedCommand := by
  intro s ctx w rest hp hctx hmain
  have hstep : step s = transact w (s.dequeued rest) :=
    (step_cons hp).trans (hostTransact_of_admitted (s := s.dequeued rest) hctx hmain w)
  refine ⟨fun i hi => ?_, fun e he => ?_⟩
  · rw [hstep, transact_ok hi]
  · rw [hstep, transact_error he]
    rfl

theorem hostTransact_isr_refused {s : State} (hr : s.host.isrRunning = false) (w : Word) :
    hostTransact .isr w s = .refused .isrNotRunning := by simp [hostTransact, hr]

theorem hostTransact_main_preempted {s : State} (hr : s.host.isrRunning = true) (w : Word) :
    hostTransact .main w s = .refused .mainWhileIsrRuns := by simp [hostTransact, hr]

theorem hostTransact_main_ended {s : State} (hr : s.host.isrRunning = false) (he : s.host.mainEnded = true) (w : Word) :
    hostTransact .main w s = .refused .mainHasEnded := by simp [hostTransact, hr, he]

/-! ### Entry and return -/

theorem enterInterrupt_taken {s : State} (hr : s.host.isrRunning = false) (hg : s.host.registration ≠ none)
    (hq : s.block.irq = true) : enterInterrupt s = .next { s with host := { s.host with isrRunning := true } } := by
  simp [enterInterrupt, hr, hg, hq]

theorem enterInterrupt_nested {s : State} (hr : s.host.isrRunning = true) : enterInterrupt s = .refused .isrNested := by
  simp [enterInterrupt, hr]

theorem enterInterrupt_without_handler {s : State} (hr : s.host.isrRunning = false) (hg : s.host.registration = none) :
    enterInterrupt s = .refused .isrWithoutHandler := by simp [enterInterrupt, hr, hg]

theorem enterInterrupt_without_request {s : State} (hr : s.host.isrRunning = false) (hg : s.host.registration ≠ none)
    (hq : s.block.irq = false) : enterInterrupt s = .refused .isrWithoutRequest := by
  simp [enterInterrupt, hr, hg, hq]

theorem leaveInterrupt_taken {s : State} (hr : s.host.isrRunning = true) :
    leaveInterrupt s = .next { s with host := { s.host with isrRunning := false } } := by simp [leaveInterrupt, hr]

theorem leaveInterrupt_refused {s : State} (hr : s.host.isrRunning = false) :
    leaveInterrupt s = .refused .isrNotRunning := by simp [leaveInterrupt, hr]

/-- Settles O53: each queued move of the host, by the host's flags and the line. -/
theorem interruptEntryAndReturn : Obligations.InterruptEntryAndReturn := by
  intro s rest
  refine ⟨fun hp => ?enter, fun hp => ?leave, fun w hp => ?isr, fun w hp => ?main⟩ <;>
    rw [step_cons hp, ← dequeued_host s rest]
  case enter =>
    rw [← dequeued_block s rest]
    exact ⟨enterInterrupt_taken, enterInterrupt_nested, enterInterrupt_without_handler, enterInterrupt_without_request⟩
  case leave => exact ⟨leaveInterrupt_taken, leaveInterrupt_refused⟩
  case isr => exact fun hr => hostTransact_isr_refused hr w
  case main => exact ⟨fun hr => hostTransact_main_preempted hr w, fun hr he => hostTransact_main_ended hr he w⟩

end Sys2Proof.Machine
end

section
/-! The shadow duty of a channel without an active or staged ramp: C_SETDUTY (42_channel.md R131) and COMMIT
(43_update_protocol.md R145), and any number of them (20_memory.md R68). -/

namespace Sys2Proof.Machine

/-! ### Frames of one channel -/

theorem OnlyChannelChanged.trans {c : Fin Config.maxChannels} {s u v : State} (h₁ : OnlyChannelChanged c s u)
    (h₂ : OnlyChannelChanged c u v) : OnlyChannelChanged c s v := by
  obtain ⟨hc₁, ht₁, hi₁, hh₁, hq₁, hs₁, hp₁⟩ := h₁
  obtain ⟨hc₂, ht₂, hi₂, hh₂, hq₂, hs₂, hp₂⟩ := h₂
  exact ⟨fun c' hc' => (hc₂ c' hc').trans (hc₁ c' hc'), ht₂.trans ht₁, hi₂.trans hi₁, hh₂.trans hh₁, hq₂.trans hq₁,
    hs₂.trans hs₁, hp₂.trans hp₁⟩

theorem OnlyChannelChanged.params {c : Fin Config.maxChannels} {s u : State} (h : OnlyChannelChanged c s u) :
    u.params = s.params := by
  obtain ⟨-, -, -, -, -, -, hp⟩ := h
  exact hp

/-- A command that writes channel slot `c` alone and completes. -/
theorem onlyChannelChanged_respond {c : Fin Config.maxChannels} {C : Channel} {st : Status} {v : Value} {s u : State}
    (h : respond st v (s.block.setChannel c C) s = .next u) : OnlyChannelChanged c s u := by
  rw [respond_next h]
  exact ⟨fun c' hc' => channel_setChannel_ne _ C hc', rfl, rfl, rfl, rfl, rfl, rfl⟩

/-- A write of a channel slot that keeps the binding keeps the channel's duty range. -/
theorem maxDuty_setChannel {b : Block} {c : Fin Config.maxChannels} {C : Channel} (h : C.tsel = (b.channel c).tsel) :
    (b.setChannel c C).maxDuty c = b.maxDuty c := maxDuty_congr rfl (by rw [channel_setChannel_same, h])

/-! ### The two commands where they succeed -/

theorem execCSetduty_of_ok {s : State} {c : Fin Config.maxChannels} {d : Nat} (hn : c.val < s.params.numChannels)
    (hcfg : (s.block.channel c).cfg = true) (hd : d ≤ s.block.maxDuty c) :
    exec (.cSetduty c d) s =
      respond .ok 0 (s.block.setChannel c { s.block.channel c with dutyShadow := BitVec.ofNat 20 d }) s := by
  simp [exec, execCSetduty, channelIndex_val hn, hcfg, Nat.not_lt.mpr hd]

theorem execCommit_of_ok {s : State} {c : Fin Config.maxChannels} (hn : c.val < s.params.numChannels)
    (hcfg : (s.block.channel c).cfg = true) :
    exec (.commit c) s = respond .ok 0 (s.block.setChannel c (s.block.channel c).committed) s := by
  simp [exec, execCommit, channelIndex_val hn, hcfg]

/-- COMMIT promotes the shadow duty where no ramp is staged or running. -/
theorem committed_of_no_ramp {C : Channel} (h : C.fade.fstate = .idle ∨ C.fade.fstate = .completed) :
    C.committed = { C with dutyActive := C.dutyShadow } := by
  unfold Channel.committed
  obtain h | h := h <;> rw [h]

/-- After a successful C_SETDUTY: the slot with its shadow duty written, the duty range kept, and the frame. -/
theorem exec_cSetduty_next {s : State} {c : Fin Config.maxChannels} {d : Nat} (hn : c.val < s.params.numChannels)
    (hcfg : (s.block.channel c).cfg = true) (hd : d ≤ s.block.maxDuty c) :
    ∃ u, exec (.cSetduty c d) s = .next u ∧
      u.block.channel c = { s.block.channel c with dutyShadow := BitVec.ofNat 20 d } ∧
      u.block.maxDuty c = s.block.maxDuty c ∧ OnlyChannelChanged c s u := by
  rw [execCSetduty_of_ok hn hcfg hd]
  exact ⟨_, rfl, channel_setChannel_same _ _ _, maxDuty_setChannel rfl, onlyChannelChanged_respond rfl⟩

/-- After a successful COMMIT of a channel without a ramp staged or running. -/
theorem exec_commit_next {s : State} {c : Fin Config.maxChannels} (hn : c.val < s.params.numChannels)
    (hcfg : (s.block.channel c).cfg = true)
    (hf : (s.block.channel c).fade.fstate = .idle ∨ (s.block.channel c).fade.fstate = .completed) :
    ∃ u, exec (.commit c) s = .next u ∧
      u.block.channel c = { s.block.channel c with dutyActive := (s.block.channel c).dutyShadow } ∧
      OnlyChannelChanged c s u := by
  rw [execCommit_of_ok hn hcfg, committed_of_no_ramp hf]
  exact ⟨_, rfl, channel_setChannel_same _ _ _, onlyChannelChanged_respond rfl⟩

/-! ### Any number of them -/

theorem execAll_cons {i : Instr} {is : List Instr} {s u : State} (h : exec i s = .next u) :
    execAll (i :: is) s = execAll is u := by
  simp only [execAll, h]

/-- Settles O37, by induction on the earlier writes: each changes the shadow duty alone, which the next overwrites. -/
theorem lastShadowWriteWins : Obligations.LastShadowWriteWins := by
  intro s c earlier last
  induction earlier generalizing s with
  | nil =>
    intro hn hcfg hf _ hl
    obtain ⟨u, hu, hc, -, hframe⟩ := exec_cSetduty_next hn hcfg hl
    obtain ⟨v, hv, hc', hframe'⟩ :=
      exec_commit_next (s := u) (hframe.params ▸ hn) (by rw [hc]; exact hcfg) (by rw [hc]; exact hf)
    refine ⟨v, ?_, by rw [hc', hc], hframe.trans hframe'⟩
    rw [List.map_nil, List.nil_append, execAll_cons hu, execAll_cons hv, execAll]
  | cons d ds ih =>
    intro hn hcfg hf hd hl
    obtain ⟨hd, hds⟩ := List.forall_mem_cons.mp hd
    obtain ⟨u, hu, hc, hmax, hframe⟩ := exec_cSetduty_next hn hcfg hd
    obtain ⟨v, hv, hc', hframe'⟩ :=
      ih u (hframe.params ▸ hn) (by rw [hc]; exact hcfg) (by rw [hc]; exact hf)
        (by rw [hmax]; exact hds) (by rw [hmax]; exact hl)
    refine ⟨v, ?_, by rw [hc', hc], hframe.trans hframe'⟩
    rw [List.map_cons, List.cons_append, execAll_cons hu, hv]

end Sys2Proof.Machine
end

section
/-! INT_CLEAR under the handler contract (45_interrupt_dispatcher.md R176, R178; 20_memory.md R71). -/

namespace Sys2Proof.Machine

/-- A mask under the handler contract names no bit that was read as 0. -/
theorem mask_of_keepsHandlerContract {bits : IntBits} {mask : Mask} (h : KeepsHandlerContract (bits.setWidth 32) mask)
    {k : Nat} (hk : k < 16) (hbit : bits.getLsbD k = false) : mask.getLsbD k = false := by
  have hand := congrArg (BitVec.getLsbD · k) h
  have hk32 : k < 32 := by omega
  simpa [hk32, hbit] using hand

/-- INT_CLEAR leaves a channel that its mask does not name, and its status bit, as they are. -/
theorem exec_intClear_unnamed {mask : Mask} {c : Fin Config.maxChannels} (hm : mask.getLsbD c.val = false) (u : State) :
    ∃ v, exec (.intClear mask) u = .next v ∧ v.block.pendingBit c = u.block.pendingBit c ∧
      v.block.channel c = u.block.channel c := by
  obtain ⟨-, hchannel, hpending⟩ := foldl_clearRound mask Config.channelIds channelIds_nodup u.block
  refine ⟨_, rfl, (hpending c).trans ?_, (hchannel c).trans (if_neg fun ⟨_, hmask, _⟩ => ?_)⟩
  · simp only [hm, Bool.false_eq_true, and_false, decide_false, Bool.not_false, Bool.and_true]
  · exact Bool.false_ne_true (hm.symm.trans hmask)

/-- Settles O52: the bit was read as 0, so the mask does not name it. -/
theorem lateCompletionIsNotLost : Obligations.LateCompletionIsNotLost := by
  intro s u mask c hcontract hread hlate
  obtain ⟨v, hv, hpending, hchannel⟩ := exec_intClear_unnamed (mask_of_keepsHandlerContract hcontract c.isLt hread) u
  exact ⟨v, hv, hpending.trans hlate, hchannel⟩

end Sys2Proof.Machine
end

section
/-! The encoding round trip (30_encoding.md R80 to R89): the encoder and the decoder read and write the same fields. -/

namespace Sys2Proof

/-! ### What the decoder answers -/

theorem Opcode.operands_opcode (op : Opcode) (w : Word) : (op.operands w).opcode = op := by cases op <;> rfl

/-- A word decodes exactly when its opcode is defined and its must-be-zero bits are 0. -/
theorem decode_eq_ok_iff {w : Word} {i : Instr} :
    decode w = .ok i ↔ field w 63 56 = i.opcode.code ∧ i.opcode.zerosHold w = true ∧ i = i.opcode.operands w := by
  constructor
  · intro h
    obtain ⟨op, hcode, hzeros, rfl⟩ := decode_ok h
    rw [op.operands_opcode w]
    exact ⟨(Opcode.ofCode_eq_some hcode).symm, hzeros, rfl⟩
  · rintro ⟨hcode, hzeros, hi⟩
    simp only [decode, hcode, Opcode.ofCode_code, hzeros, if_true, ← hi]

/-! ### Fields of an encoded command -/

open Laws.EncodeOpcode in
/-- The opcode byte of an encoded command is the command's opcode (R80). -/
theorem encode_opcode {i : Instr} (h : i.wf = true) : field (encode i) 63 56 = i.opcode.code := by
  cases i
  exacts [divcalc _ _ _ h, tConfig _ _ _ _ h, tSetfreq _ _ h, tGetfreq _ h, tReset _ h, tPause _ h, tResume _ h,
    tSetraw _ _ _ _ h, cConfig _ _ _ _ _ _ h, cSetduty _ _ h, cGetduty _ h, cStop _ _ h, cBind _ _ h, commit _ h,
    fArm _ _ _ _ _ _ h, fCancel _ h, intStatus h, intClear _ h]

/-- Below the opcode byte a word of the encoder holds the operand bits alone. -/
theorem field_encode (i : Instr) {hi lo : Nat} (hlo : lo ≤ hi) (hhi : hi < 56) :
    field (encode i) hi lo = i.operandBits / 2 ^ lo % 2 ^ (hi - lo + 1) := by
  have hpow : 2 ^ lo * 2 ^ (hi - lo + 1) = 2 ^ (hi + 1) := by rw [← pow_add]; congr 1; omega
  have h64 : 2 ^ (hi + 1) ∣ 2 ^ 64 := pow_dvd_pow 2 (by omega)
  have h56 : 2 ^ (hi + 1) ∣ place i.opcode.code 56 := Dvd.dvd.mul_left (pow_dvd_pow 2 hhi) _
  rw [field, encode, BitVec.toNat_ofNat, ← Nat.mod_mul_right_div_self, ← Nat.mod_mul_right_div_self, hpow,
    Nat.mod_mod_of_dvd _ h64, Nat.add_mod, Nat.mod_eq_zero_of_dvd h56, Nat.zero_add, Nat.mod_mod]

theorem clockSourceOf_eq {n : Nat} {src : ClockSource} (h : n = src.code) : clockSourceOf (n == 1) = src := by
  rw [h, clockSourceOf_code]

theorem directionOf_eq {n : Nat} {dir : Direction} (h : n = dir.code) : directionOf (n == 1) = dir := by
  rw [h, directionOf_code]

theorem beq_one_eq {n : Nat} {b : Bool} (h : n = b.toNat) : (n == 1) = b := by rw [h, toNat_beq_one]

theorem ofNat_eq_of_toNat {k n : Nat} {x : BitVec k} (h : n = x.toNat) : BitVec.ofNat k n = x := by
  rw [h, BitVec.ofNat_toNat, BitVec.setWidth_eq]

/-- Of the encoder's word the must-be-zero bits are 0 (R93) and the operand fields are the operands, where those fit
their fields (R82 to R89). The cases are grouped by format. -/
theorem fields_encode {i : Instr} (h : i.wf = true) :
    i.opcode.zerosHold (encode i) = true ∧ i.opcode.operands (encode i) = i := by
  cases i with (
    simp only [Instr.wf, Bool.and_eq_true, indexFits_iff, resFits_iff, imm32Fits_iff, fadeFits_iff, startFits_iff] at h
    simp only [Opcode.zerosHold, Opcode.zeroFields, Opcode.operands, Instr.opcode, List.all_cons, List.all_nil,
      Bool.and_eq_true, beq_iff_eq, and_true, fieldBit, field_encode, Instr.operandBits, place, Nat.reduceLeDiff,
      Nat.reduceLT, le_refl])
  | tGetfreq | tReset | tPause | tResume | cGetduty | commit | fCancel | tSetfreq | cSetduty | cBind =>
    exact ⟨by omega, by congr 1 <;> omega⟩
  | divcalc _ src _ | tConfig _ _ src _ | tSetraw _ _ src _ =>
    have := src.code_le
    rw [clockSourceOf_eq (src := src) (by omega)]
    exact ⟨by omega, by congr 1 <;> omega⟩
  | cConfig _ _ pin idle inten _ =>
    have := pin.isLt
    have := idle.toNat_le
    have := inten.toNat_le
    rw [ofNat_eq_of_toNat (x := pin) (by omega), beq_one_eq (b := idle) (by omega), beq_one_eq (b := inten) (by omega)]
    exact ⟨by omega, by congr 1 <;> omega⟩
  | cStop _ idle =>
    have := idle.toNat_le
    rw [beq_one_eq (b := idle) (by omega)]
    exact ⟨by omega, by congr 1; omega⟩
  | fArm _ dir _ _ _ _ =>
    have := dir.code_le
    rw [directionOf_eq (dir := dir) (by omega)]
    exact ⟨by omega, by congr 1 <;> omega⟩
  | intStatus => trivial
  | intClear mask =>
    have := mask.isLt
    rw [ofNat_eq_of_toNat (x := mask) (by omega)]
    exact ⟨by omega, rfl⟩

theorem decode_encode {i : Instr} (h : i.wf = true) : decode (encode i) = .ok i :=
  have ⟨hzeros, hoperands⟩ := fields_encode h
  decode_eq_ok_iff.mpr ⟨encode_opcode h, hzeros, hoperands.symm⟩

/-- Settles O1: each field of the encoder's word reads back as it was placed. -/
theorem decodeOfEncodeIsTheCommand : Obligations.DecodeOfEncodeIsTheCommand := fun _ => decode_encode

/-! ### The command that a word decodes to -/

theorem fieldBit_toNat (w : Word) (k : Nat) : (fieldBit w k).toNat = field w k k := by
  have hlt : field w k k < 2 := by simpa using field_lt w k k
  rw [fieldBit]
  obtain h | h : field w k k = 0 ∨ field w k k = 1 := by omega
  all_goals rw [h]; rfl

theorem clockSourceOf_toCode (b : Bool) : (clockSourceOf b).code = b.toNat := by cases b <;> rfl

theorem directionOf_toCode (b : Bool) : (directionOf b).code = b.toNat := by cases b <;> rfl

/-- What a field holds fits the operand it becomes (R89). -/
theorem operands_wf (op : Opcode) (w : Word) : (op.operands w).wf = true := by
  cases op <;>
    simp only [Opcode.operands, Instr.wf, Bool.and_eq_true, indexFits_iff, resFits_iff, imm32Fits_iff, fadeFits_iff,
      startFits_iff, field] <;>
    omega

/-- The fields of a format cover `W[55:0]`: operand fields whose other bits are 0 are all there is of it (R81 to R87). -/
theorem operandBits_operands {op : Opcode} {w : Word} (h : op.zerosHold w = true) :
    (op.operands w).operandBits = w.toNat % 2 ^ 56 := by
  cases op <;>
    simp only [Opcode.zerosHold, Opcode.zeroFields, List.all_cons, List.all_nil, Bool.and_eq_true, beq_iff_eq, and_true,
      Opcode.operands, Instr.operandBits, place, clockSourceOf_toCode, directionOf_toCode, fieldBit_toNat, field,
      BitVec.toNat_ofNat, Nat.reduceSub, Nat.reduceAdd, Nat.mod_mod] at h ⊢ <;>
    omega

/-- Settles O2: the opcode byte and the operand bits of the command are those of the word. -/
theorem decodedWordEncodesBack : Obligations.DecodedWordEncodesBack := by
  intro w i h
  obtain ⟨hcode, hzeros, hi⟩ := decode_eq_ok_iff.mp h
  have hbits : i.operandBits = w.toNat % 2 ^ 56 := by rw [hi]; exact operandBits_operands hzeros
  refine ⟨hi ▸ operands_wf _ w, BitVec.eq_of_toNat_eq ?_⟩
  have hw := w.isLt
  rw [encode, BitVec.toNat_ofNat, hbits, ← hcode, field, place]
  omega

end Sys2Proof
end

section
/-! The match and mask columns of the opcode table (30_encoding.md R91), and the words that are no command (R92, R93). -/

namespace Sys2Proof

/-! ### Fields, bit by bit -/

theorem field_testBit (w : Word) (hi lo k : Nat) :
    (field w hi lo).testBit k = (decide (k < hi - lo + 1) && w.getLsbD (lo + k)) := by
  rw [field, Nat.testBit_mod_two_pow, Nat.testBit_div_two_pow, Nat.add_comm k lo, ← BitVec.testBit_toNat]

/-- Two words agree on a field exactly when they agree on its bits. -/
theorem field_eq_iff {v w : Word} {hi lo : Nat} (hle : lo ≤ hi) :
    field w hi lo = field v hi lo ↔ ∀ k, lo ≤ k → k ≤ hi → w.getLsbD k = v.getLsbD k := by
  constructor
  · intro h k hlo hhi
    have hbit := congrArg (Nat.testBit · (k - lo)) h
    have hlt : k - lo < hi - lo + 1 := by omega
    simpa only [field_testBit, hlt, decide_true, Bool.true_and, Nat.add_sub_cancel' hlo] using hbit
  · intro h
    refine Nat.eq_of_testBit_eq fun k => ?_
    rw [field_testBit, field_testBit]
    by_cases hlt : k < hi - lo + 1
    · rw [h (lo + k) (by omega) (by omega)]
    · simp only [hlt, decide_false, Bool.false_and]

theorem field_zero (hi lo : Nat) : field 0#64 hi lo = 0 := by
  simp only [field, BitVec.toNat_zero, Nat.zero_div, Nat.zero_mod]

/-! ### The two columns -/

theorem Opcode.zeroFields_bounds (op : Opcode) : ∀ f ∈ op.zeroFields, f.2 ≤ f.1 ∧ f.1 < 56 := by cases op <;> decide

/-- Below the opcode byte the mask is 1 at the must-be-zero bits alone. -/
theorem Opcode.maskWord_getLsbD_low (op : Opcode) :
    ∀ k < 56, op.maskWord.getLsbD k = true ↔ ∃ f ∈ op.zeroFields, f.2 ≤ k ∧ k ≤ f.1 := by cases op <;> decide

theorem Opcode.maskWord_getLsbD_high (op : Opcode) : ∀ k < 64, 56 ≤ k → op.maskWord.getLsbD k = true := by
  cases op <;> decide

theorem Opcode.matchWord_getLsbD_low (op : Opcode) : ∀ k < 56, op.matchWord.getLsbD k = false := by
  cases op <;> decide

theorem Opcode.field_matchWord (op : Opcode) : field op.matchWord 63 56 = op.code := by cases op <;> rfl

/-- A word's must-be-zero bits are 0 exactly when it is 0 where the mask is 1 below the opcode byte. -/
theorem Opcode.zerosHold_iff {op : Opcode} {w : Word} :
    op.zerosHold w = true ↔ ∀ k < 56, op.maskWord.getLsbD k = true → w.getLsbD k = false := by
  have hfield : ∀ f ∈ op.zeroFields, field w f.1 f.2 = 0 ↔ ∀ k, f.2 ≤ k → k ≤ f.1 → w.getLsbD k = false := fun f hf => by
    simpa only [field_zero, BitVec.getLsbD_zero] using field_eq_iff (v := 0#64) (op.zeroFields_bounds f hf).1
  simp only [Opcode.zerosHold, List.all_eq_true, beq_iff_eq]
  constructor
  · intro h k hk hmask
    obtain ⟨f, hf, hlo, hhi⟩ := (op.maskWord_getLsbD_low k hk).mp hmask
    exact (hfield f hf).mp (h f hf) k hlo hhi
  · intro h f hf
    refine (hfield f hf).mpr fun k hlo hhi => ?_
    have hk : k < 56 := hhi.trans_lt (op.zeroFields_bounds f hf).2
    exact h k hk ((op.maskWord_getLsbD_low k hk).mpr ⟨f, hf, hlo, hhi⟩)

/-- The opcode byte and the must-be-zero bits of a word are as its row says exactly when match and mask are met. -/
theorem Opcode.and_maskWord_eq_iff {op : Opcode} {w : Word} :
    w &&& op.maskWord = op.matchWord ↔ field w 63 56 = op.code ∧ op.zerosHold w = true := by
  rw [← op.field_matchWord, field_eq_iff (by decide), Opcode.zerosHold_iff]
  constructor
  · intro h
    have hbit (k : Nat) : (w.getLsbD k && op.maskWord.getLsbD k) = op.matchWord.getLsbD k := by
      rw [← BitVec.getLsbD_and, h]
    refine ⟨fun k hlo hhi => ?_, fun k hk hmask => ?_⟩
    · simpa only [op.maskWord_getLsbD_high k (by omega) hlo, Bool.and_true] using hbit k
    · simpa only [hmask, op.matchWord_getLsbD_low k hk, Bool.and_true] using hbit k
  · rintro ⟨hcode, hzeros⟩
    refine BitVec.eq_of_getLsbD_eq fun k hk => ?_
    rw [BitVec.getLsbD_and]
    by_cases hlow : k < 56
    · rw [op.matchWord_getLsbD_low k hlow]
      cases hmask : op.maskWord.getLsbD k with
      | false => exact Bool.and_false _
      | true => rw [hzeros k hlow hmask, Bool.false_and]
    · rw [op.maskWord_getLsbD_high k hk (by omega), Bool.and_true, hcode k (by omega) (by omega)]

/-- Settles O3: both say that the opcode byte is the row's and the must-be-zero bits are 0. -/
theorem decoderAgreesWithMatchAndMask : Obligations.DecoderAgreesWithMatchAndMask := by
  intro w op
  rw [Opcode.and_maskWord_eq_iff]
  constructor
  · rintro ⟨i, hdecode, rfl⟩
    obtain ⟨hcode, hzeros, -⟩ := decode_eq_ok_iff.mp hdecode
    exact ⟨hcode, hzeros⟩
  · rintro ⟨hcode, hzeros⟩
    have hop := op.operands_opcode w
    exact ⟨op.operands w, decode_eq_ok_iff.mpr (by rw [hop]; exact ⟨hcode, hzeros, rfl⟩), hop⟩

/-! ### Words that are no command -/

/-- The 18 codes are distinct bytes. -/
theorem Opcode.filter_codes_perm :
    ((List.range 256).filter fun n => Opcode.all.any fun op => op.code == n).Perm (Opcode.all.map Opcode.code) := by
  refine (List.perm_ext_iff_of_nodup (List.nodup_range.filter _) (by decide)).mpr fun n => ?_
  simp only [List.mem_filter, List.mem_range, List.any_eq_true, beq_iff_eq, List.mem_map, and_iff_right_iff_imp]
  rintro ⟨op, -, rfl⟩
  cases op <;> decide

/-- Of the 256 opcode values all but the 18 defined ones are reserved (R92). -/
theorem reserved_count : (List.range 256).countP (fun n => Opcode.all.all fun op => op.code != n) = 238 := by
  have hreserved (n : Nat) :
      (Opcode.all.all fun op => op.code != n) = decide (¬ (Opcode.all.any fun op => op.code == n) = true) := by
    rw [decide_not, Bool.decide_eq_true, List.not_any_eq_all_not]
    rfl
  have hsplit := List.length_eq_countP_add_countP (fun n => Opcode.all.any fun op => op.code == n) (l := List.range 256)
  have hdefined := Opcode.filter_codes_perm.length_eq
  have hcodes : (Opcode.all.map Opcode.code).length = 18 := rfl
  rw [← List.countP_eq_length_filter] at hdefined
  rw [List.length_range] at hsplit
  simp only [hreserved]
  omega

/-- A word whose opcode byte is no row's is rejected for it (R92). -/
theorem decode_reserved {w : Word} (h : ∀ op : Opcode, op.code ≠ field w 63 56) :
    decode w = .error (.reservedOpcode (field w 63 56)) := by
  have hnone : Opcode.ofCode (field w 63 56) = none :=
    List.find?_eq_none.mpr fun op _ => by simpa only [beq_iff_eq] using h op
  simp only [decode, hnone]

/-- A word of a defined opcode that is 1 at a bit of the mask below the opcode byte is rejected for it (R93). -/
theorem decode_mustBeZero {w : Word} {op : Opcode} {k : Nat} (hcode : field w 63 56 = op.code) (hk : k < 56)
    (hmask : op.maskWord.getLsbD k = true) (hbit : w.getLsbD k = true) : decode w = .error (.mustBeZero op) := by
  have hzeros : ¬ op.zerosHold w = true := fun h =>
    Bool.false_ne_true ((Opcode.zerosHold_iff.mp h k hk hmask).symm.trans hbit)
  simp only [decode, hcode, Opcode.ofCode_code, if_neg hzeros]

/-- Settles O4: each word is the encoder's word of its command, or is rejected for its opcode byte or its bit 40. -/
theorem writtenOutWordsDecode : Obligations.WrittenOutWordsDecode :=
  ⟨decode_encode (i := .tConfig 3 15 .busClk 305419896) rfl,
    decode_encode (i := .cConfig 7 3 165 true false 32767) rfl,
    decode_encode (i := .fArm 7 .increase 1023 0 0 0) rfl,
    decode_reserved (w := 0x4070000000) fun op => by cases op <;> decide,
    decode_mustBeZero (op := .cStop) (k := 40) rfl (by decide) rfl rfl⟩

end Sys2Proof

namespace Sys2Proof.Machine

/-- Settles O6: no row's code is the opcode byte of the word; `0x00` and `0xFF` are no row's code. -/
theorem reservedOpcodeIsAnsweredInvalidArgument : Obligations.ReservedOpcodeIsAnsweredInvalidArgument := by
  have hends (op : Opcode) : op.code ≠ 0x00 ∧ op.code ≠ 0xFF := by cases op <;> decide
  have hreserved (w : Word) (s : State) (h : ∀ op : Opcode, op.code ≠ field w 63 56) :
      transact w s = raiseError .invalidArgument s := transact_error (decode_reserved h) s
  exact ⟨reserved_count, hends, hreserved, fun s => hreserved 0 s fun op => (hends op).1,
    fun s => hreserved (BitVec.allOnes 64) s fun op => (hends op).2⟩

/-- Settles O7: the word is rejected before its command, a query too, is looked at. -/
theorem mustBeZeroBitIsAnsweredInvalidArgument : Obligations.MustBeZeroBitIsAnsweredInvalidArgument :=
  fun _ s _ _ hcode hk hmask hbit => transact_error (decode_mustBeZero hcode hk hmask hbit) s

end Sys2Proof.Machine
end

section
/-! The clock divider (40_clock_divider.md): a rounded quotient is the number between two bounds (R101), from which the
range of the divider, the frequency it gives back and the round-trip error follow by linear arithmetic; and the commands
that compute a divider. -/

namespace Sys2Proof.Machine

/-! ### Rounding (R101) -/

/-- The rounded quotient is the `q` with `q - 1/2 <= num/den < q + 1/2`. -/
theorem roundHalfUp_eq_iff {num den q : Nat} (hden : 0 < den) :
    roundHalfUp num den = q ↔ 2 * q * den ≤ 2 * num + den ∧ 2 * num + den < 2 * (q + 1) * den := by
  have hpos : 0 < 2 * den := by omega
  have hmul (m : Nat) : m * (2 * den) = 2 * m * den := by ring
  have hsplit : roundHalfUp num den = q ↔ q ≤ roundHalfUp num den ∧ roundHalfUp num den < q + 1 := by omega
  rw [hsplit, roundHalfUp, Nat.le_div_iff_mul_le hpos, Nat.div_lt_iff_lt_mul hpos, hmul, hmul]

/-- The two bounds of a rounded quotient. -/
theorem roundHalfUp_bounds (num : Nat) {den : Nat} (hden : 0 < den) :
    2 * roundHalfUp num den * den ≤ 2 * num + den ∧ 2 * num + den < 2 * (roundHalfUp num den + 1) * den :=
  (roundHalfUp_eq_iff hden).mp rfl

/-- Rounding does not pass a whole number that bounds the exact quotient. -/
theorem roundHalfUp_le {num den n : Nat} (hden : 0 < den) (h : num ≤ n * den) : roundHalfUp num den ≤ n := by
  rw [← Nat.lt_add_one_iff, roundHalfUp, Nat.div_lt_iff_lt_mul (by omega)]
  linarith

/-- From one half up the rounded quotient is at least 1. -/
theorem one_le_roundHalfUp {num den : Nat} (hden : 0 < den) (h : den ≤ 2 * num) : 1 ≤ roundHalfUp num den := by
  rw [roundHalfUp, Nat.le_div_iff_mul_le (by omega)]
  omega

/-! ### The divider (R100 to R102, R104) -/

theorem computeDivider_zero (p : Config.Params) (source res : Nat) : computeDivider p source res 0 = none := if_pos rfl

theorem computeDivider_eq_some_iff {p : Config.Params} {source res target d : Nat} :
    computeDivider p source res target = some d ↔
      target ≠ 0 ∧ 2 ^ p.fracBits ≤ d ∧ d < 2 ^ p.divBits ∧
        roundHalfUp (source * 2 ^ p.fracBits) (target * 2 ^ res) = d := by
  constructor
  · intro h
    obtain ⟨htarget, hround, hlo, hhi⟩ := computeDivider_some h
    exact ⟨htarget, hlo, hhi, hround.symm⟩
  · rintro ⟨htarget, hlo, hhi, hround⟩
    simp only [computeDivider, hround, if_neg htarget, if_neg (Nat.not_lt.mpr hlo), if_neg (Nat.not_le.mpr hhi)]

/-- The denominators `target * 2^res` of R100 and `div * 2^res` of R106. -/
theorem scaled_pos {n : Nat} (hn : n ≠ 0) (res : Nat) : 0 < n * 2 ^ res :=
  Nat.mul_pos (Nat.pos_of_ne_zero hn) (Nat.two_pow_pos res)

/-- Settles O14: the divider is the rounded quotient, and rounding is its two bounds. -/
theorem computeDividerIsTheRoundedQuotient : Obligations.ComputeDividerIsTheRoundedQuotient := by
  intro p source res target d
  have hrange : d ≤ 2 ^ p.divBits - 1 ↔ d < 2 ^ p.divBits := Nat.le_sub_one_iff_lt (Nat.two_pow_pos _)
  rw [computeDivider_eq_some_iff, hrange]
  refine and_congr_right fun htarget => ?_
  rw [roundHalfUp_eq_iff (scaled_pos htarget res)]

/-! ### The frequency of a divider (R106) -/

/-- A divider of ratio at least 1 gives no frequency above that of its source. -/
theorem reconstructFreq_le_source {p : Config.Params} (source res : Nat) {div : Nat} (h : 2 ^ p.fracBits ≤ div) :
    reconstructFreq p source res div ≤ source := by
  have hdiv : div ≠ 0 := ((Nat.two_pow_pos _).trans_le h).ne'
  refine roundHalfUp_le (scaled_pos hdiv res) (Nat.mul_le_mul_left source ?_)
  exact h.trans (Nat.le_mul_of_pos_right div (Nat.two_pow_pos res))

theorem srcFreq_lt (p : Config.Params) (src : ClockSource) : srcFreq p src < 2 ^ 32 := by
  cases src with
  | refTick => exact p.refTick.isLt
  | busClk => exact p.busClk.isLt

/-- Settles O16: rounding by its two bounds; the divider of a configured timer has ratio at least 1 (10_state.md R23),
so its frequency is at most the clock source's. -/
theorem reconstructedFrequencyIsRoundedAndFits : Obligations.ReconstructedFrequencyIsRoundedAndFits := by
  refine ⟨fun p source res div hdiv => ?_, fun s t _ ⟨hconfigured, _⟩ hrun => ?_⟩
  · exact roundHalfUp_bounds (source * 2 ^ p.fracBits) (scaled_pos (Nat.one_le_iff_ne_zero.mp hdiv) res)
  · obtain ⟨-, -, hdiv, -⟩ := hconfigured hrun
    exact (reconstructFreq_le_source _ _ hdiv).trans_lt (srcFreq_lt s.params _)

/-! ### The round trip (R108)

Here `n` is the scaled source frequency `source * 2^FRAC_BITS`, `f` the target, `k` the period `2^res`, and `d` the
divider; all bounds are multiplied out. -/

section RoundTrip

variable {n f k d : Nat}

/-- The exact frequency `n / (d * k)` of the rounded divider is within `f / (2d)` of the target. -/
theorem exactFreq_error (hden : 0 < f * k) (hd : roundHalfUp n (f * k) = d) :
    2 * n ≤ 2 * (f * (d * k)) + f * k ∧ 2 * (f * (d * k)) ≤ 2 * n + f * k := by
  obtain ⟨hlo, hhi⟩ := (roundHalfUp_eq_iff hden).mp hd
  constructor <;> linarith

/-- A frequency within `f / (2d)` of the target is, once rounded, within `f / (2d) + 1/2` of it. -/
theorem roundedFreq_error (hk : 0 < k) (hd : 0 < d) (hle : 2 * n ≤ 2 * (f * (d * k)) + f * k)
    (hge : 2 * (f * (d * k)) ≤ 2 * n + f * k) :
    2 * d * roundHalfUp n (d * k) ≤ 2 * d * f + f + d ∧ 2 * d * f ≤ 2 * d * roundHalfUp n (d * k) + f + d := by
  obtain ⟨hlo, hhi⟩ := roundHalfUp_bounds n (Nat.mul_pos hd hk)
  constructor
  · refine Nat.le_of_mul_le_mul_right (?_ : _ * k ≤ _ * k) hk
    linarith
  · refine Nat.le_of_mul_le_mul_right (?_ : _ * k ≤ _ * k) hk
    linarith

/-- A frequency within `f / (2d)` of a target of at least 1 Hz is at least one half. -/
theorem exactFreq_ge_half (hf : 0 < f) (hd : 0 < d) (hge : 2 * (f * (d * k)) ≤ 2 * n + f * k) : d * k ≤ 2 * n := by
  have hdk : d * k ≤ f * (d * k) := Nat.le_mul_of_pos_left _ hf
  have hfk : f * k ≤ f * (d * k) := Nat.mul_le_mul_left f (Nat.le_mul_of_pos_left k hd)
  omega

end RoundTrip

/-- Settles O17: the bounds on the divider bound the exact frequency, and these the rounded one. -/
theorem dividerRoundTripErrorIsBounded : Obligations.DividerRoundTripErrorIsBounded := by
  intro p source res target d h
  obtain ⟨htarget, hlo, -, hround⟩ := computeDivider_eq_some_iff.mp h
  have hk : 0 < 2 ^ res := Nat.two_pow_pos res
  have hd : 0 < d := (Nat.two_pow_pos _).trans_le hlo
  obtain ⟨hle, hge⟩ := exactFreq_error (scaled_pos htarget res) hround
  obtain ⟨habove, hbelow⟩ := roundedFreq_error hk hd hle hge
  have hhalf : d * 2 ^ res ≤ 2 * (source * 2 ^ p.fracBits) := exactFreq_ge_half (Nat.pos_of_ne_zero htarget) hd hge
  exact ⟨hle, hge, habove, hbelow, one_le_roundHalfUp (Nat.mul_pos hd hk) hhalf⟩

/-! ### The commands (R104, R107) -/

/-- T_CONFIG with a zero target frequency: whichever check of R110 fails first, the error is the same. -/
theorem execTConfig_zero (tid res : Nat) (src : ClockSource) (s : State) :
    execTConfig tid res src 0 s = raiseError .invalidArgument s := by
  unfold execTConfig
  split
  · rfl
  · split <;> rfl

/-- T_SETFREQ with a zero target frequency: whichever check of R111 fails first, the error is the same. -/
theorem execTSetfreq_zero (tid : Nat) (s : State) : execTSetfreq tid 0 s = raiseError .invalidArgument s := by
  unfold execTSetfreq
  split
  · rfl
  · dsimp only
    split <;> rfl

/-- Settles O15: no check of the two commands before that of the frequency raises another error. -/
theorem zeroTargetFrequencyIsRejected : Obligations.ZeroTargetFrequencyIsRejected :=
  ⟨computeDivider_zero, execTConfig_zero, execTSetfreq_zero⟩

theorem execDivcalc_of_some {res : Nat} {src : ClockSource} {freq d : Nat} {s : State}
    (h : computeDivider s.params (srcFreq s.params src) res freq = some d) :
    execDivcalc res src freq s = respond .ok (BitVec.ofNat 32 d) s.block s := by simp only [execDivcalc, h]

theorem execDivcalc_of_none {res : Nat} {src : ClockSource} {freq : Nat} {s : State}
    (h : computeDivider s.params (srcFreq s.params src) res freq = none) :
    execDivcalc res src freq s = raiseError .noValidDivider s := by simp only [execDivcalc, h]

/-- Settles O18: the two outcomes of `compute_divider`; the response is all that either writes. -/
theorem divcalcAnswersTheDivider : Obligations.DivcalcAnswersTheDivider :=
  fun _ _ _ _ => ⟨fun _ h => execDivcalc_of_some h, fun h => execDivcalc_of_none h⟩

end Sys2Proof.Machine
end

section
/-! The wrap of a timer's counter (41_timer.md R118) and the tick (R117): which channels a wrap serves, in whatever
order, and what a queued tick makes of the machine. -/

namespace Sys2Proof.Machine

theorem bound_iff {b : Block} {c : Fin Config.maxChannels} {t : Fin Config.maxTimers} :
    b.bound c t = true ↔ (b.channel c).cfg = true ∧ (b.channel c).tsel = t := by
  rw [Block.bound, Bool.and_eq_true, beq_iff_eq]

/-! ### The slots after a wrap -/

theorem wrap_timer_same (t : Fin Config.maxTimers) (b : Block) :
    (b.wrap t).timer t = { b.timer t with divRun := (b.timer t).div } := by rw [wrap_timer, if_pos rfl]

theorem wrap_timer_ne {t t' : Fin Config.maxTimers} (b : Block) (h : t' ≠ t) : (b.wrap t).timer t' = b.timer t' := by
  rw [wrap_timer, if_neg h]

/-- The wave load ends the service of a bound channel, whatever the fade step before it did (R118). -/
theorem wrap_dutyWave {b : Block} {c : Fin Config.maxChannels} {t : Fin Config.maxTimers} (h : b.bound c t = true) :
    ((b.wrap t).channel c).dutyWave = ((b.wrap t).channel c).dutyActive := by
  rw [wrap_channel, if_pos h]
  rfl

theorem afterWrap_of_not_running {C : Channel} (h : C.fade.fstate ≠ .running) (maxDuty : Nat) :
    C.afterWrap maxDuty = { C with dutyWave := C.dutyActive } := by simp only [Channel.afterWrap, if_neg h]

/-- A wrap raises no status bit of a channel that it takes no fade step for. -/
theorem wrap_pendingBit_of_no_step {b : Block} {c : Fin Config.maxChannels} {t : Fin Config.maxTimers}
    (h : ¬ (b.bound c t = true ∧ (b.channel c).fade.fstate = .running)) :
    (b.wrap t).pendingBit c = b.pendingBit c := by
  have hcompletes : ¬ (b.bound c t = true ∧ (b.channel c).fade.fstate = .running ∧
      (b.channel c).fade.completesNow = true) := fun ⟨hbound, hrun, _⟩ => h ⟨hbound, hrun⟩
  rw [wrap_pendingBit, decide_eq_false hcompletes, Bool.or_false]

/-- Settles O38: the wrap slot by slot, by the channel's binding and the state of its fade. -/
theorem wrapLoadsBoundChannelsOnly : Obligations.WrapLoadsBoundChannelsOnly := by
  intro b t
  refine ⟨wrap_timer_same t b, fun _ => wrap_timer_ne b, fun c => wrap_dutyWave, fun c hbound hfade => ⟨?_, ?_⟩,
    fun c hunbound => ⟨?_, ?_⟩⟩
  · rw [wrap_channel, if_pos hbound, afterWrap_of_not_running hfade]
  · exact wrap_pendingBit_of_no_step fun ⟨_, hrun⟩ => hfade hrun
  · rw [wrap_channel, if_neg (Bool.eq_false_iff.mp hunbound)]
  · exact wrap_pendingBit_of_no_step fun ⟨hbound, _⟩ => Bool.eq_false_iff.mp hunbound hbound

/-! ### The order of the channels (92_eei_decisions.md D42) -/

/-- Serving any channels, once each and every bound one among them, is the wrap. -/
theorem foldl_wrapChannel_eq_wrap {t : Fin Config.maxTimers} {b : Block} {order : List (Fin Config.maxChannels)}
    (hnodup : order.Nodup) (hserved : ∀ c, b.bound c t = true → c ∈ order) :
    order.foldl (Block.wrapChannel t) (b.loadDivider t) = b.wrap t := by
  obtain ⟨htimers, hchannel, hpending⟩ := foldl_wrapChannel t order hnodup (b.loadDivider t)
  have hmem (c : Fin Config.maxChannels) : c ∈ order ∧ b.bound c t = true ↔ b.bound c t = true :=
    and_iff_right_of_imp (hserved c)
  refine block_ext (fun t' => ?_) (fun c => ?_) (intStatus_ext fun c => ?_)
  · rw [wrap_timer, ← timer_loadDivider, Block.timer, htimers, Block.timer]
  · rw [hchannel, wrap_channel]
    simp only [loadDivider_bound, loadDivider_channel, loadDivider_maxDuty, hmem]
  · rw [hpending, wrap_pendingBit]
    simp only [loadDivider_bound, loadDivider_channel, loadDivider_pendingBit, ← and_assoc, hmem]

/-- A place at or above `NUM_CHANNELS` holds no configured channel, so none that is bound. -/
theorem lt_numChannels_of_bound {p : Config.Params} {b : Block} {c : Fin Config.maxChannels} {t : Fin Config.maxTimers}
    (hfits : b.Fits p) (hbound : b.bound c t = true) : c.val < p.numChannels := by
  obtain ⟨-, hchannels⟩ := hfits
  by_contra hc
  obtain ⟨hreset, -⟩ := (hchannels c).2 (Nat.not_lt.mp hc)
  obtain ⟨hcfg, -⟩ := bound_iff.mp hbound
  rw [hreset] at hcfg
  exact Bool.false_ne_true hcfg

/-- Settles O39: both lists name every bound channel, without repeats. -/
theorem wrapOrderDoesNotMatter : Obligations.WrapOrderDoesNotMatter := by
  refine ⟨fun b t order hperm => ?_, fun p b t order hfits hperm => ?_⟩
  · refine foldl_wrapChannel_eq_wrap (hperm.nodup_iff.mpr channelIds_nodup) fun c _ => ?_
    exact hperm.mem_iff.mpr (mem_channelIds c)
  · refine foldl_wrapChannel_eq_wrap (hperm.nodup_iff.mpr (channelIds_nodup.filter _)) fun c hbound => ?_
    exact hperm.mem_iff.mpr
      (List.mem_filter.mpr ⟨mem_channelIds c, decide_eq_true (lt_numChannels_of_bound hfits hbound)⟩)

/-! ### The tick -/

theorem atWrap_iff {t : Fin Config.maxTimers} {b : Block} :
    b.atWrap t = true ↔ (b.timer t).cnt.toNat = 2 ^ (b.timer t).res.toNat - 1 := beq_iff_eq

theorem tickEnabled_iff {t : Fin Config.maxTimers} {b : Block} :
    b.tickEnabled t = true ↔ (b.timer t).run = .running := beq_iff_eq

theorem tick_of_atWrap {t : Fin Config.maxTimers} {b : Block} (h : b.atWrap t = true) :
    b.tick t = (b.setTimer t { b.timer t with cnt := 0 }).wrap t := if_pos h

theorem tick_of_not_atWrap {t : Fin Config.maxTimers} {b : Block} (h : ¬ b.atWrap t = true) :
    b.tick t = b.setTimer t { b.timer t with cnt := BitVec.ofNat 20 ((b.timer t).cnt.toNat + 1) } := if_neg h

/-- The step on a queued tick of a Running timer. -/
theorem step_tick_running {s : State} {t : Fin Config.maxTimers} {rest : List Config.Move}
    (hp : s.pending = .tick t :: rest) (hrun : (s.block.timer t).run = .running) :
    step s = .next ((s.dequeued rest).setBlock (s.block.tick t)) :=
  (step_cons hp).trans (if_pos (tickEnabled_iff.mpr hrun))

/-- The step on a queued tick of a timer that is not Running. -/
theorem step_tick_stopped {s : State} {t : Fin Config.maxTimers} {rest : List Config.Move}
    (hp : s.pending = .tick t :: rest) (hrun : (s.block.timer t).run ≠ .running) :
    step s = .fault (.tickNotEnabled t) :=
  (step_cons hp).trans (if_neg fun h => hrun (tickEnabled_iff.mp h))

/-- A step that writes timer slot `t` of the block and nothing around the block. -/
theorem onlyTimerChanged_of_setTimer {t : Fin Config.maxTimers} {T : Timer} {s u : State}
    (hb : u.block = s.block.setTimer t T) (hs : SameSurroundings s u) : OnlyTimerChanged t s u := by
  refine ⟨fun t' ht => ?_, ?_, ?_, hs⟩
  · rw [hb, timer_setTimer_ne _ T ht]
  · rw [hb, setTimer_channels]
  · rw [hb, setTimer_intStatus]

/-- Settles O11: by whether the timer is Running, and whether its counter stands at the end of the period. -/
theorem tickAdvancesOrWraps : Obligations.TickAdvancesOrWraps := by
  intro s t rest hp
  refine ⟨step_tick_stopped hp, fun hrun hcnt => ?_, fun hrun hcnt => ?_⟩
  · have htick := tick_of_not_atWrap (mt atWrap_iff.mp hcnt)
    refine ⟨_, step_tick_running hp hrun, ?_, onlyTimerChanged_of_setTimer htick ⟨rfl, rfl, rfl, rfl⟩⟩
    rw [setBlock_block, htick, timer_setTimer_same]
  · have hwrap := atWrap_iff.mpr hcnt
    have htick := tick_of_atWrap hwrap
    refine ⟨_, step_tick_running hp hrun, htick, ?_, fun _ => tick_timer_ne s.block, ⟨rfl, rfl, rfl, rfl⟩,
      fun c hcfg htsel => ?_⟩
    · rw [setBlock_block, tick_timer_same, if_pos hwrap]
    · rw [setBlock_block, htick]
      exact wrap_dutyWave (bound_iff.mpr ⟨hcfg, htsel⟩)

end Sys2Proof.Machine
end

section
/-! The seven timer commands (41_timer.md R110 to R116): for each one what it answers where it is rejected and what it
writes where it succeeds. -/

namespace Sys2Proof.Machine

/-! ### Success and rejection -/

/-- A command that writes timer slot `t` alone succeeds. -/
theorem respond_setTimer (s : State) (t : Fin Config.maxTimers) (T : Timer) :
    ∃ u, respond .ok 0 (s.block.setTimer t T) s = .next u ∧ u.response = some (responseWord .ok 0) ∧
      u.block.timer t = T ∧ OnlyTimerChanged t s u :=
  ⟨_, rfl, rfl, timer_setTimer_same _ t T, onlyTimerChanged_of_setTimer rfl ⟨rfl, rfl, rfl, rfl⟩⟩

/-- A command is rejected by a check if what follows the check rejects it with the same error. -/
theorem check_rejects {c : Prop} [Decidable c] {st : Status} {s : State} {x : Host.Outcome State Fault Refusal}
    (h : ¬ c → x = raiseError st s) : (if c then raiseError st s else x) = raiseError st s := by
  split
  · rfl
  · exact h ‹_›

/-! ### T_CONFIG (R110) -/

section TConfig

variable {s : State} {tid res freq : Nat} {src : ClockSource} {t : Fin Config.maxTimers}

theorem execTConfig_invalid
    (h : s.params.numTimers ≤ tid ∨ res < s.params.resMin ∨ s.params.resMax < res ∨ freq = 0) :
    execTConfig tid res src freq s = raiseError .invalidArgument s := by
  unfold execTConfig
  obtain e | ⟨t, rfl, hn, e⟩ := timerIndex_cases s.params tid
  · rw [e]
  · rw [e]
    refine check_rejects fun hres => check_rejects fun hfreq => ?_
    have hres : s.params.resMin ≤ res ∧ res ≤ s.params.resMax := resolutionInRange_iff.mp (by simpa using hres)
    omega

theorem execTConfig_noDivider (hn : t.val < s.params.numTimers) (hlo : s.params.resMin ≤ res)
    (hhi : res ≤ s.params.resMax) (hfreq : freq ≠ 0)
    (hd : computeDivider s.params (srcFreq s.params src) res freq = none) :
    execTConfig t res src freq s = raiseError .noValidDivider s := by
  simp [execTConfig, timerIndex_val hn, resolutionInRange_iff.mpr ⟨hlo, hhi⟩, hfreq, hd]

theorem execTConfig_of_ok {d : Nat} (hn : t.val < s.params.numTimers) (hlo : s.params.resMin ≤ res)
    (hhi : res ≤ s.params.resMax) (hfreq : freq ≠ 0)
    (hd : computeDivider s.params (srcFreq s.params src) res freq = some d) :
    execTConfig t res src freq s = respond .ok 0 (s.block.configureTimer t res src d) s := by
  simp [execTConfig, timerIndex_val hn, resolutionInRange_iff.mpr ⟨hlo, hhi⟩, hfreq, hd]

end TConfig

/-- Settles O19: the checks of R110 in turn, then one write of the timer slot. -/
theorem tConfigConfiguresOneTimer : Obligations.TConfigConfiguresOneTimer := by
  intro tid res src freq s
  refine ⟨execTConfig_invalid, ?noDivider, ?ok⟩
  case noDivider =>
    rintro t rfl
    exact execTConfig_noDivider
  case ok =>
    rintro t d rfl hn hlo hhi hfreq hd
    rw [exec, execTConfig_of_ok hn hlo hhi hfreq hd]
    exact respond_setTimer s t _

/-! ### T_SETFREQ (R111) -/

section TSetfreq

variable {s : State} {freq : Nat} {t : Fin Config.maxTimers}

theorem execTSetfreq_outOfRange {tid : Nat} (h : s.params.numTimers ≤ tid) :
    execTSetfreq tid freq s = raiseError .invalidArgument s := by
  rw [execTSetfreq, timerIndex_none h]

/-- The timer index may be out of range here: the error is the same. -/
theorem execTSetfreq_invalid (h : (s.block.timer t).run = .reset ∨ freq = 0) :
    execTSetfreq t freq s = raiseError .invalidArgument s := by
  by_cases hn : t.val < s.params.numTimers
  · rw [execTSetfreq, timerIndex_val hn]
    refine check_rejects fun hconf => check_rejects fun hfreq => ?_
    exact (h.elim (configured_iff.mp (by simpa using hconf)) hfreq).elim
  · exact execTSetfreq_outOfRange (Nat.not_lt.mp hn)

theorem execTSetfreq_noDivider (hn : t.val < s.params.numTimers) (hrun : (s.block.timer t).run ≠ .reset)
    (hfreq : freq ≠ 0)
    (hd : computeDivider s.params (srcFreq s.params (s.block.timer t).src) (s.block.timer t).res.toNat freq = none) :
    execTSetfreq t freq s = raiseError .noValidDivider s := by
  simp [execTSetfreq, timerIndex_val hn, configured_iff.mpr hrun, hfreq, hd]

theorem execTSetfreq_of_ok {d : Nat} (hn : t.val < s.params.numTimers) (hrun : (s.block.timer t).run ≠ .reset)
    (hfreq : freq ≠ 0)
    (hd : computeDivider s.params (srcFreq s.params (s.block.timer t).src) (s.block.timer t).res.toNat freq = some d) :
    execTSetfreq t freq s =
      respond .ok 0 (s.block.setTimer t { s.block.timer t with div := BitVec.ofNat 32 d }) s := by
  simp [execTSetfreq, timerIndex_val hn, configured_iff.mpr hrun, hfreq, hd]

end TSetfreq

/-- Settles O20: the checks of R111 in turn, then one write of the timer slot, in which `div` alone is new. -/
theorem tSetfreqWritesTheStoredDividerOnly : Obligations.TSetfreqWritesTheStoredDividerOnly := by
  intro freq s
  refine ⟨fun _ => execTSetfreq_outOfRange, fun _ => execTSetfreq_invalid, fun _ => execTSetfreq_noDivider,
    fun t d hn hrun hfreq hd => ?_⟩
  rw [exec, execTSetfreq_of_ok hn hrun hfreq hd]
  exact respond_setTimer s t _

/-! ### T_GETFREQ (R112) -/

section TGetfreq

variable {s : State} {t : Fin Config.maxTimers}

theorem execTGetfreq_outOfRange {tid : Nat} (h : s.params.numTimers ≤ tid) :
    execTGetfreq tid s = respond .ok 0 s.block s := by
  rw [execTGetfreq, timerIndex_none h]

/-- The timer index may be out of range here: the sentinel is the same. -/
theorem execTGetfreq_unconfigured (h : (s.block.timer t).run = .reset) :
    execTGetfreq t s = respond .ok 0 s.block s := by
  by_cases hn : t.val < s.params.numTimers
  · rw [execTGetfreq, timerIndex_val hn]
    exact if_neg fun hconf => configured_iff.mp hconf h
  · exact execTGetfreq_outOfRange (Nat.not_lt.mp hn)

theorem execTGetfreq_configured (hn : t.val < s.params.numTimers) (hrun : (s.block.timer t).run ≠ .reset) :
    execTGetfreq t s = respond .ok (BitVec.ofNat 32 (reconstructFreq s.params (srcFreq s.params (s.block.timer t).src)
      (s.block.timer t).res.toNat (s.block.timer t).div.toNat)) s.block s := by
  rw [execTGetfreq, timerIndex_val hn]
  exact if_pos (configured_iff.mpr hrun)

end TGetfreq

/-- Settles O21: by the index and whether the timer is configured; no answer writes the block. -/
theorem tGetfreqAnswersFrequencyOrZero : Obligations.TGetfreqAnswersFrequencyOrZero :=
  fun _ => ⟨fun _ => execTGetfreq_outOfRange, fun _ => execTGetfreq_unconfigured, fun _ => execTGetfreq_configured⟩

/-! ### T_RESET (R113) -/

/-- The word of T_RESET, field by field. -/
theorem encode_tReset (tid : BitVec 4) :
    encode (.tReset tid.toNat) = (0x13 : BitVec 8) ++ tid ++ (0 : BitVec 52) := by
  refine BitVec.eq_of_toNat_eq ?_
  have htid := tid.isLt
  have hcode : ((0x13 : BitVec 8) ++ tid).toNat = 0x13 * 2 ^ 4 + tid.toNat := by
    rw [BitVec.toNat_append, Nat.shiftLeft_eq, Nat.mul_comm, ← Nat.two_pow_add_eq_or_of_lt htid]
    rfl
  rw [BitVec.toNat_append, hcode, Nat.shiftLeft_eq]
  simp only [encode, Instr.opcode, Opcode.code, Instr.operandBits, place, BitVec.toNat_ofNat, BitVec.ofNat_eq_ofNat,
    Nat.zero_mod, Nat.or_zero]
  omega

theorem execTReset_outOfRange {s : State} {tid : Nat} (h : s.params.numTimers ≤ tid) :
    execTReset tid s = raiseError .invalidArgument s := by
  rw [execTReset, timerIndex_none h]

theorem execTReset_of_ok {s : State} {t : Fin Config.maxTimers} (hn : t.val < s.params.numTimers) :
    execTReset t s = respond .ok 0 (s.block.setTimer t { s.block.timer t with cnt := 0 }) s := by
  rw [execTReset, timerIndex_val hn]

/-- Settles O22: the word is the encoder's; the command is one write of the timer slot, in which `cnt` alone is new. -/
theorem tResetZeroesTheCounterOnly : Obligations.TResetZeroesTheCounterOnly := by
  refine ⟨fun tid => ?_, fun s => ⟨fun _ => execTReset_outOfRange, fun t hn => ?_⟩⟩
  · rw [← encode_tReset]
    exact decode_encode (indexFits_iff.mpr tid.isLt)
  · rw [exec, execTReset_of_ok hn]
    exact respond_setTimer s t _

/-! ### T_PAUSE and T_RESUME (R114, R115) -/

theorem afterPause_eq (r : RunState) : r.afterPause = if r = .running then .paused else r := by cases r <;> rfl

theorem afterResume_eq (r : RunState) : r.afterResume = if r = .paused then .running else r := by cases r <;> rfl

theorem execTPause_outOfRange {s : State} {tid : Nat} (h : s.params.numTimers ≤ tid) :
    execTPause tid s = raiseError .invalidArgument s := by
  rw [execTPause, timerIndex_none h]

theorem execTResume_outOfRange {s : State} {tid : Nat} (h : s.params.numTimers ≤ tid) :
    execTResume tid s = raiseError .invalidArgument s := by
  rw [execTResume, timerIndex_none h]

theorem execTPause_of_ok {s : State} {t : Fin Config.maxTimers} (hn : t.val < s.params.numTimers) :
    execTPause t s =
      respond .ok 0 (s.block.setTimer t { s.block.timer t with run := (s.block.timer t).run.afterPause }) s := by
  rw [execTPause, timerIndex_val hn]

theorem execTResume_of_ok {s : State} {t : Fin Config.maxTimers} (hn : t.val < s.params.numTimers) :
    execTResume t s =
      respond .ok 0 (s.block.setTimer t { s.block.timer t with run := (s.block.timer t).run.afterResume }) s := by
  rw [execTResume, timerIndex_val hn]

/-- Settles O23: each is one write of the timer slot, in which the run state alone is new. -/
theorem tPauseAndTResumeMoveTheRunState : Obligations.TPauseAndTResumeMoveTheRunState := by
  intro s
  refine ⟨fun _ h => ⟨execTPause_outOfRange h, execTResume_outOfRange h⟩, fun t hn => ?_, fun t hn => ?_⟩
  · rw [exec, execTPause_of_ok hn, afterPause_eq]
    exact respond_setTimer s t _
  · rw [exec, execTResume_of_ok hn, afterResume_eq]
    exact respond_setTimer s t _

/-! ### T_SETRAW (R116) -/

section TSetraw

variable {s : State} {tid res div : Nat} {src : ClockSource} {t : Fin Config.maxTimers}

theorem execTSetraw_invalid
    (h : s.params.numTimers ≤ tid ∨ res < s.params.resMin ∨ s.params.resMax < res ∨ div < 2 ^ s.params.fracBits ∨
      2 ^ s.params.divBits ≤ div) :
    execTSetraw tid res src div s = raiseError .invalidArgument s := by
  unfold execTSetraw
  obtain e | ⟨t, rfl, hn, e⟩ := timerIndex_cases s.params tid
  · rw [e]
  · rw [e]
    refine check_rejects fun hres => check_rejects fun hdiv => ?_
    have hres : s.params.resMin ≤ res ∧ res ≤ s.params.resMax := resolutionInRange_iff.mp (by simpa using hres)
    have hdiv : 2 ^ s.params.fracBits ≤ div ∧ div < 2 ^ s.params.divBits := dividerInRange_iff.mp (by simpa using hdiv)
    omega

theorem execTSetraw_of_ok (hn : t.val < s.params.numTimers) (hlo : s.params.resMin ≤ res)
    (hhi : res ≤ s.params.resMax) (hdlo : 2 ^ s.params.fracBits ≤ div) (hdhi : div < 2 ^ s.params.divBits) :
    execTSetraw t res src div s = respond .ok 0 (s.block.configureTimer t res src div) s := by
  simp [execTSetraw, timerIndex_val hn, resolutionInRange_iff.mpr ⟨hlo, hhi⟩, dividerInRange_iff.mpr ⟨hdlo, hdhi⟩]

end TSetraw

/-- Settles O24: the checks of R116 in turn, then the write that T_CONFIG makes. -/
theorem tSetrawLoadsTheRawDivider : Obligations.TSetrawLoadsTheRawDivider := by
  intro tid res src div s
  refine ⟨execTSetraw_invalid, ?_⟩
  rintro t rfl hn hlo hhi hdlo hdhi
  rw [exec, execTSetraw_of_ok hn hlo hhi hdlo hdhi]
  exact respond_setTimer s t _

end Sys2Proof.Machine
end

section
/-! The outputs (42_channel.md R135, R137), and the five channel commands (R130 to R134): for each one what it answers
where it is rejected and what it writes where it succeeds. -/

namespace Sys2Proof.Machine

/-! ### The outputs (R135, R137) -/

section Outputs

variable {s : State} {c : Fin Config.maxChannels}

theorem out_of_stopped (h : (s.block.channel c).en = false) : s.out c = (s.block.channel c).idle := by
  simp [State.out, Block.outAsWritten, h]

theorem waveInRange_iff {b : Block} :
    b.waveInRange c = true ↔ (b.channel c).dutyWave.toNat ≤ (b.boundTimer c).period - 1 := decide_eq_true_iff

theorem outAsWritten_of_enabled {b : Block} (h : (b.channel c).en = true) :
    b.outAsWritten c = decide ((b.boundTimer c).cnt.toNat < (b.channel c).dutyWave.toNat) := if_pos h

theorem out_of_enabled (hen : (s.block.channel c).en = true)
    (hwave : (s.block.channel c).dutyWave.toNat ≤ (s.block.boundTimer c).period - 1) :
    s.out c = decide ((s.block.boundTimer c).cnt.toNat < (s.block.channel c).dutyWave.toNat) := by
  simp [State.out, waveInRange_iff.mpr hwave, outAsWritten_of_enabled hen]

/-- The output with another timer in the place of the one that the channel is bound to. -/
theorem out_setTimer_bound {T : Timer} (hen : (s.block.channel c).en = true)
    (hwave : (s.block.channel c).dutyWave.toNat ≤ T.period - 1) :
    (s.setBlock (s.block.setTimer (s.block.channel c).tsel T)).out c =
      decide (T.cnt.toNat < (s.block.channel c).dutyWave.toNat) := by
  have hbound : (s.block.setTimer (s.block.channel c).tsel T).boundTimer c = T := timer_setTimer_same ..
  have h := out_of_enabled (s := s.setBlock (s.block.setTimer (s.block.channel c).tsel T)) hen
    (by rwa [setBlock_block, hbound, setTimer_channel])
  rwa [setBlock_block, hbound, setTimer_channel] at h

end Outputs

/-- Settles O31: the two branches of R135. -/
theorem outputFollowsIdleOrCounter : Obligations.OutputFollowsIdleOrCounter := by
  intro s c
  refine ⟨out_of_stopped, fun hen hwave => ?_⟩
  rw [out_of_enabled hen hwave, decide_eq_true_iff]

/-- Of the first `m` numbers `min k m` are below `k`. -/
theorem countP_range_lt (k m : Nat) : (List.range m).countP (fun n => decide (n < k)) = min k m := by
  induction m with
  | zero => simp
  | succ m ih =>
    rw [List.range_succ, List.countP_append, ih, List.countP_singleton]
    by_cases h : m < k <;> simp [h] <;> omega

/-- Settles O32: at count `n` of the period the output is high exactly when `n < duty_wave`. -/
theorem outputIsHighForDutyWaveCounts : Obligations.OutputIsHighForDutyWaveCounts := by
  intro s c hen hres hwave
  have hout : ∀ n ∈ List.range (2 ^ (s.block.boundTimer c).res.toNat),
      (s.setBlock (s.block.setTimer (s.block.channel c).tsel
          { s.block.boundTimer c with cnt := BitVec.ofNat 20 n })).out c =
        decide (n < (s.block.channel c).dutyWave.toNat) := by
    intro n hn
    refine (out_setTimer_bound (T := { s.block.boundTimer c with cnt := BitVec.ofNat 20 n }) hen hwave).trans ?_
    rw [toNat_ofNat_of_fits hres (List.mem_range.mp hn)]
  calc _ = (List.range (2 ^ (s.block.boundTimer c).res.toNat)).countP
        (fun n => decide (n < (s.block.channel c).dutyWave.toNat)) :=
        List.countP_congr fun n hn => Bool.eq_iff_iff.mp (hout n hn)
    _ = min (s.block.channel c).dutyWave.toNat (2 ^ (s.block.boundTimer c).res.toNat) := countP_range_lt _ _
    _ = (s.block.channel c).dutyWave.toNat := Nat.min_eq_left (hwave.trans (Nat.sub_le _ _))

/-- A counter stays below its period, that of a timer never configured too, which is 1 (10_state.md R23). -/
theorem cnt_lt_period {p : Config.Params} {T : Timer} (h : T.Ok p) : T.cnt.toNat < T.period := by
  obtain ⟨hconfigured, hreset⟩ := h
  by_cases hrun : T.run = .reset
  · rw [hreset hrun]
    decide
  · obtain ⟨-, -, -, -, -, -, hcnt⟩ := hconfigured hrun
    exact hcnt

/-- Settles O33: the counter is below `2^res`, and the latched duty is not. -/
theorem outOfRangeDutyAsWrittenIsConstantHigh : Obligations.OutOfRangeDutyAsWrittenIsConstantHigh := by
  intro p b c hb hen hwave
  obtain ⟨-, htimers, -⟩ := hb
  rw [outAsWritten_of_enabled hen, decide_eq_true_iff]
  exact (cnt_lt_period (htimers _)).trans_le hwave

/-! ### Writes of one channel slot -/

/-- A command that writes channel slot `c` alone succeeds. -/
theorem respond_setChannel (s : State) (c : Fin Config.maxChannels) (C : Channel) :
    ∃ u, respond .ok 0 (s.block.setChannel c C) s = .next u ∧ u.response = some (responseWord .ok 0) ∧
      u.block.channel c = C ∧ OnlyChannelChanged c s u :=
  ⟨_, rfl, rfl, channel_setChannel_same _ c C, onlyChannelChanged_respond rfl⟩

theorem setChannel_setChannel (b : Block) (c : Fin Config.maxChannels) (C C' : Channel) :
    (b.setChannel c C).setChannel c C' = b.setChannel c C' := by
  simp only [Block.setChannel, Vector.set_set]

/-- A write of a channel slot and the FadeClear after it are one write. -/
theorem fadeClear_setChannel (b : Block) (c : Fin Config.maxChannels) (C : Channel) :
    (b.setChannel c C).fadeClear c = b.setChannel c { C with fade := Fade.cleared } := by
  rw [Block.fadeClear, setChannel_setChannel, channel_setChannel_same]

/-! ### C_CONFIG (R130) -/

section CConfig

variable {s : State} {cid tid duty : Nat} {pin : PinId} {idle inten : Bool} {c : Fin Config.maxChannels}
  {t : Fin Config.maxTimers}

theorem execCConfig_outOfRange (h : s.params.numChannels ≤ cid ∨ s.params.numTimers ≤ tid) :
    execCConfig cid tid pin idle inten duty s = raiseError .invalidArgument s := by
  unfold execCConfig
  obtain e | ⟨c, rfl, hc, e⟩ := channelIndex_cases s.params cid
  · rw [e]
  · have ht := h.resolve_left (Nat.not_le.mpr hc)
    rw [e, timerIndex_none ht]

/-- Either index may be out of range here: the error is the same. -/
theorem execCConfig_invalid (h : (s.block.timer t).run = .reset ∨ (s.block.timer t).period - 1 < duty) :
    execCConfig cid t pin idle inten duty s = raiseError .invalidArgument s := by
  unfold execCConfig
  obtain e | ⟨c, rfl, -, e⟩ := channelIndex_cases s.params cid
  · rw [e]
  · by_cases hn : t.val < s.params.numTimers
    · rw [e, timerIndex_val hn]
      refine check_rejects fun hconf => check_rejects fun hduty => ?_
      exact (h.elim (configured_iff.mp (by simpa using hconf)) hduty).elim
    · rw [e, timerIndex_none (Nat.not_lt.mp hn)]

theorem execCConfig_of_ok (hc : c.val < s.params.numChannels) (ht : t.val < s.params.numTimers)
    (hrun : (s.block.timer t).run ≠ .reset) (hduty : duty ≤ (s.block.timer t).period - 1) :
    execCConfig c t pin idle inten duty s =
      respond .ok 0
        (s.block.setChannel c
          { cfg := true, en := true, tsel := t, pin := pin, idle := idle, inten := inten,
            dutyShadow := BitVec.ofNat 20 duty, dutyActive := BitVec.ofNat 20 duty,
            dutyWave := BitVec.ofNat 20 duty, fade := Fade.cleared }) s := by
  simp [execCConfig, channelIndex_val hc, timerIndex_val ht, configured_iff.mpr hrun, Nat.not_lt.mpr hduty,
    fadeClear_setChannel]

end CConfig

/-- Settles O26: the checks of R130 in turn, then one write of the whole channel slot. -/
theorem cConfigConfiguresOneChannel : Obligations.CConfigConfiguresOneChannel := by
  intro cid tid pin idle inten duty s
  refine ⟨execCConfig_outOfRange, ?invalid, ?ok⟩
  case invalid =>
    rintro t rfl
    exact execCConfig_invalid
  case ok =>
    rintro c t rfl rfl hc ht hrun hduty
    rw [exec, execCConfig_of_ok hc ht hrun hduty]
    exact respond_setChannel s c _

/-! ### C_SETDUTY (R131) -/

section CSetduty

variable {s : State} {cid duty : Nat} {c : Fin Config.maxChannels}

theorem execCSetduty_outOfRange (h : s.params.numChannels ≤ cid) :
    execCSetduty cid duty s = raiseError .invalidArgument s := by
  rw [execCSetduty, channelIndex_none h]

/-- The channel index may be out of range here: the error is the same. -/
theorem execCSetduty_invalid (h : (s.block.channel c).cfg = false ∨ s.block.maxDuty c < duty) :
    execCSetduty c duty s = raiseError .invalidArgument s := by
  by_cases hn : c.val < s.params.numChannels
  · rw [execCSetduty, channelIndex_val hn]
    refine check_rejects fun hcfg => check_rejects fun hduty => ?_
    exact (h.elim (by simpa using hcfg) hduty).elim
  · exact execCSetduty_outOfRange (Nat.not_lt.mp hn)

end CSetduty

/-- Settles O27: the checks of R131 in turn, then one write of the channel slot, the shadow duty alone being new. -/
theorem cSetdutyWritesTheShadowOnly : Obligations.CSetdutyWritesTheShadowOnly := by
  intro duty s
  refine ⟨fun _ => execCSetduty_outOfRange, fun _ => execCSetduty_invalid, fun c hn hcfg hduty => ?_⟩
  rw [execCSetduty_of_ok hn hcfg hduty]
  exact respond_setChannel s c _

/-! ### C_GETDUTY (R132) -/

/-- The word of a command whose one operand is a slot index, field by field (30_encoding.md R82). -/
theorem encode_of_index_operand {i : Instr} {idx : BitVec 4} (h : i.operandBits = place idx.toNat 52) :
    encode i = BitVec.ofNat 8 i.opcode.code ++ idx ++ (0 : BitVec 52) := by
  refine BitVec.eq_of_toNat_eq ?_
  have hidx := idx.isLt
  have hhigh : (BitVec.ofNat 8 i.opcode.code ++ idx).toNat = 2 ^ 4 * (i.opcode.code % 2 ^ 8) + idx.toNat := by
    rw [BitVec.toNat_append, BitVec.toNat_ofNat, Nat.shiftLeft_eq, Nat.mul_comm, ← Nat.two_pow_add_eq_or_of_lt hidx]
  rw [BitVec.toNat_append, hhigh, Nat.shiftLeft_eq, encode, h]
  simp only [place, BitVec.toNat_ofNat, BitVec.ofNat_eq_ofNat, Nat.zero_mod, Nat.or_zero]
  omega

/-- No duty that fits its register is the sentinel (00_scope.md R4). -/
theorem duty_ne_dutyErr {p : Config.Params} {d : Duty} (hp : p.Valid) (hd : d.toNat < 2 ^ p.resMax) :
    d.setWidth 32 ≠ p.dutyErr := by
  obtain ⟨-, -, -, -, herr, -⟩ := hp
  intro he
  have hvalue : p.dutyErr.toNat = d.toNat := by
    rw [← he, BitVec.toNat_setWidth_of_le (by decide)]
  omega

section CGetduty

variable {s : State} {cid : Nat} {c : Fin Config.maxChannels}

theorem execCGetduty_outOfRange (h : s.params.numChannels ≤ cid) :
    execCGetduty cid s = respond .ok s.params.dutyErr s.block s := by
  rw [execCGetduty, channelIndex_none h]

/-- The channel index may be out of range here: the sentinel is the same. -/
theorem execCGetduty_unconfigured (h : (s.block.channel c).cfg = false) :
    execCGetduty c s = respond .ok s.params.dutyErr s.block s := by
  by_cases hn : c.val < s.params.numChannels
  · rw [execCGetduty, channelIndex_val hn]
    exact if_neg (by simp [h])
  · exact execCGetduty_outOfRange (Nat.not_lt.mp hn)

theorem execCGetduty_configured (hn : c.val < s.params.numChannels) (hcfg : (s.block.channel c).cfg = true) :
    execCGetduty c s = respond .ok ((s.block.channel c).dutyActive.setWidth 32) s.block s := by
  rw [execCGetduty, channelIndex_val hn]
  exact if_pos hcfg

end CGetduty

/-- Settles O28: the word is the encoder's; the answer goes by the index and whether the channel is configured. -/
theorem cGetdutyAnswersActiveDutyOrSentinel : Obligations.CGetdutyAnswersActiveDutyOrSentinel := by
  refine ⟨fun cid => ?word, fun s => ⟨fun _ => execCGetduty_outOfRange, fun _ => execCGetduty_unconfigured,
    fun _ => execCGetduty_configured, fun _ => duty_ne_dutyErr, rfl⟩⟩
  case word =>
    have hword := encode_of_index_operand (i := .cGetduty cid.toNat) rfl
    exact hword ▸ decode_encode (indexFits_iff.mpr cid.isLt)

/-! ### C_STOP (R133) -/

section CStop

variable {s : State} {idle : Bool}

theorem execCStop_outOfRange {cid : Nat} (h : s.params.numChannels ≤ cid) :
    execCStop cid idle s = raiseError .invalidArgument s := by
  rw [execCStop, channelIndex_none h]

theorem execCStop_of_ok {c : Fin Config.maxChannels} (hn : c.val < s.params.numChannels) :
    execCStop c idle s =
      respond .ok 0 (s.block.setChannel c { s.block.channel c with en := false, idle := idle, fade := Fade.cleared })
        s := by
  rw [execCStop, channelIndex_val hn]
  simp only [fadeClear_setChannel]

/-- A second C_STOP writes what stands there already. -/
theorem execCStop_again {c : Fin Config.maxChannels} {u : State} (hn : c.val < s.params.numChannels)
    (h : execCStop c idle s = .next u) : execCStop c idle u = .next u := by
  rw [execCStop_of_ok hn] at h
  have hu := respond_next h
  rw [execCStop_of_ok (by rw [hu]; exact hn), hu]
  simp only [channel_setChannel_same, setChannel_setChannel]
  rfl

end CStop

/-- Settles O29: one write of the channel slot, which a second one repeats. -/
theorem cStopDisablesAndClearsTheFade : Obligations.CStopDisablesAndClearsTheFade := by
  intro idle s
  refine ⟨fun _ => execCStop_outOfRange, fun c hn => ?_⟩
  obtain ⟨u, hu, hresponse, hchannel, hframe⟩ :=
    respond_setChannel s c { s.block.channel c with en := false, idle := idle, fade := Fade.cleared }
  rw [← execCStop_of_ok hn] at hu
  have hout : u.out c = idle := by rw [out_of_stopped (by rw [hchannel]), hchannel]
  exact ⟨u, hu, hresponse, hchannel, hframe, hout, execCStop_again hn hu⟩

/-! ### C_BIND (R134) -/

section CBind

variable {s : State} {cid tid : Nat} {c : Fin Config.maxChannels} {t : Fin Config.maxTimers}

/-- The checks of R134 in turn; whatever is wrong, the error is the same. -/
theorem execCBind_invalid
    (h : (s.params.numChannels ≤ cid ∨ s.params.numTimers ≤ tid) ∨
      (∃ c : Fin Config.maxChannels, cid = c ∧ (s.block.channel c).cfg = false) ∨
      ∃ t : Fin Config.maxTimers, tid = t ∧ (s.block.timer t).run = .reset) :
    execCBind cid tid s = raiseError .invalidArgument s := by
  unfold execCBind
  obtain e | ⟨c, rfl, hc, e⟩ := channelIndex_cases s.params cid
  · rw [e]
  rw [e]
  refine check_rejects fun hcfg => ?_
  obtain e | ⟨t, rfl, ht, e⟩ := timerIndex_cases s.params tid
  · rw [e]
  rw [e]
  refine check_rejects fun hconf => ?_
  obtain hindex | ⟨c', hc', hcfg'⟩ | ⟨t', ht', hrun⟩ := h
  · omega
  · cases Fin.ext hc'
    simp [hcfg'] at hcfg
  · cases Fin.ext ht'
    exact absurd hrun (configured_iff.mp (by simpa using hconf))

theorem execCBind_of_ok (hc : c.val < s.params.numChannels) (ht : t.val < s.params.numTimers)
    (hcfg : (s.block.channel c).cfg = true) (hrun : (s.block.timer t).run ≠ .reset) :
    execCBind c t s = respond .ok 0 (s.block.setChannel c { s.block.channel c with tsel := t }) s := by
  simp [execCBind, channelIndex_val hc, timerIndex_val ht, hcfg, configured_iff.mpr hrun]

end CBind

/-- Settles O30: the checks of R134, then one write of the channel slot, in which the binding alone is new. -/
theorem cBindWritesTheBindingOnly : Obligations.CBindWritesTheBindingOnly := by
  intro cid tid s
  refine ⟨fun h => execCBind_invalid (.inl h), fun c hc hcfg => execCBind_invalid (.inr (.inl ⟨c, hc, hcfg⟩)),
    fun t ht hrun => execCBind_invalid (.inr (.inr ⟨t, ht, hrun⟩)), ?ok⟩
  case ok =>
    rintro c t rfl rfl hc ht hcfg hrun
    rw [exec, execCBind_of_ok hc ht hcfg hrun]
    exact respond_setChannel s c _

end Sys2Proof.Machine
end

section
/-! The update protocol (43_update_protocol.md): what COMMIT makes of a channel (R145), which steps reach the compare
latch (R147), and how long a committed duty takes to reach the waveform (R149). -/

namespace Sys2Proof.Machine

/-! ### COMMIT by the state of the fade (R145) -/

/-- COMMIT starts a staged ramp from its start duty. -/
theorem committed_of_armed {C : Channel} (h : C.fade.fstate = .armed) :
    C.committed = { C with
      dutyActive := C.fade.fsStart
      fade := { C.fade with
        fstate := .running, faDir := C.fade.fsDir, faTicks := C.fade.fsTicks, faScale := C.fade.fsScale,
        stepsRem := C.fade.fsSteps, tickCnt := 0 } } := by
  rw [Channel.committed, h]

/-- COMMIT leaves a running ramp alone. -/
theorem committed_of_running {C : Channel} (h : C.fade.fstate = .running) : C.committed = C := by
  rw [Channel.committed, h]

/-- COMMIT does not write the compare latch. -/
@[simp] theorem committed_dutyWave (C : Channel) : C.committed.dutyWave = C.dutyWave := by
  cases h : C.fade.fstate with
  | idle => rw [committed_of_no_ramp (.inl h)]
  | armed => rw [committed_of_armed h]
  | running => rw [committed_of_running h]
  | completed => rw [committed_of_no_ramp (.inr h)]

theorem execCommit_outOfRange {cid : Nat} {s : State} (h : s.params.numChannels ≤ cid) :
    execCommit cid s = raiseError .invalidArgument s := by
  rw [execCommit, channelIndex_none h]

/-- The channel index may be out of range here: the error is the same. -/
theorem execCommit_unconfigured {c : Fin Config.maxChannels} {s : State} (h : (s.block.channel c).cfg = false) :
    execCommit c s = raiseError .invalidArgument s := by
  by_cases hn : c.val < s.params.numChannels
  · rw [execCommit, channelIndex_val hn]
    exact if_pos (by simp [h])
  · exact execCommit_outOfRange (Nat.not_lt.mp hn)

/-- Settles O34: the checks of R145, then one write of the channel slot, by the state of its fade. -/
theorem commitPromotesByFadeState : Obligations.CommitPromotesByFadeState := by
  intro s
  refine ⟨fun _ => execCommit_outOfRange, fun _ => execCommit_unconfigured, fun c hn hcfg => ?_⟩
  obtain ⟨u, hu, hresponse, hchannel, hframe⟩ := respond_setChannel s c (s.block.channel c).committed
  rw [← execCommit_of_ok hn hcfg] at hu
  exact ⟨u, hu, hresponse, hframe, fun h => hchannel.trans (committed_of_no_ramp h),
    fun h => hchannel.trans (committed_of_running h), fun h => hchannel.trans (committed_of_armed h)⟩

/-! ### The steps that write a compare latch (R147) -/

/-- A write of a channel slot that keeps the slot's latch keeps every latch. -/
theorem dutyWave_setChannel {b : Block} {c' : Fin Config.maxChannels} {C : Channel}
    (h : C.dutyWave = (b.channel c').dutyWave) (c : Fin Config.maxChannels) :
    ((b.setChannel c' C).channel c).dutyWave = (b.channel c).dutyWave := by
  by_cases hc : c = c'
  · rw [hc, channel_setChannel_same, h]
  · rw [channel_setChannel_ne b C hc]

/-- INT_CLEAR may destroy a FadeState, which is no part of the latch (45_interrupt_dispatcher.md R176). -/
theorem dutyWave_foldl_clearRound (mask : Mask) (b : Block) (c : Fin Config.maxChannels) :
    ((Config.channelIds.foldl (Block.clearRound mask) b).channel c).dutyWave = (b.channel c).dutyWave := by
  obtain ⟨-, hchannel, -⟩ := foldl_clearRound mask _ channelIds_nodup b
  rw [hchannel]
  split <;> rfl

/-- A command other than C_CONFIG writes no compare latch. -/
theorem exec_dutyWave {i : Instr} {s u : State} (h : exec i s = .next u) (hi : i.opcode ≠ .cConfig)
    (c : Fin Config.maxChannels) : (u.block.channel c).dutyWave = (s.block.channel c).dutyWave := by
  cases i with
  | cConfig => exact absurd rfl hi
  | divcalc => rw [execDivcalc_block h]
  | tConfig => obtain e | ⟨_, _, _, _, _, _, _, e⟩ := execTConfig_block h <;> simp [e, Block.configureTimer]
  | tSetfreq => obtain e | ⟨_, _, _, _, _, _, _, e⟩ := execTSetfreq_block h <;> simp [e]
  | tGetfreq => rw [execTGetfreq_block h]
  | tReset => obtain e | ⟨_, _, _, e⟩ := execTReset_block h <;> simp [e]
  | tPause => obtain e | ⟨_, _, _, e⟩ := execTPause_block h <;> simp [e]
  | tResume => obtain e | ⟨_, _, _, e⟩ := execTResume_block h <;> simp [e]
  | tSetraw => obtain e | ⟨_, _, _, _, _, _, _, e⟩ := execTSetraw_block h <;> simp [e, Block.configureTimer]
  | cSetduty =>
    obtain e | ⟨_, _, _, _, _, e⟩ := execCSetduty_block h <;> rw [e]
    exact dutyWave_setChannel (by rfl) c
  | cGetduty => rw [execCGetduty_block h]
  | cStop =>
    obtain e | ⟨_, _, _, e⟩ := execCStop_block h <;> rw [e]
    exact dutyWave_setChannel (by rfl) c
  | cBind =>
    obtain e | ⟨_, _, _, _, _, _, _, _, e⟩ := execCBind_block h <;> rw [e]
    exact dutyWave_setChannel (by rfl) c
  | commit =>
    obtain e | ⟨_, _, _, _, e⟩ := execCommit_block h <;> rw [e]
    exact dutyWave_setChannel (committed_dutyWave _) c
  | fArm =>
    obtain e | ⟨_, _, _, _, _, _, _, _, _, _, e⟩ := execFArm_block h <;> rw [e]
    exact dutyWave_setChannel (by rfl) c
  | fCancel =>
    obtain e | ⟨_, _, _, _, e⟩ := execFCancel_block h <;> rw [e]
    exact dutyWave_setChannel (by rfl) c
  | intStatus => rw [execIntStatus_block h]
  | intClear mask => rw [execIntClear_block h, dutyWave_foldl_clearRound]

/-- A command that changes the compare latch of channel `c` is a C_CONFIG of that channel. -/
theorem exec_dutyWave_ne {i : Instr} {s u : State} {c : Fin Config.maxChannels} (h : exec i s = .next u)
    (hne : (u.block.channel c).dutyWave ≠ (s.block.channel c).dutyWave) :
    ∃ tid pin idle inten duty, i = .cConfig c tid pin idle inten duty := by
  by_cases hi : i.opcode = .cConfig
  · cases i with
    | cConfig cid tid pin idle inten duty =>
      obtain e | ⟨c', t, rfl, -, -, -, -, -, e⟩ := execCConfig_block h
      · exact absurd (by rw [e]) hne
      · by_cases hc : c = c'
        · exact ⟨tid, pin, idle, inten, duty, by rw [hc]⟩
        · exact absurd (by rw [e, channel_setChannel_ne _ _ hc]) hne
    | _ => simp [Instr.opcode] at hi
  · exact absurd (exec_dutyWave h hi c) hne

/-- A tick that changes a compare latch wraps the timer that the channel is bound to. -/
theorem tick_dutyWave_ne {b : Block} {t : Fin Config.maxTimers} {c : Fin Config.maxChannels}
    (hne : ((b.tick t).channel c).dutyWave ≠ (b.channel c).dutyWave) : b.atWrap t = true ∧ b.bound c t = true := by
  by_contra h
  exact hne (by rw [tick_channel, if_neg h])

/-- Settles O35: of what a step can make of the block, only C_CONFIG, a wrap and the reset write a latch. -/
theorem waveChangesOnlyAtAWrap : Obligations.WaveChangesOnlyAtAWrap := by
  intro s u c h hne
  obtain e | ⟨i, hi, he⟩ | ⟨t, hm, -, e⟩ | ⟨hm, -⟩ := step_block h
  · exact absurd (by rw [e]) hne
  · obtain ⟨tid, pin, idle, inten, duty, rfl⟩ := exec_dutyWave_ne he hne
    exact .inr (.inl ⟨tid, pin, idle, inten, duty, hi⟩)
  · rw [e] at hne
    obtain ⟨hwrap, hbound⟩ := tick_dutyWave_ne hne
    exact .inl ⟨t, ⟨hm, hwrap⟩, hbound⟩
  · exact .inr (.inr hm)

/-! ### The ticks up to the next wrap (R149) -/

theorem setTimer_setTimer (b : Block) (t : Fin Config.maxTimers) (T T' : Timer) :
    (b.setTimer t T).setTimer t T' = b.setTimer t T' := by
  simp only [Block.setTimer, Vector.set_set]

theorem setTimer_timer (b : Block) (t : Fin Config.maxTimers) : b.setTimer t (b.timer t) = b := by
  simp [Block.setTimer, Block.timer]

/-- The counter of a timer within its invariant holds every count of the period (00_scope.md R4, 10_state.md R23). -/
theorem count_ofNat_toNat {p : Config.Params} {T : Timer} (hp : p.Valid) (hT : T.Ok p) {k : Nat} (hk : k < T.period) :
    (BitVec.ofNat 20 k).toNat = k := by
  refine duty_ofNat_toNat hp (hk.trans_le (Nat.pow_le_pow_right (by decide) ?_))
  obtain ⟨hconfigured, hunconfigured⟩ := hT
  by_cases hrun : T.run = .reset
  · rw [hunconfigured hrun]
    exact Nat.zero_le _
  · obtain ⟨-, hres, -⟩ := hconfigured hrun
    exact hres

/-- Short of the wrap, ticks advance the counter and write nothing else. -/
theorem iterate_tick_of_lt_period {p : Config.Params} {b : Block} {t : Fin Config.maxTimers} (hp : p.Valid)
    (hT : (b.timer t).Ok p) {j : Nat} (hj : (b.timer t).cnt.toNat + j < (b.timer t).period) :
    (Block.tick t)^[j] b =
      b.setTimer t { b.timer t with cnt := BitVec.ofNat 20 ((b.timer t).cnt.toNat + j) } := by
  induction j with
  | zero =>
    rw [Nat.add_zero, BitVec.ofNat_toNat, BitVec.setWidth_eq]
    exact (setTimer_timer b t).symm
  | succ j ih =>
    have hcount := count_ofNat_toNat hp hT (k := (b.timer t).cnt.toNat + j) (by omega)
    rw [Function.iterate_succ_apply', ih (by omega), tick_of_not_atWrap, setTimer_setTimer,
      timer_setTimer_same]
    · simp only [hcount, Nat.add_assoc]
    · rw [atWrap_iff, timer_setTimer_same, hcount]
      exact fun (hwrap : _ = (b.timer t).period - 1) => by omega

/-- Settles O36: `2^res - cnt - 1` ticks advance the counter to the end of the period, and the next one wraps it. -/
theorem commitReachesTheWaveAtTheNextWrap : Obligations.CommitReachesTheWaveAtTheNextWrap := by
  intro p b c t n hp hb hbound hfade hn
  obtain ⟨-, htimers, -⟩ := hb
  have hperiod : (b.timer t).cnt.toNat + n = (b.timer t).period := hn
  have hlt := cnt_lt_period (htimers t)
  have before (j : Nat) (hj : j < n) := iterate_tick_of_lt_period hp (htimers t) (j := j) (by omega)
  obtain ⟨m, rfl⟩ : ∃ m, n = m + 1 := ⟨n - 1, by omega⟩
  have hlast := before m m.lt_succ_self
  have hwrap : ((Block.tick t)^[m] b).atWrap t = true := by
    rw [atWrap_iff, hlast, timer_setTimer_same, count_ofNat_toNat hp (htimers t) (by omega)]
    exact Nat.eq_sub_of_add_eq hn
  refine ⟨fun j hj => ?keeps, ?adopts, ?counter⟩
  case keeps => rw [before j hj, setTimer_channel]
  case adopts =>
    have hbound' : ((Block.tick t)^[m] b).bound c t = true := by rw [hlast, setTimer_bound, hbound]
    rw [Function.iterate_succ_apply', tick_channel, if_pos ⟨hwrap, hbound'⟩, hlast, setTimer_channel,
      afterWrap_of_not_running hfade]
  case counter => rw [Function.iterate_succ_apply', tick_timer_same, if_pos hwrap]

end Sys2Proof.Machine
end

section
/-! The fade engine (44_fade_engine.md): F_ARM (R156) and F_CANCEL (R161), and one fade tick (R158 to R160). -/

namespace Sys2Proof.Machine

/-! ### F_ARM (R156) -/

section FArm

variable {s : State} {cid steps ticks scale start : Nat} {dir : Direction} {c : Fin Config.maxChannels}

theorem rampInRange_iff {maxDuty : Nat} :
    rampInRange maxDuty dir steps scale start = true ↔
      (dir = .increase → start + steps * scale ≤ maxDuty) ∧ (dir = .decrease → steps * scale ≤ start) := by
  cases dir <;> simp [rampInRange]

theorem execFArm_outOfRange (h : s.params.numChannels ≤ cid) :
    execFArm cid dir steps ticks scale start s = raiseError .invalidArgument s := by
  rw [execFArm, channelIndex_none h]

/-- The channel index may be out of range here: the error is the same. -/
theorem execFArm_invalid
    (h : (s.block.channel c).cfg = false ∨ (s.block.channel c).fade.fstate = .running ∨
      (s.block.channel c).fade.fstate = .completed ∨ s.block.maxDuty c < start ∨ steps = 0 ∨ ticks = 0 ∨
      (dir = .increase ∧ s.block.maxDuty c < start + steps * scale) ∨ (dir = .decrease ∧ start < steps * scale)) :
    execFArm c dir steps ticks scale start s = raiseError .invalidArgument s := by
  by_cases hn : c.val < s.params.numChannels
  · rw [execFArm, channelIndex_val hn]
    refine check_rejects fun hcfg => check_rejects fun hfade => check_rejects fun hstart => check_rejects fun hcount =>
      check_rejects fun hramp => ?_
    obtain ⟨hup, hdown⟩ := rampInRange_iff.mp (by simpa using hramp)
    obtain h | h | h | h | h | h | ⟨hdir, h⟩ | ⟨hdir, h⟩ := h
    · simp [h] at hcfg
    · exact (hfade (.inl h)).elim
    · exact (hfade (.inr h)).elim
    · exact (hstart h).elim
    · exact (hcount (.inl h)).elim
    · exact (hcount (.inr h)).elim
    · exact absurd (hup hdir) (Nat.not_le.mpr h)
    · exact absurd (hdown hdir) (Nat.not_le.mpr h)
  · exact execFArm_outOfRange (Nat.not_lt.mp hn)

theorem execFArm_of_ok (hn : c.val < s.params.numChannels) (hcfg : (s.block.channel c).cfg = true)
    (hfade : (s.block.channel c).fade.fstate = .idle ∨ (s.block.channel c).fade.fstate = .armed)
    (hstart : start ≤ s.block.maxDuty c) (hsteps : 1 ≤ steps) (hticks : 1 ≤ ticks)
    (hramp : rampInRange (s.block.maxDuty c) dir steps scale start = true) :
    execFArm c dir steps ticks scale start s =
      respond .ok 0
        (s.block.setChannel c { s.block.channel c with
          fade := { (s.block.channel c).fade with
            fstate := .armed, fsStart := BitVec.ofNat 20 start, fsDir := dir, fsSteps := BitVec.ofNat 10 steps,
            fsTicks := BitVec.ofNat 10 ticks, fsScale := BitVec.ofNat 10 scale } }) s := by
  have hstate : ¬ ((s.block.channel c).fade.fstate = .running ∨ (s.block.channel c).fade.fstate = .completed) := by
    obtain h | h := hfade <;> simp [h]
  have hcount : ¬ (steps = 0 ∨ ticks = 0) := by omega
  simp [execFArm, channelIndex_val hn, hcfg, hstate, Nat.not_lt.mpr hstart, hcount, hramp]

end FArm

/-- Settles O42: the checks of R156 in turn, then one write of the channel slot. -/
theorem fArmStagesTheRamp : Obligations.FArmStagesTheRamp := by
  intro dir steps ticks scale start s
  refine ⟨fun _ => execFArm_outOfRange, fun _ => execFArm_invalid, ?ok⟩
  case ok =>
    intro c hn hcfg hfade hstart hsteps hticks hup hdown
    rw [exec, execFArm_of_ok hn hcfg hfade hstart hsteps hticks (rampInRange_iff.mpr ⟨hup, hdown⟩)]
    exact respond_setChannel s c _

/-! ### F_CANCEL (R161) -/

section FCancel

variable {s : State} {c : Fin Config.maxChannels}

theorem execFCancel_outOfRange {cid : Nat} (h : s.params.numChannels ≤ cid) :
    execFCancel cid s = raiseError .invalidArgument s := by
  rw [execFCancel, channelIndex_none h]

/-- No ramp is staged or running: there is nothing to cancel. -/
theorem execFCancel_of_no_ramp (hn : c.val < s.params.numChannels)
    (h : (s.block.channel c).fade.fstate = .idle ∨ (s.block.channel c).fade.fstate = .completed) :
    execFCancel c s = respond .ok 0 s.block s := by
  rw [execFCancel, channelIndex_val hn]
  obtain h | h := h <;> simp only [h]

theorem execFCancel_of_ramp (hn : c.val < s.params.numChannels)
    (h : (s.block.channel c).fade.fstate = .armed ∨ (s.block.channel c).fade.fstate = .running) :
    execFCancel c s = respond .ok 0 (s.block.fadeClear c) s := by
  rw [execFCancel, channelIndex_val hn]
  obtain h | h := h <;> simp only [h]

end FCancel

/-- Settles O43: by the state of the fade, nothing or one FadeClear. -/
theorem fCancelFreezesTheDuty : Obligations.FCancelFreezesTheDuty := by
  intro s
  refine ⟨fun _ => execFCancel_outOfRange, fun _ => execFCancel_of_no_ramp, fun c hn hfade => ?_⟩
  rw [exec, execFCancel_of_ramp hn hfade]
  exact respond_setChannel s c _

/-! ### One fade tick (R158 to R160) -/

theorem stepDue_iff {f : Fade} : f.stepDue = true ↔ f.tickCnt.toNat + 1 = f.faTicks.toNat := decide_eq_true_iff

theorem completesNow_iff {f : Fade} :
    f.completesNow = true ↔ f.tickCnt.toNat + 1 = f.faTicks.toNat ∧ f.stepsRem.toNat ≤ 1 := by
  rw [Fade.completesNow, Bool.and_eq_true, stepDue_iff, decide_eq_true_iff]

theorem stepsRem_le_one_iff {n : FadeCount} (h : 1 ≤ n.toNat) : n.toNat ≤ 1 ↔ n = 1 := by
  rw [BitVec.toNat_eq]
  exact ⟨fun hle => Nat.le_antisymm hle h, fun he => he.le⟩

/-- The active duty after a fade step, as the register holds it. -/
def Channel.stepDuty (C : Channel) (maxDuty : Nat) : Duty :=
  BitVec.ofNat 20 (rampStep C.fade.faDir C.dutyActive.toNat C.fade.faScale.toNat maxDuty)

/-- A fade step needs no bit beyond the register's: it saturates (R158). -/
theorem stepDuty_toNat (C : Channel) {maxDuty : Nat} (hmax : maxDuty < 2 ^ 20) :
    (C.stepDuty maxDuty).toNat = rampStep C.fade.faDir C.dutyActive.toNat C.fade.faScale.toNat maxDuty := by
  refine toNat_ofNat_of_fits (w := 20) le_rfl ?_
  have hduty := C.dutyActive.isLt
  cases C.fade.faDir with
  | increase => exact (min_le_right _ _).trans_lt hmax
  | decrease => exact (Nat.sub_le _ _).trans_lt hduty

section AfterWrap

variable {C : Channel} (hrun : C.fade.fstate = .running)
include hrun

/-- A fade tick inside a step counts (R158). -/
theorem afterWrap_of_waiting (hwait : C.fade.tickCnt.toNat + 1 ≠ C.fade.faTicks.toNat) (maxDuty : Nat) :
    C.afterWrap maxDuty =
      { C with dutyWave := C.dutyActive, fade := { C.fade with tickCnt := C.fade.tickCnt + 1 } } := by
  have hcount : BitVec.ofNat 10 (C.fade.tickCnt.toNat + 1) = C.fade.tickCnt + 1 := by
    rw [BitVec.ofNat_add, BitVec.ofNat_toNat, BitVec.setWidth_eq]
    rfl
  simp only [Channel.afterWrap, Channel.afterFadeTick, if_pos hrun, if_neg (mt stepDue_iff.mp hwait), hcount]

/-- The fade tick that ends a step moves the duty, and completes the ramp at its last step (R158, R160). -/
theorem afterWrap_of_due (hdue : C.fade.tickCnt.toNat + 1 = C.fade.faTicks.toNat) (hleft : 1 ≤ C.fade.stepsRem.toNat)
    (maxDuty : Nat) :
    C.afterWrap maxDuty =
      { C with
        dutyActive := C.stepDuty maxDuty
        dutyWave := C.stepDuty maxDuty
        fade := { C.fade with
          fstate := if C.fade.stepsRem = 1 then .completed else .running
          tickCnt := 0
          stepsRem := C.fade.stepsRem - 1 } } := by
  simp only [Channel.afterWrap, Channel.afterFadeTick, if_pos hrun, if_pos (stepDue_iff.mpr hdue),
    stepsRem_le_one_iff hleft]
  by_cases hlast : C.fade.stepsRem = 1
  · simp only [hlast]
    rfl
  · have hsub : BitVec.ofNat 10 (C.fade.stepsRem.toNat - 1) = C.fade.stepsRem - 1 := by
      have hlt := C.fade.stepsRem.isLt
      apply BitVec.eq_of_toNat_eq
      simp only [BitVec.toNat_ofNat, BitVec.toNat_sub, BitVec.ofNat_eq_ofNat]
      omega
    simp only [if_neg hlast, hsub, ← hrun]
    rfl

end AfterWrap

/-- The status bit of a channel whose fade is Running, after a wrap of its timer (R160). -/
theorem wrap_pendingBit_of_running {b : Block} {t : Fin Config.maxTimers} {c : Fin Config.maxChannels}
    (hbound : b.bound c t = true) (hrun : (b.channel c).fade.fstate = .running) :
    (b.wrap t).pendingBit c = (b.pendingBit c || (b.channel c).fade.completesNow) := by
  simp [wrap_pendingBit, hbound, hrun]

theorem maxDuty_lt {p : Config.Params} {b : Block} (hp : p.Valid) (hb : b.LaunchOk p) (c : Fin Config.maxChannels) :
    b.maxDuty c < 2 ^ 20 := by
  obtain ⟨-, htimers, -⟩ := hb
  have hlt : b.maxDuty c < (b.boundTimer c).period := Nat.sub_lt (Nat.two_pow_pos _) Nat.one_pos
  have hfits := count_ofNat_toNat hp (htimers _) hlt
  exact hfits ▸ (BitVec.ofNat 20 (b.maxDuty c)).isLt

/-- Settles O40: the wrap of the channel slot and of its status bit, by whether the tick ends a step. -/
theorem fadeTickStepsAndSaturates : Obligations.FadeTickStepsAndSaturates := by
  intro p b t c hp hb hbound hrun
  rw [wrap_channel, if_pos hbound, wrap_pendingBit_of_running hbound hrun]
  refine ⟨fun hwait => ⟨afterWrap_of_waiting hrun hwait.ne _, ?_⟩, fun hdue => ?_⟩
  · have hcompletes : ¬ (b.channel c).fade.completesNow = true := fun h => hwait.ne (completesNow_iff.mp h).1
    rw [Bool.eq_false_iff.mpr hcompletes, Bool.or_false]
  · have hmax := maxDuty_lt hp hb c
    obtain ⟨-, -, hfades⟩ := hb
    obtain ⟨hrunning, -⟩ := hfades c
    obtain ⟨hleft, -⟩ := hrunning hrun
    refine ⟨(b.channel c).stepDuty (b.maxDuty c), fun hdir => ?_, fun hdir => ?_,
      afterWrap_of_due hrun hdue hleft _, ?_⟩
    · rw [stepDuty_toNat _ hmax, hdir]
      rfl
    · rw [stepDuty_toNat _ hmax, hdir, rampStep]
      omega
    · rw [Bool.eq_iff_iff]
      simp [completesNow_iff, hdue, stepsRem_le_one_iff hleft]

end Sys2Proof.Machine
end

section
/-! A whole ramp (44_fade_engine.md R165): what `k` wraps of the bound timer make of a channel whose ramp starts. -/

namespace Sys2Proof.Machine

/-! ### What a wrap keeps -/

@[simp] theorem afterFadeTick_cfg (C : Channel) (maxDuty : Nat) : (C.afterFadeTick maxDuty).cfg = C.cfg := by
  simp only [Channel.afterFadeTick, apply_ite Channel.cfg, ite_self]

@[simp] theorem afterFadeTick_tsel (C : Channel) (maxDuty : Nat) : (C.afterFadeTick maxDuty).tsel = C.tsel := by
  simp only [Channel.afterFadeTick, apply_ite Channel.tsel, ite_self]

@[simp] theorem afterWrap_cfg (C : Channel) (maxDuty : Nat) : (C.afterWrap maxDuty).cfg = C.cfg := by
  simp only [Channel.afterWrap, apply_ite Channel.cfg, afterFadeTick_cfg, ite_self]

@[simp] theorem afterWrap_tsel (C : Channel) (maxDuty : Nat) : (C.afterWrap maxDuty).tsel = C.tsel := by
  simp only [Channel.afterWrap, apply_ite Channel.tsel, afterFadeTick_tsel, ite_self]

/-- A wrap binds no channel anew. -/
theorem wrap_channel_cfg_tsel (t : Fin Config.maxTimers) (b : Block) (c : Fin Config.maxChannels) :
    ((b.wrap t).channel c).cfg = (b.channel c).cfg ∧ ((b.wrap t).channel c).tsel = (b.channel c).tsel := by
  rw [wrap_channel]
  split
  · exact ⟨afterWrap_cfg _ _, afterWrap_tsel _ _⟩
  · exact ⟨rfl, rfl⟩

theorem wrap_bound (t t' : Fin Config.maxTimers) (b : Block) (c : Fin Config.maxChannels) :
    (b.wrap t).bound c t' = b.bound c t' := by
  obtain ⟨hcfg, htsel⟩ := wrap_channel_cfg_tsel t b c
  rw [Block.bound, hcfg, htsel, Block.bound]

theorem wrap_period (t t' : Fin Config.maxTimers) (b : Block) : ((b.wrap t).timer t').period = (b.timer t').period := by
  by_cases ht : t' = t
  · rw [ht, wrap_timer_same]
    rfl
  · rw [wrap_timer_ne b ht]

theorem wrap_maxDuty (t : Fin Config.maxTimers) (b : Block) (c : Fin Config.maxChannels) :
    (b.wrap t).maxDuty c = b.maxDuty c := by
  obtain ⟨-, htsel⟩ := wrap_channel_cfg_tsel t b c
  rw [Block.maxDuty, Block.boundTimer, htsel, wrap_period, Block.maxDuty, Block.boundTimer]

theorem iterate_wrap_bound (t : Fin Config.maxTimers) (b : Block) (c : Fin Config.maxChannels) (k : Nat) :
    ((Block.wrap t)^[k] b).bound c t = b.bound c t := by
  induction k with
  | zero => rfl
  | succ k ih => rw [Function.iterate_succ_apply', wrap_bound, ih]

theorem iterate_wrap_maxDuty (t : Fin Config.maxTimers) (b : Block) (c : Fin Config.maxChannels) (k : Nat) :
    ((Block.wrap t)^[k] b).maxDuty c = b.maxDuty c := by
  induction k with
  | zero => rfl
  | succ k ih => rw [Function.iterate_succ_apply', wrap_maxDuty, ih]

/-! ### The duty along a ramp that stays in range -/

/-- The duty `new` lies `distance` from the duty `old`, in the direction of the ramp. -/
def MovedBy (dir : Direction) (old distance new : Nat) : Prop :=
  match dir with
  | .increase => new = old + distance
  | .decrease => new + distance = old

/-- The running ramp of channel `C` ends within the duty range (R165). -/
abbrev Channel.RampStaysInRange (C : Channel) (maxDuty : Nat) : Prop :=
  rampInRange maxDuty C.fade.faDir C.fade.stepsRem.toNat C.fade.faScale.toNat C.dutyActive.toNat = true

theorem movedBy_zero (dir : Direction) (duty : Nat) : MovedBy dir duty 0 duty := by cases dir <;> rfl

/-- A step short of the end of the ramp does not saturate (R165). -/
theorem MovedBy.rampStep {dir : Direction} {steps scale start maxDuty q duty : Nat}
    (hrange : rampInRange maxDuty dir steps scale start = true) (hq : q < steps)
    (h : MovedBy dir start (q * scale) duty) :
    MovedBy dir start ((q + 1) * scale) (rampStep dir duty scale maxDuty) := by
  have hend : q * scale + scale ≤ steps * scale := Nat.succ_mul q scale ▸ Nat.mul_le_mul_right scale hq
  obtain ⟨hup, hdown⟩ := rampInRange_iff.mp hrange
  cases dir with
  | increase =>
    have hmax := hup rfl
    simp only [MovedBy, Machine.rampStep, Nat.succ_mul] at h ⊢
    omega
  | decrease =>
    have hmin := hdown rfl
    simp only [MovedBy, Machine.rampStep, Nat.succ_mul] at h ⊢
    omega

/-! ### The progress of a ramp -/

/-- The channel `C'` is on the ramp that starts in `C`: it has taken `q` steps, and `r` ticks of the next one. -/
structure OnRamp (C : Channel) (q r : Nat) (C' : Channel) : Prop where
  running : C'.fade.fstate = .running
  dir : C'.fade.faDir = C.fade.faDir
  ticks : C'.fade.faTicks = C.fade.faTicks
  scale : C'.fade.faScale = C.fade.faScale
  tick : C'.fade.tickCnt.toNat = r
  left : C'.fade.stepsRem.toNat + q = C.fade.stepsRem.toNat
  duty : MovedBy C.fade.faDir C.dutyActive.toNat (q * C.fade.faScale.toNat) C'.dutyActive.toNat

/-- How far the ramp of channel `c` that starts in block `b` has come in block `b'`, `k` fade ticks later. -/
inductive RampProgress (b : Block) (c : Fin Config.maxChannels) : Nat → Block → Prop
  | running {k : Nat} {b' : Block} {q r : Nat} (hk : k = q * (b.channel c).fade.faTicks.toNat + r)
      (hq : q < (b.channel c).fade.stepsRem.toNat) (hr : r < (b.channel c).fade.faTicks.toNat)
      (hramp : OnRamp (b.channel c) q r (b'.channel c)) (hpending : b'.pendingBit c = b.pendingBit c) :
      RampProgress b c k b'
  | completed {k : Nat} {b' : Block}
      (hk : (b.channel c).fade.stepsRem.toNat * (b.channel c).fade.faTicks.toNat ≤ k)
      (hstate : (b'.channel c).fade.fstate = .completed)
      (hduty : MovedBy (b.channel c).fade.faDir (b.channel c).dutyActive.toNat
        ((b.channel c).fade.stepsRem.toNat * (b.channel c).fade.faScale.toNat) (b'.channel c).dutyActive.toNat)
      (hpending : b'.pendingBit c = true) :
      RampProgress b c k b'

theorem OnRamp.refl {C : Channel} (hrun : C.fade.fstate = .running) (htick : C.fade.tickCnt = 0) : OnRamp C 0 0 C :=
  { running := hrun, dir := rfl, ticks := rfl, scale := rfl, tick := by rw [htick]; rfl, left := rfl,
    duty := by rw [Nat.zero_mul]; exact movedBy_zero _ _ }

section Progress

variable {C C' : Channel} {q r maxDuty : Nat}

/-- A fade tick inside a step. -/
theorem OnRamp.afterWrap_of_waiting (h : OnRamp C q r C') (hr : r + 1 < C.fade.faTicks.toNat) :
    OnRamp C q (r + 1) (C'.afterWrap maxDuty) := by
  have hwait : C'.fade.tickCnt.toNat + 1 ≠ C'.fade.faTicks.toNat := by
    rw [h.tick, h.ticks]
    exact hr.ne
  have htick : (C'.fade.tickCnt + 1).toNat = r + 1 := by
    have hlt := C.fade.faTicks.isLt
    rw [BitVec.toNat_add, h.tick]
    exact Nat.mod_eq_of_lt (hr.trans hlt)
  rw [Machine.afterWrap_of_waiting h.running hwait]
  exact { h with tick := htick }

/-- The duty after the fade tick that ends a step. -/
theorem OnRamp.stepDuty (h : OnRamp C q r C') (hmax : maxDuty < 2 ^ 20) (hq : q < C.fade.stepsRem.toNat)
    (hrange : C.RampStaysInRange maxDuty) :
    MovedBy C.fade.faDir C.dutyActive.toNat ((q + 1) * C.fade.faScale.toNat) (C'.stepDuty maxDuty).toNat := by
  rw [stepDuty_toNat C' hmax, h.dir, h.scale]
  exact h.duty.rampStep hrange hq

theorem OnRamp.afterWrap_of_due (h : OnRamp C q r C') (hq : q < C.fade.stepsRem.toNat)
    (hr : r + 1 = C.fade.faTicks.toNat) :
    C'.afterWrap maxDuty =
      { C' with
        dutyActive := C'.stepDuty maxDuty
        dutyWave := C'.stepDuty maxDuty
        fade := { C'.fade with
          fstate := if C'.fade.stepsRem = 1 then .completed else .running
          tickCnt := 0
          stepsRem := C'.fade.stepsRem - 1 } } := by
  have hleft := h.left
  exact Machine.afterWrap_of_due h.running (by rw [h.tick, h.ticks, hr]) (by omega) maxDuty

/-- The fade tick that ends a step before the last one. -/
theorem OnRamp.afterWrap_of_step (h : OnRamp C q r C') (hmax : maxDuty < 2 ^ 20)
    (hq : q + 1 < C.fade.stepsRem.toNat) (hr : r + 1 = C.fade.faTicks.toNat)
    (hrange : C.RampStaysInRange maxDuty) :
    OnRamp C (q + 1) 0 (C'.afterWrap maxDuty) := by
  have hleft := h.left
  have hone : (1 : FadeCount).toNat = 1 := rfl
  have hnotLast : C'.fade.stepsRem ≠ 1 := fun he => by rw [he] at hleft; omega
  have hrem : (C'.fade.stepsRem - 1).toNat + (q + 1) = C.fade.stepsRem.toNat := by
    rw [BitVec.toNat_sub_of_le (by rw [BitVec.le_def]; omega)]
    omega
  rw [h.afterWrap_of_due (Nat.lt_of_succ_lt hq) hr]
  exact { h with
    running := if_neg hnotLast, tick := rfl, left := hrem, duty := h.stepDuty hmax (Nat.lt_of_succ_lt hq) hrange }

/-- The fade tick that completes the ramp: the one that ends its last step (R160). -/
theorem OnRamp.completesNow_iff (h : OnRamp C q r C') :
    C'.fade.completesNow = true ↔ r + 1 = C.fade.faTicks.toNat ∧ C.fade.stepsRem.toNat ≤ q + 1 := by
  have hleft := h.left
  rw [Machine.completesNow_iff, h.tick, h.ticks]
  omega

end Progress

section Wraps

variable {b b' : Block} {t : Fin Config.maxTimers} {c : Fin Config.maxChannels} {k : Nat}

/-- The last fade tick of a ramp. -/
theorem RampProgress.of_last {q r : Nat} (hk : k = q * (b.channel c).fade.faTicks.toNat + r)
    (hbound : b'.bound c t = true) (hramp : OnRamp (b.channel c) q r (b'.channel c))
    (hq : q + 1 = (b.channel c).fade.stepsRem.toNat) (hr : r + 1 = (b.channel c).fade.faTicks.toNat)
    (hmax : b'.maxDuty c < 2 ^ 20) (hrange : (b.channel c).RampStaysInRange (b'.maxDuty c)) :
    RampProgress b c (k + 1) (b'.wrap t) := by
  have hlt : q < (b.channel c).fade.stepsRem.toNat := by omega
  have hleft := hramp.left
  have hlast : (b'.channel c).fade.stepsRem = 1 := (stepsRem_le_one_iff (by omega)).mp (by omega)
  have hduty := hramp.stepDuty hmax hlt hrange
  rw [hq] at hduty
  have hchannel : (b'.wrap t).channel c = _ :=
    (wrap_channel t b' c).trans ((if_pos hbound).trans (hramp.afterWrap_of_due hlt hr))
  refine .completed ?_ ?_ ?_ ?_
  · rw [← hq, Nat.succ_mul]
    omega
  · rw [hchannel]
    exact if_pos hlast
  · rw [hchannel]
    exact hduty
  · rw [wrap_pendingBit_of_running hbound hramp.running, hramp.completesNow_iff.mpr ⟨hr, hq.ge⟩, Bool.or_true]

/-- One more wrap takes the ramp one fade tick further. -/
theorem RampProgress.wrap (h : RampProgress b c k b') (hbound : b'.bound c t = true) (hmax : b'.maxDuty c < 2 ^ 20)
    (hrange : (b.channel c).RampStaysInRange (b'.maxDuty c)) :
    RampProgress b c (k + 1) (b'.wrap t) := by
  have hchannel : (b'.wrap t).channel c = (b'.channel c).afterWrap (b'.maxDuty c) := by rw [wrap_channel, if_pos hbound]
  cases h with
  | @running q r hk hq hr hramp hpending =>
    have pendingKept (hmore : ¬ (b'.channel c).fade.completesNow = true) :
        (b'.wrap t).pendingBit c = b.pendingBit c := by
      rw [wrap_pendingBit_of_running hbound hramp.running, Bool.eq_false_iff.mpr hmore, Bool.or_false, hpending]
    obtain hwait | hdue := Nat.lt_or_eq_of_le (Nat.succ_le_of_lt hr)
    · refine .running (congrArg Nat.succ hk) hq hwait ?_
        (pendingKept fun h => hwait.ne (hramp.completesNow_iff.mp h).1)
      rw [hchannel]
      exact hramp.afterWrap_of_waiting hwait
    · obtain hmore | hlast := Nat.lt_or_eq_of_le (Nat.succ_le_of_lt hq)
      · refine .running (q := q + 1) (r := 0) ?_ hmore (by omega) ?_
          (pendingKept fun h => Nat.not_lt.mpr (hramp.completesNow_iff.mp h).2 hmore)
        · rw [Nat.succ_mul, hk]
          omega
        · rw [hchannel]
          exact hramp.afterWrap_of_step hmax hmore hdue hrange
      · exact .of_last hk hbound hramp hlast hdue hmax hrange
  | completed hk hstate hduty hpending =>
    have hstopped : (b'.channel c).fade.fstate ≠ .running := by simp [hstate]
    rw [afterWrap_of_not_running hstopped] at hchannel
    exact .completed (Nat.le_succ_of_le hk) (by rw [hchannel, hstate]) (by rw [hchannel]; exact hduty)
      (by rw [wrap_pendingBit_of_no_step fun h => hstopped h.2, hpending])

/-- A ramp that stays in range, after any number of wraps. -/
theorem rampProgress_iterate (hbound : b.bound c t = true) (hmax : b.maxDuty c < 2 ^ 20)
    (hrun : (b.channel c).fade.fstate = .running) (htick : (b.channel c).fade.tickCnt = 0)
    (hsteps : 1 ≤ (b.channel c).fade.stepsRem.toNat) (hticks : 1 ≤ (b.channel c).fade.faTicks.toNat)
    (hrange : (b.channel c).RampStaysInRange (b.maxDuty c)) (k : Nat) :
    RampProgress b c k ((Block.wrap t)^[k] b) := by
  induction k with
  | zero => exact .running (by rw [Nat.zero_mul]) hsteps hticks (.refl hrun htick) rfl
  | succ k ih =>
    rw [Function.iterate_succ_apply']
    exact ih.wrap (by rw [iterate_wrap_bound, hbound]) (by rwa [iterate_wrap_maxDuty]) (by rwa [iterate_wrap_maxDuty])

/-- From the first wrap on the latch shows the active duty. -/
theorem iterate_wrap_dutyWave (hbound : b.bound c t = true) (hk : 1 ≤ k) :
    (((Block.wrap t)^[k] b).channel c).dutyWave = (((Block.wrap t)^[k] b).channel c).dutyActive := by
  obtain ⟨j, rfl⟩ := Nat.exists_eq_add_of_le' hk
  rw [Function.iterate_succ_apply']
  exact wrap_dutyWave (by rw [iterate_wrap_bound, hbound])

end Wraps

/-- Short of its end, a ramp has taken as many steps as its ticks make up. -/
theorem steps_of_ticks {q r steps ticks : Nat} (hq : q < steps) (hr : r < ticks) :
    q * ticks + r < steps * ticks ∧ (q * ticks + r) / ticks = q := by
  have hstep : q * ticks + ticks ≤ steps * ticks := Nat.succ_mul q ticks ▸ Nat.mul_le_mul_right ticks hq
  refine ⟨by omega, ?_⟩
  rw [Nat.add_comm, Nat.add_mul_div_right _ _ (by omega), Nat.div_eq_of_lt hr, Nat.zero_add]

/-- Settles O41: the progress of the ramp after `k` wraps, on the ramp or completed. -/
theorem rampAdvancesAndCompletes : Obligations.RampAdvancesAndCompletes := by
  intro p b t c k hp hb hbound hrun htick hrange total moved after
  have hmax := maxDuty_lt hp hb c
  obtain ⟨-, -, hfades⟩ := hb
  obtain ⟨hrunning, -⟩ := hfades c
  obtain ⟨hsteps, hticks, -⟩ := hrunning hrun
  have hprogress : RampProgress b c k after := rampProgress_iterate hbound hmax hrun htick hsteps hticks hrange k
  have hlatch : 1 ≤ k → (after.channel c).dutyWave = (after.channel c).dutyActive := iterate_wrap_dutyWave hbound
  clear_value after
  cases hprogress with
  | @running q r hk hq hr hramp hpending =>
    obtain ⟨hlt, hdiv⟩ := steps_of_ticks hq hr
    rw [← hk] at hlt hdiv
    have hmoved : moved = q * (b.channel c).fade.faScale.toNat := by
      simp only [moved, total, min_eq_left hlt.le, hdiv]
    exact ⟨hmoved ▸ hramp.duty, fun _ => ⟨hramp.running, hpending⟩, fun hle => absurd hlt (Nat.not_lt.mpr hle),
      hlatch⟩
  | completed hk hstate hduty hpending =>
    have hmoved : moved = (b.channel c).fade.stepsRem.toNat * (b.channel c).fade.faScale.toNat := by
      simp only [moved, total, min_eq_right hk, Nat.mul_div_cancel _ hticks]
    exact ⟨hmoved ▸ hduty, fun hlt => absurd hk (Nat.not_le.mpr hlt), fun _ => ⟨hstate, hpending⟩, hlatch⟩

end Sys2Proof.Machine
end

section
/-! The transitions of the fade state (44_fade_engine.md R155): which commands make them, and that a tick makes only
the one into Completed. -/

namespace Sys2Proof.Machine

/-! ### Commands -/

/-- The queries and the timer commands write no channel slot. -/
theorem exec_channels {i : Instr} {s u : State} (h : exec i s = .next u)
    (hi : i.opcode ∉ [.cConfig, .cSetduty, .cStop, .cBind, .commit, .fArm, .fCancel, .intClear]) :
    u.block.channels = s.block.channels := by
  cases i with
  | divcalc => rw [execDivcalc_block h]
  | tConfig => obtain e | ⟨_, _, _, _, _, _, _, e⟩ := execTConfig_block h <;> simp [e, Block.configureTimer]
  | tSetfreq => obtain e | ⟨_, _, _, _, _, _, _, e⟩ := execTSetfreq_block h <;> simp [e]
  | tGetfreq => rw [execTGetfreq_block h]
  | tReset => obtain e | ⟨_, _, _, e⟩ := execTReset_block h <;> simp [e]
  | tPause => obtain e | ⟨_, _, _, e⟩ := execTPause_block h <;> simp [e]
  | tResume => obtain e | ⟨_, _, _, e⟩ := execTResume_block h <;> simp [e]
  | tSetraw => obtain e | ⟨_, _, _, _, _, _, _, e⟩ := execTSetraw_block h <;> simp [e, Block.configureTimer]
  | cGetduty => rw [execCGetduty_block h]
  | intStatus => rw [execIntStatus_block h]
  | cConfig | cSetduty | cStop | cBind | commit | fArm | fCancel | intClear => simp [Instr.opcode] at hi

/-- The fade-state changes of channel `c` that a command makes: the command, the state before and the state after
(R155). -/
inductive FadeTransition (c : Fin Config.maxChannels) : Instr → FadeState → FadeState → Prop
  | arm (dir : Direction) (steps ticks scale start : Nat) :
      FadeTransition c (.fArm c dir steps ticks scale start) .idle .armed
  | commit : FadeTransition c (.commit c) .armed .running
  | cancelArmed : FadeTransition c (.fCancel c) .armed .idle
  | cancelRunning : FadeTransition c (.fCancel c) .running .idle
  | acknowledge {mask : Mask} (hmask : mask.getLsbD c.val = true) : FadeTransition c (.intClear mask) .completed .idle
  | stop (idle : Bool) (old : FadeState) : FadeTransition c (.cStop c idle) old .idle
  | configure (tid : Nat) (pin : PinId) (idle inten : Bool) (duty : Nat) (old : FadeState) :
      FadeTransition c (.cConfig c tid pin idle inten duty) old .idle

/-- A write of channel slot `c'` that changes the fade state of channel `c` is a write of slot `c` itself. -/
theorem fstate_setChannel_ne {b : Block} {c c' : Fin Config.maxChannels} {C : Channel}
    (h : ((b.setChannel c' C).channel c).fade.fstate ≠ (b.channel c).fade.fstate) :
    c = c' ∧ C.fade.fstate ≠ (b.channel c').fade.fstate := by
  by_cases hc : c = c'
  · subst hc
    exact ⟨rfl, by simpa using h⟩
  · exact absurd (by rw [channel_setChannel_ne b C hc]) h

theorem committed_fstate_ne {C : Channel} (h : C.committed.fade.fstate ≠ C.fade.fstate) :
    C.fade.fstate = .armed ∧ C.committed.fade.fstate = .running := by
  cases hf : C.fade.fstate with
  | armed => exact ⟨rfl, by rw [committed_of_armed hf]⟩
  | idle => exact absurd (by rw [committed_of_no_ramp (.inl hf)]) h
  | running => exact absurd (by rw [committed_of_running hf]) h
  | completed => exact absurd (by rw [committed_of_no_ramp (.inr hf)]) h

/-- INT_CLEAR changes only the fade states of Completed channels that its mask names (45_interrupt_dispatcher.md
R176). -/
theorem fstate_foldl_clearRound_ne {mask : Mask} {b : Block} {c : Fin Config.maxChannels}
    (h : ((Config.channelIds.foldl (Block.clearRound mask) b).channel c).fade.fstate ≠ (b.channel c).fade.fstate) :
    mask.getLsbD c.val = true ∧ (b.channel c).fade.fstate = .completed ∧
      ((Config.channelIds.foldl (Block.clearRound mask) b).channel c).fade.fstate = .idle := by
  obtain ⟨-, hchannel, -⟩ := foldl_clearRound mask _ channelIds_nodup b
  rw [hchannel] at h ⊢
  split at h
  · rename_i hacknowledged
    rw [if_pos hacknowledged]
    obtain ⟨-, hmask, -, hcompleted⟩ := hacknowledged
    exact ⟨hmask, hcompleted, rfl⟩
  · exact absurd rfl h

/-- A command that changes the fade state of channel `c` is one of the six that may. -/
theorem exec_fstate_ne {i : Instr} {s u : State} {c : Fin Config.maxChannels} (h : exec i s = .next u)
    (hne : (u.block.channel c).fade.fstate ≠ (s.block.channel c).fade.fstate) :
    FadeTransition c i (s.block.channel c).fade.fstate (u.block.channel c).fade.fstate := by
  have changed : u.block ≠ s.block := fun e => hne (by rw [e])
  cases i with
  | cConfig cid tid pin idle inten duty =>
    obtain e | ⟨c', t, rfl, rfl, -, -, -, -, e⟩ := execCConfig_block h
    · exact absurd e changed
    · rw [e] at hne ⊢
      obtain ⟨rfl, -⟩ := fstate_setChannel_ne hne
      rw [channel_setChannel_same]
      exact .configure t pin idle inten duty _
  | cSetduty cid duty =>
    obtain e | ⟨c', rfl, -, -, -, e⟩ := execCSetduty_block h
    · exact absurd e changed
    · rw [e] at hne
      exact absurd rfl (fstate_setChannel_ne hne).2
  | cStop cid idle =>
    obtain e | ⟨c', rfl, -, e⟩ := execCStop_block h
    · exact absurd e changed
    · rw [e] at hne ⊢
      obtain ⟨rfl, -⟩ := fstate_setChannel_ne hne
      rw [channel_setChannel_same]
      exact .stop idle _
  | cBind cid tid =>
    obtain e | ⟨c', t, rfl, -, -, -, -, -, e⟩ := execCBind_block h
    · exact absurd e changed
    · rw [e] at hne
      exact absurd rfl (fstate_setChannel_ne hne).2
  | commit cid =>
    obtain e | ⟨c', rfl, -, -, e⟩ := execCommit_block h
    · exact absurd e changed
    · rw [e] at hne ⊢
      obtain ⟨rfl, hfade⟩ := fstate_setChannel_ne hne
      obtain ⟨harmed, hrunning⟩ := committed_fstate_ne hfade
      rw [channel_setChannel_same, harmed, hrunning]
      exact .commit
  | fArm cid dir steps ticks scale start =>
    obtain e | ⟨c', rfl, -, -, hrunning, hcompleted, -, -, -, -, e⟩ := execFArm_block h
    · exact absurd e changed
    · rw [e] at hne ⊢
      obtain ⟨rfl, harmed⟩ := fstate_setChannel_ne hne
      rw [channel_setChannel_same]
      cases hf : (s.block.channel c).fade.fstate with
      | idle => exact .arm dir steps ticks scale start
      | armed => exact absurd hf.symm harmed
      | running => exact absurd hf hrunning
      | completed => exact absurd hf hcompleted
  | fCancel cid =>
    obtain e | ⟨c', rfl, -, hramp, e⟩ := execFCancel_block h
    · exact absurd e changed
    · rw [e] at hne ⊢
      obtain ⟨rfl, -⟩ := fstate_setChannel_ne hne
      rw [channel_fadeClear, if_pos rfl]
      obtain hf | hf := hramp <;> rw [hf]
      · exact .cancelArmed
      · exact .cancelRunning
  | intClear mask =>
    rw [execIntClear_block h] at hne ⊢
    obtain ⟨hmask, hcompleted, hidle⟩ := fstate_foldl_clearRound_ne hne
    rw [hcompleted, hidle]
    exact .acknowledge hmask
  | _ => exact absurd (by simp only [Block.channel, exec_channels h (by simp [Instr.opcode])]) hne

/-! ### Ticks -/

/-- A fade tick leaves the fade state or completes the ramp (R160). -/
theorem afterFadeTick_fstate_ne {C : Channel} {maxDuty : Nat}
    (h : (C.afterFadeTick maxDuty).fade.fstate ≠ C.fade.fstate) :
    (C.afterFadeTick maxDuty).fade.fstate = .completed := by
  unfold Channel.afterFadeTick at h ⊢
  by_cases hdue : C.fade.stepDue = true
  · by_cases hlast : C.fade.stepsRem.toNat ≤ 1
    · simp only [if_pos hdue, if_pos hlast]
    · simp only [if_pos hdue, if_neg hlast, ne_eq, not_true_eq_false] at h
  · simp only [if_neg hdue, ne_eq, not_true_eq_false] at h

theorem afterWrap_fstate_ne {C : Channel} {maxDuty : Nat} (h : (C.afterWrap maxDuty).fade.fstate ≠ C.fade.fstate) :
    C.fade.fstate = .running ∧ (C.afterWrap maxDuty).fade.fstate = .completed := by
  by_cases hrun : C.fade.fstate = .running
  · simp only [Channel.afterWrap, if_pos hrun] at h ⊢
    exact ⟨hrun, afterFadeTick_fstate_ne h⟩
  · exact absurd (by rw [afterWrap_of_not_running hrun]) h

/-- A tick that changes a fade state is a wrap of the bound timer that completes the ramp. -/
theorem tick_fstate_ne {b : Block} {t : Fin Config.maxTimers} {c : Fin Config.maxChannels}
    (hne : ((b.tick t).channel c).fade.fstate ≠ (b.channel c).fade.fstate) :
    b.atWrap t = true ∧ b.bound c t = true ∧ (b.channel c).fade.fstate = .running ∧
      ((b.tick t).channel c).fade.fstate = .completed := by
  rw [tick_channel] at hne ⊢
  split at hne
  · rename_i hwrap
    rw [if_pos hwrap]
    exact ⟨hwrap.1, hwrap.2, afterWrap_fstate_ne hne⟩
  · exact absurd rfl hne

/-- Settles O44: of what a step can make of the block, six commands, the last tick of a ramp and the reset change a fade
state. -/
theorem fadeStateChangesOnlyAsListed : Obligations.FadeStateChangesOnlyAsListed := by
  intro s u c h hne
  obtain e | ⟨i, hi, he⟩ | ⟨t, hm, -, e⟩ | ⟨hm, e⟩ := step_block h
  · exact absurd (by rw [e]) hne
  · have transition := exec_fstate_ne he hne
    rw [advance_block] at transition
    generalize (s.block.channel c).fade.fstate = old, (u.block.channel c).fade.fstate = new at transition
    cases transition with
    | arm dir steps ticks scale start => exact .inl ⟨rfl, rfl, dir, steps, ticks, scale, start, hi⟩
    | commit => exact .inr (.inl ⟨rfl, rfl, hi⟩)
    | cancelArmed => exact .inr (.inr (.inr (.inl ⟨rfl, rfl, hi⟩)))
    | cancelRunning => exact .inr (.inr (.inr (.inr (.inl ⟨rfl, rfl, hi⟩))))
    | acknowledge hmask => exact .inr (.inr (.inr (.inr (.inr (.inl ⟨rfl, rfl, _, hi, hmask⟩)))))
    | stop idle => exact .inr (.inr (.inr (.inr (.inr (.inr ⟨rfl, .inl ⟨idle, hi⟩⟩)))))
    | configure tid pin idle inten duty =>
      exact .inr (.inr (.inr (.inr (.inr (.inr ⟨rfl, .inr (.inl ⟨tid, pin, idle, inten, duty, hi⟩)⟩)))))
  · rw [e] at hne ⊢
    obtain ⟨hwrap, hbound, hrunning, hcompleted⟩ := tick_fstate_ne hne
    exact .inr (.inr (.inl ⟨hrunning, hcompleted, t, ⟨hm, hwrap⟩, hbound⟩))
  · have hidle : (u.block.channel c).fade.fstate = .idle := by
      rw [e, reset_channel]
      rfl
    exact .inr (.inr (.inr (.inr (.inr (.inr ⟨hidle, .inr (.inr hm)⟩)))))

end Sys2Proof.Machine
end

section
/-! The interrupt dispatcher (45_interrupt_dispatcher.md): what INT_STATUS answers (R175), what INT_CLEAR acknowledges
(R176), the handler pass made of the two (R178), and `register` (R177). -/

namespace Sys2Proof.Machine

/-! ### INT_STATUS (R175) -/

theorem exec_intStatus (s : State) : AnswersUnchanged .intStatus s .ok (s.block.intStatus.setWidth 32) := rfl

/-- Zero extension to a response value keeps every status bit and adds none. -/
theorem intStatus_value_getLsbD (bits : IntBits) (k : Nat) : (bits.setWidth 32 : Value).getLsbD k = bits.getLsbD k := by
  rw [BitVec.getLsbD_setWidth]
  by_cases hk : k < 32
  · rw [decide_eq_true hk, Bool.true_and]
  · rw [decide_eq_false hk, Bool.false_and, BitVec.getLsbD_of_ge bits k (by omega)]

/-- A block that fits its parameters has no status bit where no channel stands (10_state.md R28). -/
theorem Block.Fits.intStatus_getLsbD {p : Config.Params} {b : Block} (h : b.Fits p) {k : Nat}
    (hk : p.numChannels ≤ k) : b.intStatus.getLsbD k = false := by
  by_cases hslot : k < 16
  · obtain ⟨-, hchannels⟩ := h
    obtain ⟨-, habsent⟩ := hchannels ⟨k, hslot⟩
    exact (habsent hk).2
  · exact BitVec.getLsbD_of_ge _ _ (Nat.not_lt.mp hslot)

/-- Settles O45: the word is the encoder's; the answer is the status register, bit by bit. -/
theorem intStatusAnswersTheRawBits : Obligations.IntStatusAnswersTheRawBits :=
  ⟨decode_encode (i := .intStatus) rfl, fun s => ⟨exec_intStatus s, fun _ => intStatus_value_getLsbD _ _,
    fun hfits _ hk => (intStatus_value_getLsbD _ _).trans (hfits.intStatus_getLsbD hk)⟩⟩

/-! ### INT_CLEAR (R176) -/

/-- Settles O46: the loop of INT_CLEAR visits every channel and treats each by itself. -/
theorem intClearAcknowledgesExactlyTheMask : Obligations.IntClearAcknowledgesExactlyTheMask := by
  intro mask s
  obtain ⟨htimers, hchannel, hpending⟩ := foldl_clearRound mask Config.channelIds channelIds_nodup s.block
  simp only [mem_channelIds, true_and, Bool.decide_eq_true] at hchannel hpending
  exact ⟨_, rfl, rfl, hpending,
    fun c hmask hbit hcompleted => (hchannel c).trans (if_pos ⟨hmask, hbit, hcompleted⟩),
    fun c hskipped => (hchannel c).trans (if_neg hskipped), htimers, rfl, rfl, rfl, rfl⟩

/-! ### The handler pass (R178) -/

/-- The mask made of the answer of INT_STATUS is the status register itself. -/
theorem mask_of_intStatus_value (bits : IntBits) : ((bits.setWidth 32 : Value).setWidth 16 : Mask) = bits := by
  rw [BitVec.setWidth_setWidth_of_le _ (by decide), BitVec.setWidth_eq]

/-- Clearing exactly what was read keeps the handler contract. -/
theorem keepsHandlerContract_self (bits : IntBits) : KeepsHandlerContract (bits.setWidth 32) bits :=
  BitVec.and_not_self _

theorem mem_completedChannels {v : Value} {c : Fin Config.maxChannels} :
    c ∈ completedChannels v ↔ v.getLsbD c.val = true := by
  simp [completedChannels, mem_channelIds]

theorem intStatus_eq_zero {b : Block} (h : ∀ c, b.pendingBit c = false) : b.intStatus = 0 :=
  BitVec.eq_of_getLsbD_eq fun k hk => (h ⟨k, hk⟩).trans BitVec.getLsbD_zero.symm

/-- The line is low where no status bit is set (60_exceptions.md R194). -/
theorem irq_eq_false {b : Block} (h : ∀ c, b.pendingBit c = false) : b.irq = false := by
  simp [Block.irq, h]

/-- Settles O51: INT_STATUS writes nothing, so the INT_CLEAR after it names exactly the pending channels (O46). -/
theorem handlerPassServesEveryPendingChannel : Obligations.HandlerPassServesEveryPendingChannel := by
  intro s
  obtain ⟨v, hv, hresponse, hpending, hserved, hother, -, -⟩ := intClearAcknowledgesExactlyTheMask s.block.intStatus
    { s with response := some (responseWord .ok (s.block.intStatus.setWidth 32)) }
  have hclear : ∀ c, v.block.pendingBit c = false := fun c => (hpending c).trans (Bool.and_not_self _)
  have hacknowledged : ∀ c, (s.block.channel c).fade.fstate = .completed → s.block.pendingBit c = true →
      v.block.channel c = { s.block.channel c with fade := Fade.cleared } :=
    fun c hcompleted hbit => hserved c hbit hbit hcompleted
  have huntouched : ∀ c, ¬ ((s.block.channel c).fade.fstate = .completed ∧ s.block.pendingBit c = true) →
      v.block.channel c = s.block.channel c :=
    fun c hskipped => hother c fun ⟨_, hbit, hcompleted⟩ => hskipped ⟨hcompleted, hbit⟩
  rw [mask_of_intStatus_value]
  refine ⟨_, v, exec_intStatus s, rfl, hv, hresponse, rfl, intStatus_eq_zero hclear, irq_eq_false hclear,
    keepsHandlerContract_self _, fun c => ?set, fun c hcompleted hbit => ?served, huntouched, fun hinv c => ?inv,
    fun c => ?duties⟩
  case set => rw [mem_completedChannels, intStatus_value_getLsbD, Block.pendingBit]
  case served =>
    rw [hacknowledged c hcompleted hbit]
    exact ⟨rfl, rfl⟩
  case inv =>
    obtain ⟨-, -, -, -, hbit⟩ := hinv
    by_cases hcompleted : (s.block.channel c).fade.fstate = .completed
    · rw [hacknowledged c hcompleted (hbit c hcompleted)]
      exact fun hidle => FadeState.noConfusion hidle
    · rwa [huntouched c fun ⟨h, _⟩ => hcompleted h]
  case duties =>
    by_cases hdone : (s.block.channel c).fade.fstate = .completed ∧ s.block.pendingBit c = true
    · obtain ⟨hcompleted, hbit⟩ := hdone
      rw [hacknowledged c hcompleted hbit]
      exact ⟨rfl, rfl, rfl⟩
    · rw [huntouched c hdone]
      exact ⟨rfl, rfl, rfl⟩

/-! ### `register` (R177) -/

theorem registerHandler_some (line h context : Nat) (s : State) :
    registerHandler line (some h) context s = .next { s with
      host :=
        if Config.platformHasLine line then
          { s.host with registration := some ⟨line, h, context⟩, registerResult := some .ok }
        else { s.host with registerResult := some .invalidArgument } } := by
  by_cases hline : Config.platformHasLine line = true
  · simp only [registerHandler, if_pos hline]
  · simp only [registerHandler, if_neg hline]

theorem registerHandler_none (line context : Nat) (s : State) :
    registerHandler line none context s =
      .next { s with host := { s.host with registerResult := some .invalidArgument } } := rfl

/-- Settles O54: a queued `register`, by whether there is a handler and, with one, by the line. -/
theorem registerSetsTheHostFieldsOnly : Obligations.RegisterSetsTheHostFieldsOnly := by
  intro s line context rest
  refine ⟨fun handler hp => ?some, fun hp => ?none⟩
  case some => exact (step_cons hp).trans (registerHandler_some line handler context (s.dequeued rest))
  case none => exact (step_cons hp).trans (registerHandler_none line context (s.dequeued rest))

end Sys2Proof.Machine
end

section
/-! Exceptions and interrupts (60_exceptions.md): what a rejected command leaves of the block (R189), which steps write
a status bit (R192, R195) and an interrupt-enable flag (R193), the request line (R194), and the rights of the two
contexts of the host (R201). -/

namespace Sys2Proof.Machine

/-! ### Rejected commands (R189) -/

theorem setChannel_channel (b : Block) (c : Fin Config.maxChannels) : b.setChannel c (b.channel c) = b := by
  simp [Block.setChannel, Block.channel]

/-- A command that is not answered Ok was rejected: of the three ways to end, the two others answer Ok. -/
theorem exec_block_of_not_ok {i : Instr} {s u : State} (h : exec i s = .next u)
    (hst : ∀ v : Value, u.response ≠ some (responseWord .ok v)) : u.block = s.block := by
  generalize hx : exec i s = x at h
  cases hx ▸ exec_ends i s with
  | rejected _ st => exact raiseError_block h
  | done _ b => exact absurd (by rw [respond_next h]) (hst 0)
  | answered _ v => exact respond_block h

theorem exec_tPause_of_paused {s : State} {t : Fin Config.maxTimers} (hn : t.val < s.params.numTimers)
    (hpaused : (s.block.timer t).run = .paused) : AnswersUnchanged (.tPause t) s .ok 0 := by
  have hsame : s.block.setTimer t { s.block.timer t with run := (s.block.timer t).run.afterPause } = s.block := by
    rw [hpaused, RunState.afterPause, ← hpaused]
    exact setTimer_timer s.block t
  rw [AnswersUnchanged, exec, execTPause_of_ok hn, hsame]
  rfl

theorem exec_commit_of_running {s : State} {c : Fin Config.maxChannels} (hn : c.val < s.params.numChannels)
    (hcfg : (s.block.channel c).cfg = true) (hrunning : (s.block.channel c).fade.fstate = .running) :
    AnswersUnchanged (.commit c) s .ok 0 := by
  rw [AnswersUnchanged, execCommit_of_ok hn hcfg, committed_of_running hrunning, setChannel_channel]
  rfl

/-- Settles O10: only a command answered Ok writes, and two of those need not write anything. -/
theorem rejectedCommandChangesNothing : Obligations.RejectedCommandChangesNothing :=
  ⟨fun _ _ _ => exec_block_of_not_ok, fun _ _ => exec_tPause_of_paused, fun _ _ => exec_commit_of_running⟩

/-! ### The status bits (R192, R195) -/

/-- A command other than INT_CLEAR writes no status bit. -/
theorem exec_intStatus_eq {i : Instr} {s u : State} (h : exec i s = .next u) (hi : i.opcode ≠ .intClear) :
    u.block.intStatus = s.block.intStatus := by
  cases i with
  | intClear => exact absurd rfl hi
  | divcalc => rw [execDivcalc_block h]
  | tConfig => obtain e | ⟨_, _, _, _, _, _, _, e⟩ := execTConfig_block h <;> simp [e, Block.configureTimer]
  | tSetfreq => obtain e | ⟨_, _, _, _, _, _, _, e⟩ := execTSetfreq_block h <;> simp [e]
  | tGetfreq => rw [execTGetfreq_block h]
  | tReset => obtain e | ⟨_, _, _, e⟩ := execTReset_block h <;> simp [e]
  | tPause => obtain e | ⟨_, _, _, e⟩ := execTPause_block h <;> simp [e]
  | tResume => obtain e | ⟨_, _, _, e⟩ := execTResume_block h <;> simp [e]
  | tSetraw => obtain e | ⟨_, _, _, _, _, _, _, e⟩ := execTSetraw_block h <;> simp [e, Block.configureTimer]
  | cConfig => obtain e | ⟨_, _, _, _, _, _, _, _, e⟩ := execCConfig_block h <;> simp [e]
  | cSetduty => obtain e | ⟨_, _, _, _, _, e⟩ := execCSetduty_block h <;> simp [e]
  | cGetduty => rw [execCGetduty_block h]
  | cStop => obtain e | ⟨_, _, _, e⟩ := execCStop_block h <;> simp [e]
  | cBind => obtain e | ⟨_, _, _, _, _, _, _, _, e⟩ := execCBind_block h <;> simp [e]
  | commit => obtain e | ⟨_, _, _, _, e⟩ := execCommit_block h <;> simp [e]
  | fArm => obtain e | ⟨_, _, _, _, _, _, _, _, _, _, e⟩ := execFArm_block h <;> simp [e]
  | fCancel => obtain e | ⟨_, _, _, _, e⟩ := execFCancel_block h <;> simp [e]
  | intStatus => rw [execIntStatus_block h]

/-- A command that changes a status bit is an INT_CLEAR that names the bit, and clears it. -/
theorem exec_pendingBit_ne {i : Instr} {s u : State} {c : Fin Config.maxChannels} (h : exec i s = .next u)
    (hne : u.block.pendingBit c ≠ s.block.pendingBit c) :
    ∃ mask, i = .intClear mask ∧ mask.getLsbD c.val = true ∧ u.block.pendingBit c = false := by
  by_cases hi : i.opcode = .intClear
  · cases i with
    | intClear mask =>
      obtain ⟨-, -, hpending⟩ := foldl_clearRound mask Config.channelIds channelIds_nodup s.block
      simp only [mem_channelIds, true_and, Bool.decide_eq_true] at hpending
      rw [execIntClear_block h, hpending] at hne ⊢
      cases hmask : mask.getLsbD c.val with
      | true => exact ⟨mask, rfl, hmask, Bool.and_false _⟩
      | false => exact absurd (by rw [hmask, Bool.not_false, Bool.and_true]) hne
    | _ => simp [Instr.opcode] at hi
  · exact absurd (by rw [Block.pendingBit, exec_intStatus_eq h hi, Block.pendingBit]) hne

/-- The fade tick that completes a ramp (44_fade_engine.md R160). -/
theorem afterWrap_of_completesNow {C : Channel} (hrunning : C.fade.fstate = .running)
    (hnow : C.fade.completesNow = true) (maxDuty : Nat) :
    (C.afterWrap maxDuty).fade.fstate = .completed ∧ (C.afterWrap maxDuty).fade.stepsRem = 0 := by
  obtain ⟨hdue, hlast⟩ := completesNow_iff.mp hnow
  simp only [Channel.afterWrap, Channel.afterFadeTick, if_pos hrunning, if_pos (stepDue_iff.mpr hdue), if_pos hlast,
    and_self]

/-- A tick that raises a status bit is the wrap that completes the ramp of its channel. -/
theorem tick_raises {b : Block} {t : Fin Config.maxTimers} {c : Fin Config.maxChannels}
    (hold : b.pendingBit c = false) (hnew : (b.tick t).pendingBit c = true) :
    b.atWrap t = true ∧ b.bound c t = true ∧ (b.channel c).fade.fstate = .running ∧
      ((b.tick t).channel c).fade.fstate = .completed ∧ ((b.tick t).channel c).fade.stepsRem = 0 := by
  rw [tick_pendingBit, hold, Bool.false_or, decide_eq_true_iff] at hnew
  obtain ⟨hwrap, hbound, hrunning, hnow⟩ := hnew
  rw [tick_channel, if_pos ⟨hwrap, hbound⟩]
  exact ⟨hwrap, hbound, hrunning, afterWrap_of_completesNow hrunning hnow _⟩

/-- Settles O47: of what a step can make of the block, only a tick raises a bit. -/
theorem pendingIsSetOnlyByTheLastFadeStep : Obligations.PendingIsSetOnlyByTheLastFadeStep := by
  intro s u c h hold hnew
  have hne : u.block.pendingBit c ≠ s.block.pendingBit c := by rw [hold, hnew]; decide
  obtain e | ⟨i, -, he⟩ | ⟨t, hm, -, e⟩ | ⟨-, e⟩ := step_block h
  · exact absurd (by rw [e]) hne
  · obtain ⟨-, -, -, hclear⟩ := exec_pendingBit_ne he hne
    exact absurd (hnew.symm.trans hclear) (by decide)
  · rw [e] at hnew ⊢
    obtain ⟨hwrap, hbound, hfade⟩ := tick_raises hold hnew
    exact ⟨⟨t, ⟨hm, hwrap⟩, hbound⟩, hfade⟩
  · rw [e, reset_pendingBit] at hnew
    exact absurd hnew (by decide)

/-- Settles O48: of what a step can make of the block, only an INT_CLEAR and the reset clear a bit; a tick keeps those
that are set. -/
theorem pendingIsClearedOnlyByIntClearOrReset : Obligations.PendingIsClearedOnlyByIntClearOrReset := by
  intro s u c h hold hnew
  have hne : u.block.pendingBit c ≠ s.block.pendingBit c := by rw [hold, hnew]; decide
  obtain e | ⟨i, hi, he⟩ | ⟨t, -, -, e⟩ | ⟨hm, -⟩ := step_block h
  · exact absurd (by rw [e]) hne
  · obtain ⟨mask, rfl, hmask, -⟩ := exec_pendingBit_ne he hne
    exact .inl ⟨mask, hi, hmask⟩
  · rw [e, tick_pendingBit, hold, Bool.true_or] at hnew
    exact absurd hnew (by decide)
  · exact .inr hm

/-! ### The interrupt-enable flag (R193) -/

/-- A write of a channel slot that keeps the slot's flag keeps every flag. -/
theorem inten_setChannel {b : Block} {c' : Fin Config.maxChannels} {C : Channel}
    (h : C.inten = (b.channel c').inten) (c : Fin Config.maxChannels) :
    ((b.setChannel c' C).channel c).inten = (b.channel c).inten := by
  by_cases hc : c = c'
  · rw [hc, channel_setChannel_same, h]
  · rw [channel_setChannel_ne b C hc]

/-- COMMIT does not write the flag. -/
@[simp] theorem committed_inten (C : Channel) : C.committed.inten = C.inten := by
  cases h : C.fade.fstate with
  | idle => rw [committed_of_no_ramp (.inl h)]
  | armed => rw [committed_of_armed h]
  | running => rw [committed_of_running h]
  | completed => rw [committed_of_no_ramp (.inr h)]

/-- INT_CLEAR acknowledges and masks nothing (45_interrupt_dispatcher.md R176). -/
theorem inten_foldl_clearRound (mask : Mask) (b : Block) (c : Fin Config.maxChannels) :
    ((Config.channelIds.foldl (Block.clearRound mask) b).channel c).inten = (b.channel c).inten := by
  obtain ⟨-, hchannel, -⟩ := foldl_clearRound mask _ channelIds_nodup b
  rw [hchannel]
  split <;> rfl

/-- A command other than C_CONFIG writes no flag. -/
theorem exec_inten {i : Instr} {s u : State} (h : exec i s = .next u) (hi : i.opcode ≠ .cConfig)
    (c : Fin Config.maxChannels) : (u.block.channel c).inten = (s.block.channel c).inten := by
  cases i with
  | cConfig => exact absurd rfl hi
  | cSetduty =>
    obtain e | ⟨_, _, _, _, _, e⟩ := execCSetduty_block h <;> rw [e]
    exact inten_setChannel (by rfl) c
  | cStop =>
    obtain e | ⟨_, _, _, e⟩ := execCStop_block h <;> rw [e]
    exact inten_setChannel (by rfl) c
  | cBind =>
    obtain e | ⟨_, _, _, _, _, _, _, _, e⟩ := execCBind_block h <;> rw [e]
    exact inten_setChannel (by rfl) c
  | commit =>
    obtain e | ⟨_, _, _, _, e⟩ := execCommit_block h <;> rw [e]
    exact inten_setChannel (committed_inten _) c
  | fArm =>
    obtain e | ⟨_, _, _, _, _, _, _, _, _, _, e⟩ := execFArm_block h <;> rw [e]
    exact inten_setChannel (by rfl) c
  | fCancel =>
    obtain e | ⟨_, _, _, _, e⟩ := execFCancel_block h <;> rw [e]
    exact inten_setChannel (by rfl) c
  | intClear mask => rw [execIntClear_block h, inten_foldl_clearRound]
  | _ => simp only [Block.channel, exec_channels h (by simp [Instr.opcode])]

/-- A command that changes the flag of channel `c` is a C_CONFIG of that channel, and the flag its operand. -/
theorem exec_inten_ne {i : Instr} {s u : State} {c : Fin Config.maxChannels} (h : exec i s = .next u)
    (hne : (u.block.channel c).inten ≠ (s.block.channel c).inten) :
    ∃ tid pin idle duty, i = .cConfig c tid pin idle (u.block.channel c).inten duty := by
  by_cases hi : i.opcode = .cConfig
  · cases i with
    | cConfig cid tid pin idle inten duty =>
      obtain e | ⟨c', t, rfl, -, -, -, -, -, e⟩ := execCConfig_block h <;> rw [e] at hne ⊢
      · exact absurd rfl hne
      · by_cases hc : c = c'
        · subst hc
          exact ⟨tid, pin, idle, duty, by rw [channel_setChannel_same]⟩
        · exact absurd (by rw [channel_setChannel_ne _ _ hc]) hne
    | _ => simp [Instr.opcode] at hi
  · exact absurd (exec_inten h hi c) hne

@[simp] theorem afterWrap_inten (C : Channel) (maxDuty : Nat) : (C.afterWrap maxDuty).inten = C.inten := by
  simp only [Channel.afterWrap, Channel.afterFadeTick, apply_ite Channel.inten, ite_self]

/-- A tick masks and unmasks nothing. -/
theorem tick_inten (t : Fin Config.maxTimers) (b : Block) (c : Fin Config.maxChannels) :
    ((b.tick t).channel c).inten = (b.channel c).inten := by
  rw [tick_channel]
  split
  · exact afterWrap_inten _ _
  · rfl

/-- Settles O49: of what a step can make of the block, only a C_CONFIG and the reset write the flag. -/
theorem enableIsWrittenOnlyByCConfigOrReset : Obligations.EnableIsWrittenOnlyByCConfigOrReset := by
  intro s u c h hne
  obtain e | ⟨i, hi, he⟩ | ⟨t, -, -, e⟩ | ⟨hm, e⟩ := step_block h
  · exact absurd (by rw [e]) hne
  · obtain ⟨tid, pin, idle, duty, rfl⟩ := exec_inten_ne he hne
    exact .inl ⟨tid, pin, idle, duty, hi⟩
  · exact absurd (by rw [e, tick_inten]) hne
  · exact .inr ⟨hm, by rw [e, reset_channel]; rfl⟩

/-! ### The request line (R194) -/

/-- The line is high exactly if some enabled source is pending. -/
theorem irq_iff {b : Block} :
    b.irq = true ↔ ∃ c, b.intStatus.getLsbD c.val = true ∧ (b.channel c).inten = true := by
  simp only [Block.irq, List.any_eq_true, mem_channelIds, true_and, Bool.and_eq_true]
  rfl

/-- Settles O50: where no channel stands there is no status bit, so only existing channels count. -/
theorem irqIsTheOrOfEnabledPendingBits : Obligations.IrqIsTheOrOfEnabledPendingBits := by
  refine ⟨fun _ => irq_iff, fun p b hfits => irq_iff.trans (exists_congr fun c => ?_)⟩
  refine ⟨fun ⟨hbit, henabled⟩ => ⟨Nat.lt_of_not_le fun habsent => ?_, hbit, henabled⟩, And.right⟩
  exact absurd (hbit.symm.trans (hfits.intStatus_getLsbD habsent)) (by decide)

/-! ### The two contexts of the host (R201) -/

/-- The outcome with the host agent `host` in its next state. -/
def withHost (host : HostAgent) : Host.Outcome State Fault Refusal → Host.Outcome State Fault Refusal
  | .next u => .next { u with host := host }
  | .fault r => .fault r
  | .refused r => .refused r

/-- No command reads the host agent: every check is of the block or of the parameters, and whichever way the checks go
the command ends in a response. -/
theorem exec_withHost (i : Instr) (s : State) (host : HostAgent) :
    exec i { s with host := host } = withHost host (exec i s) := by
  cases i with
  | divcalc => simp only [exec, execDivcalc]; split <;> rfl
  | tConfig => simp only [exec, execTConfig]; (repeat' split) <;> rfl
  | tSetfreq => simp only [exec, execTSetfreq]; (repeat' split) <;> rfl
  | tGetfreq => simp only [exec, execTGetfreq]; (repeat' split) <;> rfl
  | tReset => simp only [exec, execTReset]; split <;> rfl
  | tPause => simp only [exec, execTPause]; split <;> rfl
  | tResume => simp only [exec, execTResume]; split <;> rfl
  | tSetraw => simp only [exec, execTSetraw]; (repeat' split) <;> rfl
  | cConfig => simp only [exec, execCConfig]; (repeat' split) <;> rfl
  | cSetduty => simp only [exec, execCSetduty]; (repeat' split) <;> rfl
  | cGetduty => simp only [exec, execCGetduty]; (repeat' split) <;> rfl
  | cStop => simp only [exec, execCStop]; split <;> rfl
  | cBind => simp only [exec, execCBind]; (repeat' split) <;> rfl
  | commit => simp only [exec, execCommit]; (repeat' split) <;> rfl
  | fArm => simp only [exec, execFArm]; (repeat' split) <;> rfl
  | fCancel => simp only [exec, execFCancel]; (repeat' split) <;> rfl
  | intStatus => rfl
  | intClear => rfl

/-- Nor does a word that is no command. -/
theorem transact_withHost (w : Word) (s : State) (host : HostAgent) :
    transact w { s with host := host } = withHost host (transact w s) := by
  cases h : decode w with
  | ok i => rw [transact_ok h, transact_ok h, exec_withHost]
  | error e =>
    rw [transact_error h, transact_error h]
    rfl

/-- Settles O59: whichever context issues the word, the transaction is that of the word, which never sees the host
agent. -/
theorem bothContextsHaveTheSameRights : Obligations.BothContextsHaveTheSameRights := by
  intro w s hisr hended
  obtain ⟨completes, -⟩ := everyTransactionCompletes
  obtain ⟨b, st, value, he, -, -⟩ := completes w s
  have hmain := (hostTransact_of_admitted (ctx := .main) (by simp [hisr]) (fun _ => hended) w).trans he
  have hhandler : hostTransact .isr w { s with host := { s.host with isrRunning := true } } =
      withHost { s.host with isrRunning := true } (transact w s) :=
    (hostTransact_of_admitted (ctx := .isr) (by simp) Config.HostContext.noConfusion w).trans (transact_withHost w s _)
  rw [he] at hhandler
  exact ⟨_, _, hmain, hhandler, rfl, rfl⟩

end Sys2Proof.Machine
end

section
/-! The reset step (70_reset_and_hazards.md R210), and what a step leaves of the queue, the step counter, the parameters
and the handler that runs. -/

namespace Sys2Proof.Machine

/-! ### Resetting the block (R210, R32) -/

/-- A step makes the drawn move wherever the machine admits it. -/
theorem step_of_takeMove {s u : State} (h : takeMove s.drawnMove s.advance = .next u) : step s = .next u := by
  unfold State.drawnMove at h
  unfold step takeNextMove
  split <;> rename_i hp <;> rw [hp] at h
  · exact h
  · rw [List.headD_nil] at h
    rw [h]

theorem step_reset {s : State} (h : s.drawnMove = .reset) : step s = .next (s.advance.setBlock Block.reset) :=
  step_of_takeMove (by rw [h]; rfl)

/-- Settles O12: the step writes the reset block, whose channels are stopped at idle level 0 and which has no status
bit. -/
theorem resetStepRestoresEveryField : Obligations.ResetStepRestoresEveryField := by
  intro s rest hp
  refine ⟨_, step_reset (by rw [State.drawnMove, hp, List.headD_cons]), reset_timer, reset_channel, rfl, fun c => ?_,
    irq_eq_false reset_pendingBit⟩
  have hstopped : (Block.reset.channel c).en = false := by rw [reset_channel]; rfl
  rw [out_of_stopped hstopped, setBlock_block, reset_channel]
  rfl

/-! ### What stands around the block -/

theorem exec_sameSurroundings {i : Instr} {s u : State} (h : exec i s = .next u) : SameSurroundings s u := by
  generalize hx : exec i s = x at h
  cases hx ▸ exec_ends i s with
  | rejected _ st => rw [raiseError_next h]; exact ⟨rfl, rfl, rfl, rfl⟩
  | done _ b => rw [respond_next h]; exact ⟨rfl, rfl, rfl, rfl⟩
  | answered _ v => rw [respond_next h]; exact ⟨rfl, rfl, rfl, rfl⟩

theorem transact_sameSurroundings {w : Word} {s u : State} (h : transact w s = .next u) : SameSurroundings s u := by
  cases hw : decode w with
  | ok i => exact exec_sameSurroundings ((transact_ok hw s).symm.trans h)
  | error e =>
    rw [raiseError_next ((transact_error hw s).symm.trans h)]
    exact ⟨rfl, rfl, rfl, rfl⟩

/-- A transaction is one of the context that may issue it (20_memory.md R72, 70_reset_and_hazards.md R229). -/
theorem hostTransact_next {ctx : Config.HostContext} {w : Word} {s u : State} (h : hostTransact ctx w s = .next u) :
    (ctx = .isr ↔ s.host.isrRunning = true) ∧ (ctx = .main → s.host.mainEnded = false) ∧ transact w s = .next u := by
  cases ctx with
  | main =>
    simp only [hostTransact] at h
    split at h
    · cases h
    · split at h
      · cases h
      · rename_i hisr hended
        exact ⟨⟨Config.HostContext.noConfusion, fun hr => absurd hr hisr⟩, fun _ => Bool.eq_false_iff.mpr hended, h⟩
  | isr =>
    simp only [hostTransact] at h
    split at h
    · exact ⟨⟨fun _ => ‹_›, fun _ => rfl⟩, Config.HostContext.noConfusion, h⟩
    · cases h

theorem tickMove_next {t : Fin Config.maxTimers} {s u : State} (h : tickMove t s = .next u) :
    s.block.tickEnabled t = true ∧ u = s.setBlock (s.block.tick t) := by
  unfold tickMove at h
  split at h
  · exact ⟨‹_›, (Host.Outcome.next.inj h).symm⟩
  · cases h

/-- `Host.Isr` runs only with a handler registered (93_implementation_defined.md U16). -/
abbrev HostAgent.HandlerAttached (host : HostAgent) : Prop := host.isrRunning = true → host.registration ≠ none

/-- No move touches the queue, the step counter or the parameters, or detaches the handler that runs. -/
theorem takeMove_surroundings {m : Config.Move} {s u : State} (h : takeMove m s = .next u) :
    u.pending = s.pending ∧ u.steps = s.steps ∧ u.params = s.params ∧
      (s.host.HandlerAttached → u.host.HandlerAttached) := by
  cases m with
  | command ctx w =>
    obtain ⟨-, -, ht⟩ := hostTransact_next h
    obtain ⟨hhost, hpending, hsteps, hparams⟩ := transact_sameSurroundings ht
    exact ⟨hpending, hsteps, hparams, fun hs => hhost ▸ hs⟩
  | tick t =>
    obtain ⟨-, rfl⟩ := tickMove_next h
    exact ⟨rfl, rfl, rfl, id⟩
  | reset =>
    cases h
    exact ⟨rfl, rfl, rfl, id⟩
  | register line handler context =>
    obtain ⟨reg, res, rfl, rfl | ⟨k, -, rfl⟩⟩ := registerHandler_next h
    · exact ⟨rfl, rfl, rfl, id⟩
    · exact ⟨rfl, rfl, rfl, fun _ _ => Option.some_ne_none _⟩
  | enterIsr =>
    obtain ⟨-, hreg, -, rfl⟩ := enterInterrupt_next h
    exact ⟨rfl, rfl, rfl, fun _ _ => hreg⟩
  | leaveIsr =>
    obtain ⟨-, rfl⟩ := leaveInterrupt_next h
    exact ⟨rfl, rfl, rfl, fun _ hr => absurd hr Bool.false_ne_true⟩
  | endMain =>
    obtain ⟨-, -, rfl⟩ := endMain_next h
    exact ⟨rfl, rfl, rfl, id⟩

theorem step_surroundings {s u : State} (h : step s = .next u) :
    u.steps = s.steps + 1 ∧ u.params = s.params ∧ (s.host.HandlerAttached → u.host.HandlerAttached) := by
  obtain h | ⟨-, rfl⟩ := step_next h
  · obtain ⟨-, hsteps, hparams, hhost⟩ := takeMove_surroundings h
    exact ⟨hsteps, hparams, hhost⟩
  · exact ⟨rfl, rfl, id⟩

/-- With no move queued a drawn move that the machine does not allow is left out of the step. -/
theorem exists_step_of_no_move {s : State} (hp : s.pending = []) : ∃ u, step s = .next u := by
  unfold step takeNextMove
  rw [hp]
  cases takeMove (Config.freeMove s.steps) s.advance with
  | next u => exact ⟨u, rfl⟩
  | fault _ => exact ⟨s.advance, rfl⟩
  | refused _ => exact ⟨s.advance, rfl⟩

/-- Settles O13: the drawn move is made or there is none, and either way the step counts. -/
theorem emptyQueueNeverStops : Obligations.EmptyQueueNeverStops := by
  intro s hp
  obtain ⟨u, h⟩ := exists_step_of_no_move hp
  obtain ⟨hsteps, hparams, -⟩ := step_surroundings h
  exact ⟨u, h, hsteps, hparams⟩

end Sys2Proof.Machine
end

section
/-! The launch premises (70_reset_and_hazards.md R228) and the invariant of the block, slot by slot: the reset block meets
them, and every command, tick and reset keeps them (10_state.md R23, R27, 45_interrupt_dispatcher.md R176 case e). -/

namespace Sys2Proof.Machine

/-! ### The invariants, slot by slot

What `Block.LaunchOk` asks of one timer slot, of one channel slot and of one status bit, and what `Block.Inv` adds for a
channel slot. -/

/-- What a launch state asks of the value of timer slot `t`: its registers fit by R23 (`Timer.Ok.fits`). -/
structure LaunchTimer (p : Config.Params) (t : Fin Config.maxTimers) (T : Timer) : Prop where
  ok : T.Ok p
  absent : p.numTimers ≤ t.val → T = Timer.reset

/-- What a launch state asks of the value of channel slot `c`. -/
structure LaunchChannel (p : Config.Params) (c : Fin Config.maxChannels) (C : Channel) : Prop where
  fits : C.Fits p
  fadeOk : C.FadeOk
  absent : p.numChannels ≤ c.val → C = Channel.reset

/-- What `Block.Inv` adds to the launch premises for a channel with the value `C`, given the timers of the block and the
channel's status bit. -/
structure InvChannel (timer : Fin Config.maxTimers → Timer) (pending : Bool) (C : Channel) : Prop where
  unconfigured : C.cfg = false → C = { Channel.reset with idle := C.idle }
  noRamp : C.fade.fstate ≠ .running → C.fade.stepsRem = 0 ∧ C.fade.tickCnt = 0
  bound : C.cfg = true → (timer C.tsel).configured = true
  pending : C.fade.fstate = .completed → pending = true

/-- The period of a timer is at most `2^DUTY_BITS`: every count and every in-range duty fits its register (R23). -/
theorem period_le {p : Config.Params} {T : Timer} (h : T.Ok p) : T.period ≤ 2 ^ p.dutyBits := by
  refine Nat.pow_le_pow_right (by decide) ?_
  obtain ⟨hconfigured, hreset⟩ := h
  by_cases hrun : T.run = .reset
  · rw [hreset hrun]
    exact Nat.zero_le _
  · obtain ⟨-, hres, -⟩ := hconfigured hrun
    exact hres

theorem Timer.Ok.fits {p : Config.Params} {T : Timer} (h : T.Ok p) : T.Fits p := by
  have hcnt := (cnt_lt_period h).trans_le (period_le h)
  obtain ⟨hconfigured, hreset⟩ := h
  by_cases hrun : T.run = .reset
  · rw [hreset hrun]
    exact ⟨Nat.two_pow_pos _, Nat.two_pow_pos _, Nat.two_pow_pos _⟩
  · obtain ⟨-, -, -, hdiv, -, hdivRun, -⟩ := hconfigured hrun
    exact ⟨hdiv, hdivRun, hcnt⟩

theorem launchOk_iff {p : Config.Params} {b : Block} :
    b.LaunchOk p ↔ (∀ t, LaunchTimer p t (b.timer t)) ∧ (∀ c, LaunchChannel p c (b.channel c)) ∧
      (∀ c, p.numChannels ≤ c.val → b.pendingBit c = false) := by
  constructor
  · rintro ⟨⟨htimers, hchannels⟩, hok, hfade⟩
    exact ⟨fun t => ⟨hok t, (htimers t).2⟩, fun c => ⟨(hchannels c).1, hfade c, fun h => ((hchannels c).2 h).1⟩,
      fun c h => ((hchannels c).2 h).2⟩
  · rintro ⟨htimers, hchannels, hpending⟩
    exact ⟨⟨fun t => ⟨(htimers t).ok.fits, (htimers t).absent⟩,
      fun c => ⟨(hchannels c).fits, fun h => ⟨(hchannels c).absent h, hpending c h⟩⟩⟩,
      fun t => (htimers t).ok, fun c => (hchannels c).fadeOk⟩

theorem inv_iff {p : Config.Params} {b : Block} :
    b.Inv p ↔ b.LaunchOk p ∧ ∀ c, InvChannel b.timer (b.pendingBit c) (b.channel c) := by
  constructor
  · rintro ⟨hlaunch, hunconfigured, hnoRamp, hbound, hpending⟩
    exact ⟨hlaunch, fun c => ⟨hunconfigured c, hnoRamp c, hbound c, hpending c⟩⟩
  · rintro ⟨hlaunch, hinv⟩
    exact ⟨hlaunch, fun c => (hinv c).unconfigured, fun c => (hinv c).noRamp, fun c => (hinv c).bound,
      fun c => (hinv c).pending⟩

theorem Block.LaunchOk.timer_ok {p : Config.Params} {b : Block} (h : b.LaunchOk p) (t : Fin Config.maxTimers) :
    (b.timer t).Ok p := by
  obtain ⟨-, htimers, -⟩ := h
  exact htimers t

theorem Block.LaunchOk.launchChannel {p : Config.Params} {b : Block} (h : b.LaunchOk p) (c : Fin Config.maxChannels) :
    LaunchChannel p c (b.channel c) := by
  obtain ⟨-, hchannels, -⟩ := launchOk_iff.mp h
  exact hchannels c

theorem Block.Inv.invChannel {p : Config.Params} {b : Block} (h : b.Inv p) (c : Fin Config.maxChannels) :
    InvChannel b.timer (b.pendingBit c) (b.channel c) := by
  obtain ⟨-, hchannels⟩ := inv_iff.mp h
  exact hchannels c

theorem maxDuty_lt_dutyBits {p : Config.Params} {b : Block} (hb : b.LaunchOk p) (c : Fin Config.maxChannels) :
    b.maxDuty c < 2 ^ p.dutyBits :=
  (Nat.sub_lt (Nat.two_pow_pos _) Nat.one_pos).trans_le (period_le (hb.timer_ok _))

/-! ### The reset block -/

theorem timerReset_ok (p : Config.Params) : Timer.reset.Ok p := ⟨fun h => absurd rfl h, fun _ => rfl⟩

theorem fadeCleared_ok {C : Channel} (h : C.fade = Fade.cleared) : C.FadeOk := by
  rw [Channel.FadeOk, h]
  exact ⟨FadeState.noConfusion, FadeState.noConfusion, fun _ => rfl, fun hne => absurd rfl hne⟩

theorem reset_launchOk (p : Config.Params) : Block.reset.LaunchOk p := by
  refine launchOk_iff.mpr ⟨fun t => ?_, fun c => ?_, fun c _ => reset_pendingBit c⟩
  · rw [reset_timer]
    exact ⟨timerReset_ok p, fun _ => rfl⟩
  · rw [reset_channel]
    exact ⟨⟨Bool.noConfusion, Nat.two_pow_pos _, Nat.two_pow_pos _, Nat.two_pow_pos _, Nat.two_pow_pos _⟩,
      fadeCleared_ok rfl, fun _ => rfl⟩

theorem reset_inv (p : Config.Params) : Block.reset.Inv p := by
  refine inv_iff.mpr ⟨reset_launchOk p, fun c => ?_⟩
  rw [reset_channel]
  exact ⟨fun _ => rfl, fun _ => ⟨rfl, rfl⟩, Bool.noConfusion, FadeState.noConfusion⟩

/-- Settles O55: the values of R4 meet their constraints, the reset block every invariant. -/
theorem invariantHoldsAtReset : Obligations.InvariantHoldsAtReset := by
  refine ⟨⟨by decide, reset_launchOk _, Bool.noConfusion⟩, reset_inv _, fun c hcfg => ?_⟩
  have hcfg : (Block.reset.channel c).cfg = true := hcfg
  rw [reset_channel] at hcfg
  exact Bool.noConfusion hcfg

/-! ### Writes of a slot -/

/-- The block `b` made of the block `a` meets the launch premises, and the invariant if `a` does. -/
structure Keeps (p : Config.Params) (a b : Block) : Prop where
  launchOk : b.LaunchOk p
  inv : a.Inv p → b.Inv p

section Writes

variable {p : Config.Params} {a b : Block} (ha : a.LaunchOk p)
include ha

theorem Keeps.of_eq (h : b = a) : Keeps p a b := ⟨h ▸ ha, fun hinv => h ▸ hinv⟩

/-- A write of a timer slot that R23 admits. -/
theorem Keeps.setTimer {t : Fin Config.maxTimers} {T : Timer} (hn : t.val < p.numTimers) (hT : T.Ok p)
    (hconfigured : (a.timer t).configured = true → T.configured = true) : Keeps p a (a.setTimer t T) := by
  obtain ⟨htimers, hchannels, hpending⟩ := launchOk_iff.mp ha
  have hlaunch : (a.setTimer t T).LaunchOk p := by
    refine launchOk_iff.mpr ⟨fun t' => ?_, hchannels, hpending⟩
    by_cases ht : t' = t
    · rw [ht, timer_setTimer_same]
      exact ⟨hT, fun h => absurd hn (Nat.not_lt.mpr h)⟩
    · rw [timer_setTimer_ne a T ht]
      exact htimers t'
  have hkept (t' : Fin Config.maxTimers) (h : (a.timer t').configured = true) :
      ((a.setTimer t T).timer t').configured = true := by
    by_cases ht : t' = t
    · rw [ht, timer_setTimer_same]
      exact hconfigured (ht ▸ h)
    · rwa [timer_setTimer_ne a T ht]
  refine ⟨hlaunch, fun hinv => inv_iff.mpr ⟨hlaunch, fun c => ?_⟩⟩
  have hc := hinv.invChannel c
  exact ⟨hc.unconfigured, hc.noRamp, fun h => hkept _ (hc.bound h), hc.pending⟩

/-- A write of a channel slot that R27 admits and that is within the invariant if the old value is. -/
theorem Keeps.setChannel {c : Fin Config.maxChannels} {C : Channel} (hn : c.val < p.numChannels) (hfits : C.Fits p)
    (hfade : C.FadeOk)
    (hC : InvChannel a.timer (a.pendingBit c) (a.channel c) → InvChannel a.timer (a.pendingBit c) C) :
    Keeps p a (a.setChannel c C) := by
  obtain ⟨htimers, hchannels, hpending⟩ := launchOk_iff.mp ha
  have hlaunch : (a.setChannel c C).LaunchOk p := by
    refine launchOk_iff.mpr ⟨htimers, fun c' => ?_, hpending⟩
    by_cases hc : c' = c
    · rw [hc, channel_setChannel_same]
      exact ⟨hfits, hfade, fun h => absurd hn (Nat.not_lt.mpr h)⟩
    · rw [channel_setChannel_ne a C hc]
      exact hchannels c'
  refine ⟨hlaunch, fun hinv => inv_iff.mpr ⟨hlaunch, fun c' => ?_⟩⟩
  by_cases hc : c' = c
  · rw [hc, channel_setChannel_same]
    exact hC (hinv.invChannel c)
  · rw [channel_setChannel_ne a C hc]
    exact hinv.invChannel c'

end Writes

/-! ### Values of a timer slot within R23 -/

theorem timer_ok_of_ranges {p : Config.Params} {T : Timer} (hrun : T.run ≠ .reset)
    (hres : p.resMin ≤ T.res.toNat ∧ T.res.toNat ≤ p.resMax)
    (hdiv : 2 ^ p.fracBits ≤ T.div.toNat ∧ T.div.toNat < 2 ^ p.divBits)
    (hdivRun : 2 ^ p.fracBits ≤ T.divRun.toNat ∧ T.divRun.toNat < 2 ^ p.divBits) (hcnt : T.cnt.toNat < T.period) :
    T.Ok p :=
  ⟨fun _ => ⟨hres.1, hres.2, hdiv.1, hdiv.2, hdivRun.1, hdivRun.2, hcnt⟩, fun h => absurd h hrun⟩

/-- The value that T_CONFIG and T_SETRAW write (41_timer.md R110, R116). -/
theorem configured_timer_ok {p : Config.Params} (hp : p.Valid) {res d : Nat} (src : ClockSource)
    (hres : p.resMin ≤ res ∧ res ≤ p.resMax) (hd : 2 ^ p.fracBits ≤ d ∧ d < 2 ^ p.divBits) :
    Timer.Ok p
      { run := .running, res := BitVec.ofNat 5 res, src := src, div := BitVec.ofNat 32 d,
        divRun := BitVec.ofNat 32 d, cnt := 0 } := by
  have hdiv : (BitVec.ofNat 32 d).toNat = d := div_ofNat_toNat hp hd.2
  have hstored : (BitVec.ofNat 5 res).toNat = res := by
    obtain ⟨-, -, ⟨-, -, hmax⟩, -⟩ := hp
    exact toNat_ofNat_of_fits le_rfl ((hres.2.trans hmax).trans_lt (by decide))
  exact timer_ok_of_ranges RunState.noConfusion (by rwa [hstored]) (by rwa [hdiv]) (by rwa [hdiv]) (Nat.two_pow_pos _)

section TimerUpdates

variable {p : Config.Params} {T : Timer} (hT : T.Ok p)
include hT

/-- T_SETFREQ (41_timer.md R111). -/
theorem timer_ok_setDiv (hp : p.Valid) (hrun : T.run ≠ .reset) {d : Nat} (hlo : 2 ^ p.fracBits ≤ d)
    (hhi : d < 2 ^ p.divBits) : Timer.Ok p { T with div := BitVec.ofNat 32 d } := by
  have hdiv : (BitVec.ofNat 32 d).toNat = d := div_ofNat_toNat hp hhi
  obtain ⟨hmin, hmax, -, -, hrlo, hrhi, hcnt⟩ := hT.1 hrun
  exact timer_ok_of_ranges hrun ⟨hmin, hmax⟩ (by rw [hdiv]; exact ⟨hlo, hhi⟩) ⟨hrlo, hrhi⟩ hcnt

/-- A counter within the period, where the timer is configured (41_timer.md R117). -/
theorem timer_ok_setCnt (hrun : T.run ≠ .reset) {k : Duty} (hk : k.toNat < T.period) :
    Timer.Ok p { T with cnt := k } := by
  obtain ⟨hmin, hmax, hlo, hhi, hrlo, hrhi, -⟩ := hT.1 hrun
  exact timer_ok_of_ranges hrun ⟨hmin, hmax⟩ ⟨hlo, hhi⟩ ⟨hrlo, hrhi⟩ hk

/-- T_RESET, of a timer never configured too (41_timer.md R113). -/
theorem timer_ok_zeroCnt : Timer.Ok p { T with cnt := 0 } := by
  by_cases hrun : T.run = .reset
  · rw [hT.2 hrun]
    exact timerReset_ok p
  · exact timer_ok_setCnt hT hrun (Nat.two_pow_pos _)

/-- The counter at 0 and the stored divider loaded, as a wrap leaves them (41_timer.md R118). -/
theorem timer_ok_wrapped (hrun : T.run ≠ .reset) : Timer.Ok p { T with cnt := 0, divRun := T.div } := by
  obtain ⟨hmin, hmax, hlo, hhi, -⟩ := hT.1 hrun
  exact timer_ok_of_ranges hrun ⟨hmin, hmax⟩ ⟨hlo, hhi⟩ ⟨hlo, hhi⟩ (Nat.two_pow_pos _)

/-- T_PAUSE and T_RESUME configure no timer and unconfigure none (41_timer.md R114, R115). -/
theorem timer_ok_setRun {r : RunState} (hr : r = .reset ↔ T.run = .reset) : Timer.Ok p { T with run := r } := by
  by_cases hrun : T.run = .reset
  · rw [hT.2 hrun, hr.mpr hrun]
    exact timerReset_ok p
  · obtain ⟨hmin, hmax, hlo, hhi, hrlo, hrhi, hcnt⟩ := hT.1 hrun
    exact timer_ok_of_ranges (mt hr.mp hrun) ⟨hmin, hmax⟩ ⟨hlo, hhi⟩ ⟨hrlo, hrhi⟩ hcnt

end TimerUpdates

theorem afterPause_eq_reset_iff (r : RunState) : r.afterPause = .reset ↔ r = .reset := by cases r <;> decide
theorem afterResume_eq_reset_iff (r : RunState) : r.afterResume = .reset ↔ r = .reset := by cases r <;> decide

/-! ### Values of a channel slot within R24 and R27 -/

/-- A duty in range fits its register (10_state.md R24). -/
theorem duty_ofNat_lt {p : Config.Params} {n : Nat} (h : n < 2 ^ p.dutyBits) :
    (BitVec.ofNat 20 n).toNat < 2 ^ p.dutyBits := by
  rw [BitVec.toNat_ofNat]
  exact (Nat.mod_le _ _).trans_lt h

theorem one_le_fadeCount {n : Nat} (hn : n ≠ 0) (h : n < 1024) : 1 ≤ (BitVec.ofNat 10 n).toNat := by
  rw [BitVec.toNat_ofNat]
  omega

section ChannelUpdates

variable {p : Config.Params} {C : Channel} (hfits : C.Fits p)
include hfits

/-- FadeClear (44_fade_engine.md R162) sets the staged start duty to 0. -/
theorem fits_fadeCleared : Channel.Fits p { C with fade := Fade.cleared } := by
  obtain ⟨htsel, hshadow, hactive, hwave, -⟩ := hfits
  exact ⟨htsel, hshadow, hactive, hwave, Nat.two_pow_pos _⟩

/-- COMMIT copies the shadow duty or the staged start duty (43_update_protocol.md R145). -/
theorem fits_committed : C.committed.Fits p := by
  obtain ⟨htsel, hshadow, hactive, hwave, hstart⟩ := hfits
  cases hf : C.fade.fstate with
  | idle => rw [committed_of_no_ramp (.inl hf)]; exact ⟨htsel, hshadow, hshadow, hwave, hstart⟩
  | completed => rw [committed_of_no_ramp (.inr hf)]; exact ⟨htsel, hshadow, hshadow, hwave, hstart⟩
  | armed => rw [committed_of_armed hf]; exact ⟨htsel, hshadow, hstart, hwave, hstart⟩
  | running => rw [committed_of_running hf]; exact ⟨htsel, hshadow, hactive, hwave, hstart⟩

theorem stepDuty_lt {maxDuty : Nat} (hmax : maxDuty < 2 ^ p.dutyBits) :
    (C.stepDuty maxDuty).toNat < 2 ^ p.dutyBits := by
  obtain ⟨-, -, hactive, -⟩ := hfits
  refine duty_ofNat_lt ?_
  cases C.fade.faDir with
  | increase => exact (min_le_right _ _).trans_lt hmax
  | decrease => exact (Nat.sub_le _ _).trans_lt hactive

end ChannelUpdates

/-- COMMIT starts a staged ramp with its counts at least 1 (10_state.md R27). -/
theorem fadeOk_committed {C : Channel} (h : C.FadeOk) : C.committed.FadeOk := by
  cases hf : C.fade.fstate with
  | idle => rw [committed_of_no_ramp (.inl hf)]; exact h
  | completed => rw [committed_of_no_ramp (.inr hf)]; exact h
  | running => rw [committed_of_running hf]; exact h
  | armed =>
    rw [committed_of_armed hf]
    obtain ⟨-, harmed, -, hcfg⟩ := h
    obtain ⟨hsteps, hticks⟩ := harmed hf
    exact ⟨fun _ => ⟨hsteps, hticks, hticks⟩, FadeState.noConfusion, FadeState.noConfusion,
      fun _ => hcfg (by rw [hf]; exact FadeState.noConfusion)⟩

/-- The fade after a wrap of the bound timer: untouched, one tick further inside a step, at the start of the next step,
or completed (44_fade_engine.md R158, R160). -/
theorem afterWrap_launch {p : Config.Params} {C : Channel} {maxDuty : Nat} (hfits : C.Fits p) (hfade : C.FadeOk)
    (hmax : maxDuty < 2 ^ p.dutyBits) : (C.afterWrap maxDuty).Fits p ∧ (C.afterWrap maxDuty).FadeOk := by
  have hstep := stepDuty_lt hfits hmax
  obtain ⟨htsel, hshadow, hactive, -, hstart⟩ := hfits
  by_cases hrun : C.fade.fstate = .running
  · obtain ⟨hrunning, -, -, hcfg⟩ := hfade
    obtain ⟨hleft, hticks, hcount⟩ := hrunning hrun
    have hcfg : C.cfg = true := hcfg (by rw [hrun]; exact FadeState.noConfusion)
    by_cases hdue : C.fade.tickCnt.toNat + 1 = C.fade.faTicks.toNat
    · rw [afterWrap_of_due hrun hdue hleft]
      refine ⟨⟨htsel, hshadow, hstep, hstep, hstart⟩, ?_⟩
      by_cases hlast : C.fade.stepsRem = 1
      · rw [Channel.FadeOk, if_pos hlast]
        exact ⟨FadeState.noConfusion, FadeState.noConfusion, FadeState.noConfusion, fun _ => hcfg⟩
      · rw [Channel.FadeOk, if_neg hlast]
        have hmore : 1 ≤ (C.fade.stepsRem - 1).toNat := by bv_omega
        exact ⟨fun _ => ⟨hmore, hticks, hticks⟩, FadeState.noConfusion, FadeState.noConfusion, fun _ => hcfg⟩
    · rw [afterWrap_of_waiting hrun hdue]
      have hnext : (C.fade.tickCnt + 1).toNat < C.fade.faTicks.toNat := by bv_omega
      refine ⟨⟨htsel, hshadow, hactive, hactive, hstart⟩, ?_⟩
      rw [Channel.FadeOk, hrun]
      exact ⟨fun _ => ⟨hleft, hticks, hnext⟩, FadeState.noConfusion, FadeState.noConfusion, fun _ => hcfg⟩
  · rw [afterWrap_of_not_running hrun]
    exact ⟨⟨htsel, hshadow, hactive, hactive, hstart⟩, hfade⟩

/-! ### Values of a channel slot within the invariant -/

section InvChannel

variable {timer : Fin Config.maxTimers → Timer} {pending : Bool} {C : Channel}

theorem invChannel_of_configured (hcfg : C.cfg = true)
    (hnoRamp : C.fade.fstate ≠ .running → C.fade.stepsRem = 0 ∧ C.fade.tickCnt = 0)
    (hbound : (timer C.tsel).configured = true) (hpending : C.fade.fstate = .completed → pending = true) :
    InvChannel timer pending C :=
  ⟨fun hc => absurd (hcfg.symm.trans hc) (by decide), hnoRamp, fun _ => hbound, hpending⟩

section Kept

variable (h : InvChannel timer pending C)
include h

/-- FadeClear of an unconfigured channel changes nothing (44_fade_engine.md R162). -/
theorem InvChannel.fadeCleared : InvChannel timer pending { C with fade := Fade.cleared } :=
  ⟨fun hc => by rw [h.unconfigured hc]; rfl, fun _ => ⟨rfl, rfl⟩, h.bound, FadeState.noConfusion⟩

/-- C_STOP of an unconfigured channel sets its idle level alone (42_channel.md R133). -/
theorem InvChannel.stopped (idle : Bool) :
    InvChannel timer pending { C with en := false, idle := idle, fade := Fade.cleared } :=
  ⟨fun hc => by rw [h.unconfigured hc]; rfl, fun _ => ⟨rfl, rfl⟩, h.bound, FadeState.noConfusion⟩

theorem InvChannel.committed (hcfg : C.cfg = true) : InvChannel timer pending C.committed := by
  cases hf : C.fade.fstate with
  | idle =>
    rw [committed_of_no_ramp (.inl hf)]
    exact invChannel_of_configured hcfg h.noRamp (h.bound hcfg) h.pending
  | completed =>
    rw [committed_of_no_ramp (.inr hf)]
    exact invChannel_of_configured hcfg h.noRamp (h.bound hcfg) h.pending
  | armed =>
    rw [committed_of_armed hf]
    exact invChannel_of_configured hcfg (fun hne => absurd rfl hne) (h.bound hcfg) FadeState.noConfusion
  | running => rwa [committed_of_running hf]

/-- The wrap that completes a ramp zeroes its counts and raises the status bit (44_fade_engine.md R160). -/
theorem InvChannel.afterWrap (hfade : C.FadeOk) (hcfg : C.cfg = true) (maxDuty : Nat) :
    InvChannel timer (pending || decide (C.fade.fstate = .running ∧ C.fade.completesNow = true))
      (C.afterWrap maxDuty) := by
  have hbound := h.bound hcfg
  by_cases hrun : C.fade.fstate = .running
  · obtain ⟨hrunning, -⟩ := hfade
    obtain ⟨hleft, -⟩ := hrunning hrun
    by_cases hdue : C.fade.tickCnt.toNat + 1 = C.fade.faTicks.toNat
    · rw [afterWrap_of_due hrun hdue hleft]
      by_cases hlast : C.fade.stepsRem = 1
      · have hnow := completesNow_iff.mpr ⟨hdue, (stepsRem_le_one_iff hleft).mpr hlast⟩
        refine invChannel_of_configured hcfg (fun _ => ⟨?_, rfl⟩) hbound fun _ => ?_
        · rw [hlast]
          rfl
        · rw [decide_eq_true ⟨hrun, hnow⟩, Bool.or_true]
      · simp only [if_neg hlast]
        exact invChannel_of_configured hcfg (fun hne => absurd rfl hne) hbound FadeState.noConfusion
    · rw [afterWrap_of_waiting hrun hdue]
      refine invChannel_of_configured hcfg (fun hne => absurd hrun hne) hbound fun hdone => ?_
      exact absurd (hrun.symm.trans hdone) FadeState.noConfusion
  · rw [afterWrap_of_not_running hrun]
    refine invChannel_of_configured hcfg h.noRamp hbound fun hdone => ?_
    rw [h.pending hdone, Bool.true_or]

end Kept

end InvChannel

/-! ### The loop of INT_CLEAR -/

/-- INT_CLEAR clears the status bit of a Completed fade with the fade (45_interrupt_dispatcher.md R176 case e). -/
theorem Keeps.clear {p : Config.Params} {b : Block} (hb : b.LaunchOk p) (mask : Mask) :
    Keeps p b (Config.channelIds.foldl (Block.clearRound mask) b) := by
  obtain ⟨htimers, hchannels, hpending⟩ := launchOk_iff.mp hb
  obtain ⟨htimersEq, hchannel, hbit⟩ := foldl_clearRound mask Config.channelIds channelIds_nodup b
  simp only [mem_channelIds, true_and, Bool.decide_eq_true] at hchannel hbit
  have htimer : (Config.channelIds.foldl (Block.clearRound mask) b).timer = b.timer :=
    funext fun t => by simp only [Block.timer, htimersEq]
  have hlaunch : (Config.channelIds.foldl (Block.clearRound mask) b).LaunchOk p := by
    refine launchOk_iff.mpr ⟨by rwa [htimer], fun c => ?_, fun c h => ?_⟩
    · rw [hchannel]
      split
      · rename_i hdone
        obtain ⟨-, hset, -⟩ := hdone
        refine ⟨fits_fadeCleared (hchannels c).fits, fadeCleared_ok rfl, fun h => ?_⟩
        exact absurd (hset.symm.trans (hpending c h)) (by decide)
      · exact hchannels c
    · rw [hbit, hpending c h, Bool.false_and]
  refine ⟨hlaunch, fun hinv => inv_iff.mpr ⟨hlaunch, fun c => ?_⟩⟩
  have hc := hinv.invChannel c
  rw [htimer, hchannel, hbit]
  split
  · exact ⟨hc.fadeCleared.unconfigured, hc.fadeCleared.noRamp, hc.bound, FadeState.noConfusion⟩
  · rename_i hkept
    refine ⟨hc.unconfigured, hc.noRamp, hc.bound, fun hdone => ?_⟩
    have hset := hc.pending hdone
    have hunnamed : ¬ mask.getLsbD c.val = true := fun hm => hkept ⟨hm, hset, hdone⟩
    rw [hset, Bool.eq_false_iff.mpr hunnamed]
    rfl

/-! ### Ticks -/

theorem tick_timer_ok {p : Config.Params} {b : Block} {t : Fin Config.maxTimers} (hp : p.Valid) (hT : (b.timer t).Ok p)
    (hrun : (b.timer t).run ≠ .reset) : ((b.tick t).timer t).Ok p := by
  rw [tick_timer_same]
  have hcnt := cnt_lt_period hT
  split
  · exact timer_ok_wrapped hT hrun
  · rename_i hwrap
    have hnext : (b.timer t).cnt.toNat + 1 < (b.timer t).period := by
      have hne : (b.timer t).cnt.toNat ≠ (b.timer t).period - 1 := mt atWrap_iff.mpr hwrap
      omega
    exact timer_ok_setCnt hT hrun (by rwa [count_ofNat_toNat hp hT hnext])

/-- A tick of a Running timer, slot by slot. -/
theorem Keeps.tick {p : Config.Params} {b : Block} {t : Fin Config.maxTimers} (hp : p.Valid) (hb : b.LaunchOk p)
    (hrun : (b.timer t).run = .running) : Keeps p b (b.tick t) := by
  obtain ⟨htimers, hchannels, hpending⟩ := launchOk_iff.mp hb
  have hconfigured : (b.timer t).run ≠ .reset := by rw [hrun]; exact RunState.noConfusion
  have hlaunch : (b.tick t).LaunchOk p := by
    refine launchOk_iff.mpr ⟨fun t' => ?_, fun c => ?_, fun c h => ?_⟩
    · by_cases ht : t' = t
      · subst ht
        refine ⟨tick_timer_ok hp (htimers t').ok hconfigured, fun h => ?_⟩
        exact absurd (congrArg Timer.run ((htimers t').absent h)) hconfigured
      · rw [tick_timer_ne b ht]
        exact htimers t'
    · rw [tick_channel]
      split
      · rename_i hserved
        obtain ⟨hfits, hfade⟩ := afterWrap_launch (hchannels c).fits (hchannels c).fadeOk (maxDuty_lt_dutyBits hb c)
        exact ⟨hfits, hfade, fun h => absurd (lt_numChannels_of_bound hb.1 hserved.2) (Nat.not_lt.mpr h)⟩
      · exact hchannels c
    · have hidle : ¬ (b.channel c).fade.fstate = .running := by
        rw [(hchannels c).absent h]
        exact FadeState.noConfusion
      simp [tick_pendingBit, hpending c h, hidle]
  refine ⟨hlaunch, fun hinv => inv_iff.mpr ⟨hlaunch, fun c => ?_⟩⟩
  have hc := hinv.invChannel c
  have htimer (t' : Fin Config.maxTimers) : ((b.tick t).timer t').configured = (b.timer t').configured := by
    rw [Timer.configured, tick_run, Timer.configured]
  rw [tick_channel, tick_pendingBit]
  split
  · rename_i hserved
    obtain ⟨hwrap, hbound⟩ := hserved
    obtain ⟨hcfg, -⟩ := bound_iff.mp hbound
    have hafter := hc.afterWrap (hchannels c).fadeOk hcfg (b.maxDuty c)
    simp only [hwrap, hbound, true_and]
    exact ⟨hafter.unconfigured, hafter.noRamp, fun h => (htimer _).trans (hafter.bound h), hafter.pending⟩
  · exact ⟨hc.unconfigured, hc.noRamp, fun h => (htimer _).trans (hc.bound h),
      fun h => by rw [hc.pending h, Bool.true_or]⟩

/-! ### Commands -/

section Commands

variable {s u : State} (hp : s.params.Valid) (hs : s.block.LaunchOk s.params)
include hp hs

theorem execTConfig_keeps {tid res freq : Nat} {src : ClockSource} (h : execTConfig tid res src freq s = .next u) :
    Keeps s.params s.block u.block := by
  obtain e | ⟨t, d, -, hn, hmin, hmax, hd, e⟩ := execTConfig_block h
  · exact .of_eq hs e
  · obtain ⟨-, -, hd⟩ := computeDivider_some hd
    rw [e]
    exact .setTimer hs hn (configured_timer_ok hp src ⟨hmin, hmax⟩ hd) fun _ => rfl

theorem execTSetfreq_keeps {tid freq : Nat} (h : execTSetfreq tid freq s = .next u) :
    Keeps s.params s.block u.block := by
  obtain e | ⟨t, d, -, hn, hrun, hlo, hhi, e⟩ := execTSetfreq_block h
  · exact .of_eq hs e
  · rw [e]
    exact .setTimer hs hn (timer_ok_setDiv (hs.timer_ok t) hp hrun hlo hhi) id

omit hp in
theorem execTReset_keeps {tid : Nat} (h : execTReset tid s = .next u) : Keeps s.params s.block u.block := by
  obtain e | ⟨t, -, hn, e⟩ := execTReset_block h
  · exact .of_eq hs e
  · rw [e]
    exact .setTimer hs hn (timer_ok_zeroCnt (hs.timer_ok t)) id

omit hp in
/-- T_PAUSE and T_RESUME: the run state written is `Reset` exactly if the old one is. -/
theorem setRun_keeps {t : Fin Config.maxTimers} {r : RunState} (hn : t.val < s.params.numTimers)
    (hr : r = .reset ↔ (s.block.timer t).run = .reset) :
    Keeps s.params s.block (s.block.setTimer t { s.block.timer t with run := r }) := by
  refine .setTimer hs hn (timer_ok_setRun (hs.timer_ok t) hr) fun hconfigured => ?_
  exact configured_iff.mpr (mt hr.mp (configured_iff.mp hconfigured))

omit hp in
theorem execTPause_keeps {tid : Nat} (h : execTPause tid s = .next u) : Keeps s.params s.block u.block := by
  obtain e | ⟨t, -, hn, e⟩ := execTPause_block h
  · exact .of_eq hs e
  · rw [e]
    exact setRun_keeps hs hn (afterPause_eq_reset_iff _)

omit hp in
theorem execTResume_keeps {tid : Nat} (h : execTResume tid s = .next u) : Keeps s.params s.block u.block := by
  obtain e | ⟨t, -, hn, e⟩ := execTResume_block h
  · exact .of_eq hs e
  · rw [e]
    exact setRun_keeps hs hn (afterResume_eq_reset_iff _)

theorem execTSetraw_keeps {tid res div : Nat} {src : ClockSource} (h : execTSetraw tid res src div s = .next u) :
    Keeps s.params s.block u.block := by
  obtain e | ⟨t, -, hn, hmin, hmax, hlo, hhi, e⟩ := execTSetraw_block h
  · exact .of_eq hs e
  · rw [e]
    exact .setTimer hs hn (configured_timer_ok hp src ⟨hmin, hmax⟩ ⟨hlo, hhi⟩) fun _ => rfl

omit hp

theorem execCConfig_keeps {cid tid duty : Nat} {pin : PinId} {idle inten : Bool}
    (h : execCConfig cid tid pin idle inten duty s = .next u) : Keeps s.params s.block u.block := by
  obtain e | ⟨c, t, -, -, hc, ht, hrun, hduty, e⟩ := execCConfig_block h
  · exact .of_eq hs e
  · have hd : (BitVec.ofNat 20 duty).toNat < 2 ^ s.params.dutyBits :=
      duty_ofNat_lt ((hduty.trans_lt (Nat.sub_lt (Nat.two_pow_pos _) Nat.one_pos)).trans_le (period_le (hs.timer_ok t)))
    rw [e]
    refine .setChannel hs hc ⟨fun _ => ht, hd, hd, hd, Nat.two_pow_pos _⟩ (fadeCleared_ok rfl) fun _ => ?_
    exact invChannel_of_configured rfl (fun _ => ⟨rfl, rfl⟩) (configured_iff.mpr hrun) FadeState.noConfusion

theorem execCSetduty_keeps {cid duty : Nat} (h : execCSetduty cid duty s = .next u) :
    Keeps s.params s.block u.block := by
  obtain e | ⟨c, -, hn, hcfg, hduty, e⟩ := execCSetduty_block h
  · exact .of_eq hs e
  · have hd := duty_ofNat_lt (hduty.trans_lt (maxDuty_lt_dutyBits hs c))
    have hc := hs.launchChannel c
    obtain ⟨htsel, -, hactive, hwave, hstart⟩ := hc.fits
    rw [e]
    exact .setChannel hs hn ⟨htsel, hd, hactive, hwave, hstart⟩ hc.fadeOk fun hinv =>
      invChannel_of_configured hcfg hinv.noRamp (hinv.bound hcfg) hinv.pending

theorem execCStop_keeps {cid : Nat} {idle : Bool} (h : execCStop cid idle s = .next u) :
    Keeps s.params s.block u.block := by
  obtain e | ⟨c, -, hn, e⟩ := execCStop_block h
  · exact .of_eq hs e
  · have hc := hs.launchChannel c
    rw [e]
    exact .setChannel hs hn (fits_fadeCleared hc.fits) (fadeCleared_ok rfl) fun hinv => hinv.stopped idle

theorem execCBind_keeps {cid tid : Nat} (h : execCBind cid tid s = .next u) : Keeps s.params s.block u.block := by
  obtain e | ⟨c, t, -, -, hn, ht, hcfg, hrun, e⟩ := execCBind_block h
  · exact .of_eq hs e
  · have hc := hs.launchChannel c
    obtain ⟨-, hduties⟩ := hc.fits
    rw [e]
    exact .setChannel hs hn ⟨fun _ => ht, hduties⟩ hc.fadeOk fun hinv =>
      invChannel_of_configured hcfg hinv.noRamp (configured_iff.mpr hrun) hinv.pending

theorem execCommit_keeps {cid : Nat} (h : execCommit cid s = .next u) : Keeps s.params s.block u.block := by
  obtain e | ⟨c, -, hn, hcfg, e⟩ := execCommit_block h
  · exact .of_eq hs e
  · have hc := hs.launchChannel c
    rw [e]
    exact .setChannel hs hn (fits_committed hc.fits) (fadeOk_committed hc.fadeOk) fun hinv => hinv.committed hcfg

/-- The step and tick counts of a command word are below `2^FADE_BITS` (30_encoding.md R87), so the counts staged are
not 0. -/
theorem execFArm_keeps {cid steps ticks scale start : Nat} {dir : Direction}
    (h : execFArm cid dir steps ticks scale start s = .next u) (hsteps : steps < 1024) (hticks : ticks < 1024) :
    Keeps s.params s.block u.block := by
  obtain e | ⟨c, -, hn, hcfg, hrunning, -, hstart, hsteps0, hticks0, -, e⟩ := execFArm_block h
  · exact .of_eq hs e
  · have hc := hs.launchChannel c
    have hd := duty_ofNat_lt (hstart.trans_lt (maxDuty_lt_dutyBits hs c))
    obtain ⟨htsel, hshadow, hactive, hwave, -⟩ := hc.fits
    rw [e]
    refine .setChannel hs hn ⟨htsel, hshadow, hactive, hwave, hd⟩ ?_ fun hinv => ?_
    · exact ⟨FadeState.noConfusion, fun _ => ⟨one_le_fadeCount hsteps0 hsteps, one_le_fadeCount hticks0 hticks⟩,
        FadeState.noConfusion, fun _ => hcfg⟩
    · exact invChannel_of_configured hcfg (fun _ => hinv.noRamp hrunning) (hinv.bound hcfg) FadeState.noConfusion

theorem execFCancel_keeps {cid : Nat} (h : execFCancel cid s = .next u) : Keeps s.params s.block u.block := by
  obtain e | ⟨c, -, hn, -, e⟩ := execFCancel_block h
  · exact .of_eq hs e
  · have hc := hs.launchChannel c
    rw [e]
    exact .setChannel hs hn (fits_fadeCleared hc.fits) (fadeCleared_ok rfl) InvChannel.fadeCleared

include hp in
/-- Every command that a word can carry. -/
theorem exec_keeps {i : Instr} (hwf : i.wf = true) (h : exec i s = .next u) : Keeps s.params s.block u.block := by
  cases i with
  | divcalc => exact .of_eq hs (execDivcalc_block h)
  | tConfig => exact execTConfig_keeps hp hs h
  | tSetfreq => exact execTSetfreq_keeps hp hs h
  | tGetfreq => exact .of_eq hs (execTGetfreq_block h)
  | tReset => exact execTReset_keeps hs h
  | tPause => exact execTPause_keeps hs h
  | tResume => exact execTResume_keeps hs h
  | tSetraw => exact execTSetraw_keeps hp hs h
  | cConfig => exact execCConfig_keeps hs h
  | cSetduty => exact execCSetduty_keeps hs h
  | cGetduty => exact .of_eq hs (execCGetduty_block h)
  | cStop => exact execCStop_keeps hs h
  | cBind => exact execCBind_keeps hs h
  | commit => exact execCommit_keeps hs h
  | fArm =>
    simp only [Instr.wf, Bool.and_eq_true, fadeFits_iff] at hwf
    obtain ⟨⟨⟨⟨-, hsteps⟩, hticks⟩, -⟩, -⟩ := hwf
    exact execFArm_keeps hs h hsteps hticks
  | fCancel => exact execFCancel_keeps hs h
  | intStatus => exact .of_eq hs (execIntStatus_block h)
  | intClear mask =>
    rw [execIntClear_block h]
    exact .clear hs mask

end Commands

/-! ### Steps -/

theorem step_keeps {s u : State} (hp : s.params.Valid) (hs : s.block.LaunchOk s.params) (h : step s = .next u) :
    Keeps s.params s.block u.block := by
  obtain e | ⟨i, ⟨ctx, w, -, hw⟩, he⟩ | ⟨t, -, henabled, e⟩ | ⟨-, e⟩ := step_block h
  · exact .of_eq hs e
  · exact exec_keeps (s := s.advance) hp hs (decodedWordEncodesBack w i hw).1 he
  · rw [e]
    exact .tick hp hs (tickEnabled_iff.mp henabled)
  · rw [e]
    exact ⟨reset_launchOk _, fun _ => reset_inv _⟩

/-- Settles O56: whatever the block becomes (unchanged, a command's writes, a tick, the reset) keeps R23, R27 and the
rest, and around the block no move detaches the handler that runs. -/
theorem everyStepKeepsTheInvariant : Obligations.EveryStepKeepsTheInvariant := by
  intro s u h
  obtain ⟨-, hparams, hhost⟩ := step_surroundings h
  rw [State.launchable, State.launchable, hparams]
  refine ⟨rfl, fun ⟨hp, hs, hattached⟩ => ?_, fun ⟨hp, hs, _⟩ hinv => ?_⟩
  · exact ⟨hp, (step_keeps hp hs h).launchOk, hhost hattached⟩
  · exact (step_keeps hp hs h).inv hinv

end Sys2Proof.Machine
end

section
/-! The settled block and the end of a run (70_reset_and_hazards.md R229). -/

namespace Sys2Proof.Machine

/-! ### Ticks of a settled block (R229) -/

/-- A wrap leaves a bound channel alone whose latch is loaded and whose fade is not Running (41_timer.md R118). -/
theorem afterWrap_of_loaded {C : Channel} (hfade : C.fade.fstate ≠ .running) (hwave : C.dutyWave = C.dutyActive)
    (maxDuty : Nat) : C.afterWrap maxDuty = C :=
  (afterWrap_of_not_running hfade maxDuty).trans (congrArg (fun d => { C with dutyWave := d }) hwave.symm)

/-- The tick of a Running timer in a settled block writes the counter of that timer alone: the divider is loaded already,
and so is the latch of every channel bound to the timer; no ramp runs. -/
theorem tick_of_settled {b : Block} {t : Fin Config.maxTimers} (hb : b.Settled) (hrun : (b.timer t).run = .running) :
    ∃ k : Duty, b.tick t = b.setTimer t { b.timer t with cnt := k } := by
  obtain ⟨hfade, -, hwave, hdiv⟩ := hb
  by_cases hwrap : b.atWrap t = true
  · refine ⟨0, block_ext (fun t' => ?timer) (fun c => ?channel) (intStatus_ext fun c => ?pending)⟩
    case timer =>
      by_cases ht : t' = t
      · subst ht
        rw [tick_timer_same, if_pos hwrap, timer_setTimer_same, ← hdiv t' hrun]
      · rw [tick_timer_ne b ht, timer_setTimer_ne b _ ht]
    case channel =>
      obtain ⟨-, hidle⟩ := hfade c
      rw [tick_channel, setTimer_channel]
      split
      · rename_i hbound
        obtain ⟨-, hbound⟩ := hbound
        obtain ⟨hcfg, rfl⟩ := bound_iff.mp hbound
        exact afterWrap_of_loaded hidle (hwave c hcfg hrun) _
      · rfl
    case pending =>
      obtain ⟨-, hidle⟩ := hfade c
      simp [tick_pendingBit, hidle]
  · exact ⟨_, tick_of_not_atWrap hwrap⟩

/-- No condition of R229 (c) is about a counter. -/
theorem settled_setTimer_cnt {b : Block} (hb : b.Settled) (t : Fin Config.maxTimers) (k : Duty) :
    (b.setTimer t { b.timer t with cnt := k }).Settled := by
  obtain ⟨hfade, hirq, hwave, hdiv⟩ := hb
  have hrun (t' : Fin Config.maxTimers) :
      ((b.setTimer t { b.timer t with cnt := k }).timer t').run = (b.timer t').run ∧
      ((b.setTimer t { b.timer t with cnt := k }).timer t').divRun = (b.timer t').divRun ∧
      ((b.setTimer t { b.timer t with cnt := k }).timer t').div = (b.timer t').div := by
    by_cases ht : t' = t
    · subst ht
      rw [timer_setTimer_same]
      exact ⟨rfl, rfl, rfl⟩
    · rw [timer_setTimer_ne b _ ht]
      exact ⟨rfl, rfl, rfl⟩
  refine ⟨hfade, hirq, fun c hcfg hr => hwave c hcfg ?_, fun t' hr => ?_⟩
  · exact ((hrun _).1.symm.trans hr)
  · obtain ⟨hsame, hdivRun, hdiv'⟩ := hrun t'
    rw [hdivRun, hdiv', hdiv t' (hsame ▸ hr)]

theorem withoutCounters_timer (b : Block) (t : Fin Config.maxTimers) :
    b.withoutCounters.timer t = { b.timer t with cnt := 0 } := by
  simp [Block.withoutCounters, Block.timer]

theorem withoutCounters_setTimer_cnt (b : Block) (t : Fin Config.maxTimers) (k : Duty) :
    (b.setTimer t { b.timer t with cnt := k }).withoutCounters = b.withoutCounters := by
  refine block_ext (fun t' => ?_) (fun _ => rfl) rfl
  rw [withoutCounters_timer, withoutCounters_timer]
  by_cases ht : t' = t
  · subst ht
    rw [timer_setTimer_same]
  · rw [timer_setTimer_ne b _ ht]

theorem reset_settled : Block.reset.Settled := by
  refine ⟨fun c => ?_, irq_eq_false reset_pendingBit, fun c hcfg => ?_, fun t hrun => ?_⟩
  · rw [reset_channel]
    exact ⟨FadeState.noConfusion, FadeState.noConfusion⟩
  · rw [reset_channel] at hcfg
    exact Bool.noConfusion hcfg
  · rw [reset_timer] at hrun
    exact RunState.noConfusion hrun

/-! ### The steps of a run that is over (R229) -/

/-- The moves left to a run that is over are an enabled tick, the reset and a `register`; the host's other moves are
refused. -/
theorem takeMove_of_runOver {m : Config.Move} {s u : State} (hs : s.runOver) (hm : m ≠ .reset)
    (h : takeMove m s = .next u) : u.runOver ∧ u.endState = s.endState := by
  obtain ⟨hended, hisr, hsettled⟩ := hs
  have ⟨_, hirq, _⟩ := hsettled
  cases m with
  | command ctx w =>
    obtain ⟨hctx, hmain, -⟩ := hostTransact_next h
    cases ctx with
    | main => exact absurd (hended.symm.trans (hmain rfl)) (by decide)
    | isr => exact absurd (hisr.symm.trans (hctx.mp rfl)) (by decide)
  | tick t =>
    obtain ⟨henabled, rfl⟩ := tickMove_next h
    obtain ⟨k, htick⟩ := tick_of_settled hsettled (tickEnabled_iff.mp henabled)
    rw [htick]
    exact ⟨⟨hended, hisr, settled_setTimer_cnt hsettled t k⟩, withoutCounters_setTimer_cnt s.block t k⟩
  | reset => exact absurd rfl hm
  | register line handler context =>
    obtain ⟨_, _, rfl, -⟩ := registerHandler_next h
    exact ⟨⟨hended, hisr, hsettled⟩, rfl⟩
  | enterIsr =>
    obtain ⟨-, -, hrequest, -⟩ := enterInterrupt_next h
    exact absurd (hirq.symm.trans hrequest) (by decide)
  | leaveIsr =>
    obtain ⟨hrunning, -⟩ := leaveInterrupt_next h
    exact absurd (hisr.symm.trans hrunning) (by decide)
  | endMain =>
    obtain ⟨-, hnot, -⟩ := endMain_next h
    exact absurd (hended.symm.trans hnot) (by decide)

theorem step_of_runOver {s u : State} (hs : s.runOver) (hm : s.drawnMove ≠ .reset) (h : step s = .next u) :
    u.runOver ∧ u.endState = s.endState := by
  obtain h | ⟨-, rfl⟩ := step_next h
  · exact takeMove_of_runOver (s := s.advance) hs hm h
  · exact ⟨hs, rfl⟩

/-- Settles O60: a tick of a settled block writes one counter, which neither R229 (c) nor the end state contains; the
other moves left to a run that is over write nothing of the block, the reset apart. -/
theorem tickOfSettledBlockMovesTheCounterOnly : Obligations.TickOfSettledBlockMovesTheCounterOnly := by
  refine ⟨fun b t hb henabled => ?settledTick, fun s u hs h => ?runOver⟩
  case settledTick =>
    obtain ⟨k, htick⟩ := tick_of_settled hb (tickEnabled_iff.mp henabled)
    exact ⟨⟨k, htick⟩, htick ▸ settled_setTimer_cnt hb t k⟩
  case runOver =>
    by_cases hm : s.drawnMove = .reset
    · obtain ⟨hended, hisr, -⟩ := hs
      cases (step_reset hm).symm.trans h
      exact ⟨⟨hended, hisr, reset_settled⟩, fun hne => absurd hm hne, fun _ => rfl⟩
    · obtain ⟨hover, hend⟩ := step_of_runOver hs hm h
      exact ⟨hover, fun _ => hend, fun hreset => absurd hreset hm⟩

end Sys2Proof.Machine
end
